-- ==== Sys2Proof/Word.lean ====
section
/-! DEFINITION. The word types of the block (`00_scope.md` R4 to R6, `10_state.md` R20). -/

namespace Sys2Proof

/-- One byte of DBUF (`10_state.md` R26). -/
abbrev Byte := BitVec 8

/-- A 64-bit host register value (`20_memory.md` R51). -/
abbrev Word := BitVec 64

/-- The content of one field register: five 52-bit limbs, so 260 bits. Limb j is bits 52j+51 : 52j, and the
register stands for the integer it represents (`00_scope.md` R6, `10_state.md` R20). -/
abbrev FieldReg := BitVec 260

/-- A field register number, FR0 to FR15 (`30_encoding.md` R81). -/
abbrev Reg := Fin 16

/-- The 12-bit immediate field, never sign-extended, scaled or shifted (`30_encoding.md` R81). -/
abbrev Imm := BitVec 12

end Sys2Proof
end

