-- ==== Sys2Proof/Syntax.lean ====
section
/-! DEFINITION. The commands of `spec/opcode_table.json`, one constructor per row, with the field names of
`30_encoding.md` R80, and the names the decoder uses. -/

namespace Sys2Proof

/-- The operand forms of `30_encoding.md` R83. A form names the fields a command uses. -/
inductive Form where
  | d | s | ss | ds | dss | di | dsi | i
deriving DecidableEq, Repr

/-- The 30 assigned opcodes, in the order of `30_encoding.md` R82. -/
inductive Op where
  | ldb | stb | ldu | ldi | ldc | mov | csel | cneg | cfop
  | add | sub | neg | halfw | half | iseven | ispos | eq
  | mul | sqr | mmul | msqr | tomont | frommont | pow
  | inv | div
  | leg | sqrt | sqrtr | twopow
deriving DecidableEq, Repr

/-- The operand fields of a command word (`30_encoding.md` R80). -/
structure Operands where
  rd : Reg
  rs1 : Reg
  rs2 : Reg
  imm : Imm
deriving DecidableEq, Repr

/-- A command. A term may hold an immediate that the encoding does not allow: `Instr.wellFormed` says which. -/
inductive Instr where
  | ldb (rd : Reg)
  | stb (rs1 : Reg)
  | ldu (rd : Reg) (imm : Imm)
  | ldi (rd : Reg) (imm : Imm)
  | ldc (rd : Reg) (imm : Imm)
  | mov (rd rs1 : Reg)
  | csel (rd rs1 rs2 : Reg)
  | cneg (rd rs1 : Reg)
  | cfop (imm : Imm)
  | add (rd rs1 rs2 : Reg)
  | sub (rd rs1 rs2 : Reg)
  | neg (rd rs1 : Reg)
  | halfw (rd rs1 : Reg)
  | half (rd rs1 : Reg)
  | iseven (rs1 : Reg)
  | ispos (rs1 : Reg)
  | eq (rs1 rs2 : Reg)
  | mul (rd rs1 rs2 : Reg)
  | sqr (rd rs1 : Reg)
  | mmul (rd rs1 rs2 : Reg)
  | msqr (rd rs1 : Reg)
  | tomont (rd rs1 : Reg)
  | frommont (rd rs1 : Reg)
  | pow (rd rs1 rs2 : Reg)
  | inv (rd rs1 : Reg)
  | div (rd rs1 rs2 : Reg)
  | leg (rs1 : Reg)
  | sqrt (rd rs1 : Reg) (imm : Imm)
  | sqrtr (rd rs1 rs2 : Reg)
  | twopow (rd : Reg) (imm : Imm)
deriving DecidableEq, Repr

/-- Why a CMD value is no command: the four conditions of `30_encoding.md` R84, in its order. -/
inductive Illegal where
  /-- CMD bits 63:32 are not zero. -/
  | highBits
  /-- The opcode is not assigned. -/
  | opcode
  /-- A field the form does not use is not zero. -/
  | unusedField
  /-- The immediate is outside the legal range of LDU, LDC, CFOP or SQRT. -/
  | immediate
deriving DecidableEq, Repr

/-- What the decoder answers. It is total on all 2^64 CMD values (`30_encoding.md` R85). -/
inductive Decoded where
  | ok (i : Instr)
  | illegal (why : Illegal)
deriving DecidableEq, Repr

end Sys2Proof
end

