-- ==== Sys2Proof/Decode.lean ====
section
/-! DEFINITION. The command encoding of `30_encoding.md`: the opcode map and forms (R82, R83), the decoder (R87),
total on every CMD value and rejecting by name, and after it the encoder (R80). -/

namespace Sys2Proof

/-- The opcode numbers of `30_encoding.md` R82. -/
def Op.code : Op → BitVec 8
  | .ldb => 0x01 | .stb => 0x02 | .ldu => 0x03 | .ldi => 0x04 | .ldc => 0x05 | .mov => 0x06
  | .csel => 0x07 | .cneg => 0x08 | .cfop => 0x09
  | .add => 0x10 | .sub => 0x11 | .neg => 0x12 | .halfw => 0x13 | .half => 0x14
  | .iseven => 0x15 | .ispos => 0x16 | .eq => 0x17
  | .mul => 0x20 | .sqr => 0x21 | .mmul => 0x22 | .msqr => 0x23 | .tomont => 0x24 | .frommont => 0x25
  | .pow => 0x26
  | .inv => 0x30 | .div => 0x31
  | .leg => 0x40 | .sqrt => 0x41 | .sqrtr => 0x42 | .twopow => 0x43

/-- The form of each opcode (`30_encoding.md` R82, R83). -/
def Op.form : Op → Form
  | .ldb => .d
  | .stb | .iseven | .ispos | .leg => .s
  | .eq => .ss
  | .mov | .cneg | .neg | .halfw | .half | .sqr | .msqr | .tomont | .frommont | .inv => .ds
  | .csel | .add | .sub | .mul | .mmul | .pow | .div | .sqrtr => .dss
  | .ldu | .ldi | .ldc | .twopow => .di
  | .sqrt => .dsi
  | .cfop => .i

/-- Every assigned opcode, in the order of `30_encoding.md` R82. -/
def Op.all : List Op :=
  [.ldb, .stb, .ldu, .ldi, .ldc, .mov, .csel, .cneg, .cfop,
   .add, .sub, .neg, .halfw, .half, .iseven, .ispos, .eq,
   .mul, .sqr, .mmul, .msqr, .tomont, .frommont, .pow,
   .inv, .div, .leg, .sqrt, .sqrtr, .twopow]

/-- The opcode a number names. A number not listed in `30_encoding.md` R82 names none. -/
def Op.ofCode (c : BitVec 8) : Option Op := Op.all.find? fun o => o.code == c

/-- The form contains D: the command writes a field register (`30_encoding.md` R83). -/
def Form.usesRd : Form → Bool
  | .d | .ds | .dss | .di | .dsi => true
  | .s | .ss | .i => false

/-- The form reads rs1 (`30_encoding.md` R83). -/
def Form.usesRs1 : Form → Bool
  | .s | .ss | .ds | .dss | .dsi => true
  | .d | .di | .i => false

/-- The form reads rs2 (`30_encoding.md` R83). -/
def Form.usesRs2 : Form → Bool
  | .ss | .dss => true
  | .d | .s | .ds | .di | .dsi | .i => false

/-- The form contains I: the command has an immediate (`30_encoding.md` R83). -/
def Form.usesImm : Form → Bool
  | .di | .dsi | .i => true
  | .d | .s | .ss | .ds | .dss => false

/-- The legal immediates of a command that has one (`30_encoding.md` R81). -/
def Op.immLegal (o : Op) (imm : Imm) : Bool :=
  match o with
  | .ldu => decide (imm.toNat ≤ 4)
  | .ldc => decide (imm.toNat ≤ 8)
  | .cfop => decide (imm.toNat ≤ 2)
  | .sqrt => decide (imm.toNat ≤ 1)
  | _ => true

/-- Bits 63:32 of a CMD value (`30_encoding.md` R80). -/
def highField (w : Word) : BitVec 32 := w.extractLsb' 32 32

/-- Bits 7:0, `op` (`30_encoding.md` R80). -/
def opField (w : Word) : BitVec 8 := w.extractLsb' 0 8

/-- A 4-bit field read as a register number (`30_encoding.md` R81). -/
def regOfField (f : BitVec 4) : Reg := ⟨f.toNat, f.isLt⟩

/-- Bits 11:8, `rd` (`30_encoding.md` R80). -/
def rdField (w : Word) : Reg := regOfField (w.extractLsb' 8 4)

/-- Bits 15:12, `rs1` (`30_encoding.md` R80). -/
def rs1Field (w : Word) : Reg := regOfField (w.extractLsb' 12 4)

/-- Bits 19:16, `rs2` (`30_encoding.md` R80). -/
def rs2Field (w : Word) : Reg := regOfField (w.extractLsb' 16 4)

/-- Bits 31:20, `imm` (`30_encoding.md` R80). -/
def immField (w : Word) : Imm := w.extractLsb' 20 12

/-- The command an opcode and the four fields make. A field the opcode's form does not use is dropped here, after
the decoder has checked that it is zero. -/
def Op.build (o : Op) (f : Operands) : Instr :=
  match o with
  | .ldb => .ldb f.rd
  | .stb => .stb f.rs1
  | .ldu => .ldu f.rd f.imm
  | .ldi => .ldi f.rd f.imm
  | .ldc => .ldc f.rd f.imm
  | .mov => .mov f.rd f.rs1
  | .csel => .csel f.rd f.rs1 f.rs2
  | .cneg => .cneg f.rd f.rs1
  | .cfop => .cfop f.imm
  | .add => .add f.rd f.rs1 f.rs2
  | .sub => .sub f.rd f.rs1 f.rs2
  | .neg => .neg f.rd f.rs1
  | .halfw => .halfw f.rd f.rs1
  | .half => .half f.rd f.rs1
  | .iseven => .iseven f.rs1
  | .ispos => .ispos f.rs1
  | .eq => .eq f.rs1 f.rs2
  | .mul => .mul f.rd f.rs1 f.rs2
  | .sqr => .sqr f.rd f.rs1
  | .mmul => .mmul f.rd f.rs1 f.rs2
  | .msqr => .msqr f.rd f.rs1
  | .tomont => .tomont f.rd f.rs1
  | .frommont => .frommont f.rd f.rs1
  | .pow => .pow f.rd f.rs1 f.rs2
  | .inv => .inv f.rd f.rs1
  | .div => .div f.rd f.rs1 f.rs2
  | .leg => .leg f.rs1
  | .sqrt => .sqrt f.rd f.rs1 f.imm
  | .sqrtr => .sqrtr f.rd f.rs1 f.rs2
  | .twopow => .twopow f.rd f.imm

/-- The four operand fields of a CMD value (`30_encoding.md` R80, R81). -/
def operandFields (w : Word) : Operands :=
  { rd := rdField w, rs1 := rs1Field w, rs2 := rs2Field w, imm := immField w }

/-- Every field the form does not use is zero (`30_encoding.md` R83). -/
def Form.unusedZero (f : Form) (x : Operands) : Bool :=
  (f.usesRd || x.rd == 0) && (f.usesRs1 || x.rs1 == 0) && (f.usesRs2 || x.rs2 == 0) && (f.usesImm || x.imm == 0)

/-- The decode function of `30_encoding.md` R87, over the whole 64-bit CMD value. -/
def decode (w : Word) : Decoded :=
  if highField w ≠ 0 then .illegal .highBits
  else
    match Op.ofCode (opField w) with
    | none => .illegal .opcode
    | some o =>
      if o.form.unusedZero (operandFields w) then
        if o.immLegal (immField w) then .ok (o.build (operandFields w)) else .illegal .immediate
      else .illegal .unusedField

/-- The instruction the decoder reads from a table word of `nbits` bits: CMD is a 64-bit register, so the bits above
`nbits` are zero (`30_encoding.md` R80, R84 condition 1). -/
def decodeTableWord (nbits w : Nat) : Option Instr :=
  match decode (BitVec.ofNat 64 (w % 2 ^ nbits)) with
  | .ok i => some i
  | .illegal _ => none

/-- The opcode of a command (`30_encoding.md` R82). -/
def Instr.op : Instr → Op
  | .ldb _ => .ldb
  | .stb _ => .stb
  | .ldu _ _ => .ldu
  | .ldi _ _ => .ldi
  | .ldc _ _ => .ldc
  | .mov _ _ => .mov
  | .csel _ _ _ => .csel
  | .cneg _ _ => .cneg
  | .cfop _ => .cfop
  | .add _ _ _ => .add
  | .sub _ _ _ => .sub
  | .neg _ _ => .neg
  | .halfw _ _ => .halfw
  | .half _ _ => .half
  | .iseven _ => .iseven
  | .ispos _ => .ispos
  | .eq _ _ => .eq
  | .mul _ _ _ => .mul
  | .sqr _ _ => .sqr
  | .mmul _ _ _ => .mmul
  | .msqr _ _ => .msqr
  | .tomont _ _ => .tomont
  | .frommont _ _ => .frommont
  | .pow _ _ _ => .pow
  | .inv _ _ => .inv
  | .div _ _ _ => .div
  | .leg _ => .leg
  | .sqrt _ _ _ => .sqrt
  | .sqrtr _ _ _ => .sqrtr
  | .twopow _ _ => .twopow

/-- The operand fields of a command, a field its form does not use being zero (`30_encoding.md` R83). -/
def Instr.operands : Instr → Operands
  | .ldb rd => ⟨rd, 0, 0, 0⟩
  | .stb rs1 | .iseven rs1 | .ispos rs1 | .leg rs1 => ⟨0, rs1, 0, 0⟩
  | .eq rs1 rs2 => ⟨0, rs1, rs2, 0⟩
  | .mov rd rs1 | .cneg rd rs1 | .neg rd rs1 | .halfw rd rs1 | .half rd rs1 => ⟨rd, rs1, 0, 0⟩
  | .sqr rd rs1 | .msqr rd rs1 | .tomont rd rs1 | .frommont rd rs1 | .inv rd rs1 => ⟨rd, rs1, 0, 0⟩
  | .csel rd rs1 rs2 | .add rd rs1 rs2 | .sub rd rs1 rs2 | .mul rd rs1 rs2 => ⟨rd, rs1, rs2, 0⟩
  | .mmul rd rs1 rs2 | .pow rd rs1 rs2 | .div rd rs1 rs2 | .sqrtr rd rs1 rs2 => ⟨rd, rs1, rs2, 0⟩
  | .ldu rd imm | .ldi rd imm | .ldc rd imm | .twopow rd imm => ⟨rd, 0, 0, imm⟩
  | .sqrt rd rs1 imm => ⟨rd, rs1, 0, imm⟩
  | .cfop imm => ⟨0, 0, 0, imm⟩

/-- The encoder's word from its fields: op in bits 7:0, rd in 11:8, rs1 in 15:12, rs2 in 19:16, imm in 31:20
(`30_encoding.md` R80). -/
def commandWord (op : BitVec 8) (rd rs1 rs2 : Reg) (imm : Imm) : BitVec 32 :=
  (imm ++ BitVec.ofNat 4 rs2.val ++ BitVec.ofNat 4 rs1.val ++ BitVec.ofNat 4 rd.val ++ op : BitVec (12 + 4 + 4 + 4 + 8))

/-- The 32-bit word of a command (`30_encoding.md` R80). -/
def encode (i : Instr) : BitVec 32 :=
  commandWord i.op.code i.operands.rd i.operands.rs1 i.operands.rs2 i.operands.imm

/-- The 64-bit CMD value that offers a command word: bits 63:32 are zero (`10_state.md` R29, `30_encoding.md` R80). -/
def cmdValue (word : BitVec 32) : Word := (0#32 ++ word : BitVec (32 + 32))

end Sys2Proof
end

