-- ==== Sys2Proof/Config.lean ====
section
/-! DEFINITION. The three OPEN parameters of the model (`00_scope.md` R4, `92_eei_decisions.md` D6, D13, D26). Each
is an opaque constant: nothing can be proved about its value, so every claim holds for every choice. -/

namespace Sys2Proof

/-- BASE in units of 4096 bytes: BASE is OPEN and 4096-byte aligned (`20_memory.md` R50, log 2). -/
opaque Config.basePage : Nat

/-- The platform base address of the window, aligned by construction (`20_memory.md` R50, log 2). -/
def Config.base : Nat := 4096 * Config.basePage

/-- The OPEN parameter `sqrt_m1`: whether the hardware holds SQRT_M1_POS or SQRT_M1_NEG (`10_state.md` R34, D26,
log 1). -/
opaque Config.sqrtM1Nonneg : Bool

/-- The OPEN parameter `latency`: the n-th draw, in port turns after acceptance and before the completion
(`70_reset_and_hazards.md` R360, D13, log 3). -/
opaque Config.latency : Nat → Nat

end Sys2Proof
end

