-- ==== Sys2Proof/Machine/Rom.lean ====
section
/-! DEFINITION. The modulus and the constant ROM of `10_state.md` R33 to R35, by the formulas of R33's second column.
The ROM is valid from reset and never changes, so it is a family of constants and no field of State (log 9). -/

namespace Sys2Proof.Machine

/-- The modulus L, the order of the scalar field (`00_scope.md` R1, R4). -/
@[irreducible] def L : Nat := 2 ^ 252 + 27742317777372353535851937790883648493

/-- The Montgomery modulus R = 2^260 (`00_scope.md` R4); also the number of values a field register holds (R6). -/
@[irreducible] def R : Nat := 2 ^ 260

/-- MINUS_ONE = L - 1 (`10_state.md` R33). -/
def K.minusOne : Nat := L - 1

/-- RR = R^2 mod L (`10_state.md` R33). -/
def K.rr : Nat := R * R % L

/-- INV2 = inv_L(2) = (L + 1) / 2 (`10_state.md` R33). -/
def K.inv2 : Nat := (L + 1) / 2

/-- HALF_BOUND = (L - 1) / 2, the largest non-negative value (`10_state.md` R33). -/
def K.halfBound : Nat := (L - 1) / 2

/-- SQRT_M1_POS, the non-negative square root of -1 (`10_state.md` R34). -/
def K.sqrtM1Pos : Nat := 3034649101460298094273452163494570791663566989388331537498831373842135895065

/-- SQRT_M1_NEG = L - SQRT_M1_POS (`10_state.md` R34). -/
def K.sqrtM1Neg : Nat := L - K.sqrtM1Pos

/-- SQRT_M1, the OPEN parameter sqrt_m1 (`10_state.md` R34, D26, D49, log 1). -/
def K.sqrtM1 : Nat := if Config.sqrtM1Nonneg then K.sqrtM1Pos else K.sqrtM1Neg

/-- MONT_ONE = R mod L (`10_state.md` R33). -/
def K.montOne : Nat := R % L

/-- LFACTOR = -inv(L) mod 2^52, internal (`10_state.md` R33, R35). -/
def K.lFactor : Nat := 1439961107955227

/-- -inv(L) mod 2^260, the factor of `42_multiplicative.md` R182's formula for N. DEDUCED: computed from that formula
(log 11). -/
def K.negInvR : Nat := 1460841127323026145909195535181282744217281446807063794674545094323019697126939

/-- TS_Z, the Tonelli–Shanks non-residue, internal (`10_state.md` R35). -/
def K.tsZ : Nat := 2

/-- TS_S, where L - 1 = TS_Q * 2^TS_S with TS_Q odd (`10_state.md` R33). -/
def K.tsS : Nat := 2

/-- TS_Q (`10_state.md` R33). -/
def K.tsQ : Nat := (L - 1) / 4

/-- ID: INTERFACE_REV = 1 in bits 15:0, zero above (`10_state.md` R31). -/
def K.idValue : Word := 1

end Sys2Proof.Machine
end

