-- ==== Sys2Proof/Machine/Arith.lean ====
section
/-! DEFINITION. The closed-form arithmetic of the commands, as functions on the integers that field registers hold
(`00_scope.md` R6, R9). These are the normative functions; the datapaths the source describes are in
`Machine/Datapath.lean`. -/

namespace Sys2Proof.Machine

/-- ADD's closed form: the raw sum mod 2^260, less L if that is at least L (`41_linear.md` R140). -/
def addF (a b : Nat) : Nat :=
  let s := (a + b) % R
  if L ≤ s then s - L else s

/-- SUB's closed form: the difference, or the difference plus L mod 2^260 after a borrow (`41_linear.md` R141). -/
def subF (a b : Nat) : Nat := if b ≤ a then a - b else (a + L + R - b) % R

/-- NEG's closed form, SUB(0, a) (`41_linear.md` R142). -/
def negF (a : Nat) : Nat := subF 0 a

/-- HALFW's closed form: the 260-bit value shifted right by one bit (`41_linear.md` R143). -/
def halfwF (a : Nat) : Nat := a / 2

/-- N of `42_multiplicative.md` R182: the number below 2^260 with T + N * L divisible by 2^260. -/
def montN (T : Nat) : Nat := T * K.negInvR % R

/-- U of `42_multiplicative.md` R182, an exact division. -/
def montU (T : Nat) : Nat := (T + montN T * L) / R

/-- MRED, the Montgomery reduction of `42_multiplicative.md` R182. -/
def mred (T : Nat) : Nat :=
  let u := montU T
  if L ≤ u then u - L else u

/-- MULF, the two reductions of `42_multiplicative.md` R183. -/
def mulF (a b : Nat) : Nat := mred (mred (a * b) * K.rr)

/-- HALF's closed form, a product with INV2 (`41_linear.md` R144). -/
def halfF (a : Nat) : Nat := mulF a K.inv2

/-- Square and multiply modulo `m`, halving the exponent each turn, for at most `fuel` turns (the loop of
`42_multiplicative.md` R189, C1). -/
def powLoop (m : Nat) : Nat → Nat → Nat → Nat → Nat
  | 0, res, _, _ => res
  | fuel + 1, res, base, e =>
    if e = 0 then res
    else powLoop m fuel (if e % 2 = 1 then res * base % m else res) (base * base % m) (e / 2)

/-- POW's closed form: 1 if e = 0, else a^e mod L, computed by R189's loop of at most 260 turns
(`42_multiplicative.md` R189, log 10). -/
def powF (a e : Nat) : Nat := powLoop L 260 1 a e

/-- inv_L of `00_scope.md` R7, computed as POW(a, L - 2), which `42_multiplicative.md` R189 states equal to it
(DEDUCED, log 10). -/
def invL (a : Nat) : Nat := powF a (L - 2)

/-- QR of `44_residue_roots.md`: POW(x, (L - 1) / 2) = 1. -/
def isQR (x : Nat) : Bool := decide (powF x K.halfBound = 1)

/-- The least i with t^(2^i) = 1, or `fuel` if there is none below it (the inner loop of `44_residue_roots.md`
R254). -/
def tsLeast : Nat → Nat → Nat
  | 0, _ => 0
  | fuel + 1, t => if t = 1 then 0 else tsLeast fuel (mulF t t) + 1

/-- The outer loop of `44_residue_roots.md` R254: it refines the witnesses x, t, c and the exponent m until t = 1. -/
def tsLoop : Nat → Nat → Nat → Nat → Nat → Nat
  | 0, x, _, _, _ => x
  | fuel + 1, x, t, c, m =>
    if t = 1 then x
    else
      let i := tsLeast m t
      let b := powF c (2 ^ (m - i - 1))
      tsLoop fuel (mulF x b) (mulF t (mulF b b)) (mulF b b) i

/-- A square root of a quadratic residue by Tonelli–Shanks (`44_residue_roots.md` R254; at most TS_S outer turns). -/
def tsRoot (a : Nat) : Nat :=
  tsLoop K.tsS (powF a ((K.tsQ + 1) / 2)) (powF a K.tsQ) (powF K.tsZ K.tsQ) K.tsS

/-- ROOT of `44_residue_roots.md`: of the two square roots r and L - r the non-negative one (`00_scope.md` R7,
log 10). -/
def rootF (x : Nat) : Nat :=
  let r := tsRoot x
  if r ≤ K.halfBound then r else L - r

/-- The operand is canonical (`00_scope.md` R7). -/
def canonical (v : Nat) : Bool := decide (v < L)

end Sys2Proof.Machine
end

