-- ==== Sys2Proof/Machine/State.lean ====
section
/-! DEFINITION. The state of `10_state.md` R39 as plain data, the model's own fields beside it, the reasons a step can
stop, and the reset state of `10_state.md` R38. -/

namespace Sys2Proof.Machine

/-- The fault codes of `60_exceptions.md` R300 that a command can raise. These are recorded in FCODE: they are next
states of the machine, not stops of the model. -/
inductive FaultCode where
  /-- E_ILLEGAL, code 1. -/
  | illegal
  /-- E_ZERO_DIVISOR, code 2. -/
  | zeroDivisor
  /-- E_K_RANGE, code 3. -/
  | kRange
  /-- E_NONCANON, code 4. -/
  | nonCanon
deriving DecidableEq, Repr

/-- One event of the outside world at the port (`20_memory.md` R60, logs 4, 15 and 17). Addresses are platform bus
addresses, `bits` is the access width, and a write of another width than 64 bits carries a value nobody reads. -/
inductive HostEvent where
  /-- A turn in which no master accesses the block. -/
  | idle
  | read (addr bits : Nat)
  | write (addr bits : Nat) (value : Word)
  /-- The platform asserts its reset (`70_reset_and_hazards.md` R340). -/
  | powerOnReset
deriving DecidableEq, Repr

/-- What the port answered to a host access (`20_memory.md` R53, R56, log 6). -/
inductive PortAnswer where
  /-- No access has been answered yet. -/
  | none
  /-- A write was taken (also when its effect is to be ignored or dropped). -/
  | done
  | data (value : Word)
  /-- The bus-error response of `20_memory.md` R53. It carries no data. -/
  | busError
deriving DecidableEq, Repr

/-- The MODEL's own fields, which stand for the outside world and the latency draw (logs 3, 4 and 6). The spec gives
the block none of them (`10_state.md` R39). -/
structure Env where
  /-- The events still to come, in the port's total order (`20_memory.md` R60). -/
  inputs : List HostEvent
  /-- The answer to the last host access. -/
  resp : PortAnswer
  /-- The turns the running command still takes before its completion (`70_reset_and_hazards.md` R360). -/
  latLeft : Nat
  /-- How many latencies have been drawn. -/
  draws : Nat
deriving DecidableEq, Repr

/-- DBUF as (byte number, byte) pairs in one canonical form: byte numbers strictly rising, all below 32, and no pair
whose byte is 0, which is what an unlisted byte reads as (`10_state.md` R26, R38, log 7). -/
abbrev Memory := List Host.Cell

/-- The architectural state, exactly the tuple of `10_state.md` R39, and the model's own `env`. -/
structure State where
  /-- FR0 to FR15 (`10_state.md` R20). -/
  fr : Vector FieldReg 16
  /-- The choice flag (`10_state.md` R23). -/
  cf : Bool
  /-- The valid flag (`10_state.md` R24). -/
  vf : Bool
  /-- The data buffer (`10_state.md` R26). -/
  dbuf : Memory
  /-- STATUS.BUSY (`10_state.md` R27, R36). -/
  busy : Bool
  /-- The accepted CMD value (`10_state.md` R36). -/
  pend : Word
  /-- STATUS.FAULT (`10_state.md` R27). -/
  fault : Bool
  /-- STATUS.FCODE (`10_state.md` R27, `60_exceptions.md` R300). -/
  fcode : BitVec 4
  /-- STATUS.OVR (`10_state.md` R27). -/
  ovr : Bool
  /-- CMDCNT (`10_state.md` R30). -/
  cmdcnt : Word
  /-- The model's own fields. -/
  env : Env
deriving DecidableEq, Repr

/-- The reasons the model stops with a fault. No command raises one. -/
inductive Fault where
  /-- Raised by a host access to an address outside BASE .. BASE + 0xFFF, which the spec gives the block no register
  for (`20_memory.md` R50, R57). Safe: the model stops where a platform would address some other device. -/
  | outsideWindow (addr : Nat)
deriving DecidableEq, Repr

/-- The reasons the model refuses to go on. -/
inductive Refusal where
  /-- Raised only by an arm of exec whose instruction has no meaning yet, by its mnemonic. Safe: the model stops. -/
  | notModelled (mnemonic : String)
deriving DecidableEq, Repr

/-- The outside world at reset: no event to come, nothing answered, no latency drawn (DESIGN CHOICE, logs 3, 4
and 6). -/
def Env.initial : Env := { inputs := [], resp := .none, latLeft := 0, draws := 0 }

/-- The reset state of `10_state.md` R38 and `70_reset_and_hazards.md` R340. -/
def State.reset : State :=
  { fr := Vector.replicate 16 0, cf := false, vf := false, dbuf := [], busy := false, pend := 0, fault := false,
    fcode := 0, ovr := false, cmdcnt := 0, env := Env.initial }

end Sys2Proof.Machine
end

