-- ==== Sys2Proof/Machine/Ops.lean ====
section
/-! DEFINITION. The named operations over DBUF and the registers: byte reads and writes that keep DBUF's canonical
form, register access, the completion of a command, the fault entry of `60_exceptions.md` R301 and its clearing (R306),
and the resets of `70_reset_and_hazards.md` R340, R341. -/

namespace Sys2Proof.Machine

/-- What a byte of DBUF that the list does not hold reads as: its reset value 0 (`10_state.md` R26, R38). -/
def Memory.unlisted : Byte := 0

/-- Byte k of DBUF (`10_state.md` R26). -/
def Memory.read : Memory → Nat → Byte
  | [], _ => Memory.unlisted
  | (a, b) :: m, k => if a = k then b else Memory.read m k

/-- The list with byte k removed. -/
def Memory.erase : Memory → Nat → Memory
  | [], _ => []
  | (a, b) :: m, k => if a = k then m else (a, b) :: Memory.erase m k

/-- The list with the pair (k, v) put in its place. -/
def Memory.insert : Memory → Nat → Byte → Memory
  | [], k, v => [(k, v)]
  | (a, b) :: m, k, v =>
    if k < a then (k, v) :: (a, b) :: m
    else if k = a then (k, v) :: m
    else (a, b) :: Memory.insert m k v

/-- DBUF with byte k set to v, in canonical form: writing what an unlisted byte reads as removes the pair. -/
def Memory.write (m : Memory) (k : Nat) (v : Byte) : Memory :=
  if v = Memory.unlisted then Memory.erase m k else Memory.insert m k v

/-- The byte numbers rise strictly from `lo` on, are below 32, and no listed byte is 0. -/
def Memory.wfFrom : Nat → Memory → Bool
  | _, [] => true
  | lo, (a, b) :: m => decide (lo ≤ a) && decide (a < 32) && decide (b ≠ Memory.unlisted) && Memory.wfFrom (a + 1) m

/-- The canonical form of DBUF (log 7). -/
def Memory.wf (m : Memory) : Bool := Memory.wfFrom 0 m

/-- The little-endian integer of `n` bytes from byte `k` on (`20_memory.md` R55). -/
def Memory.load (m : Memory) (k : Nat) : Nat → Nat
  | 0 => 0
  | n + 1 => (m.read k).toNat + 256 * Memory.load m (k + 1) n

/-- DBUF with the `n` low bytes of `v` stored little-endian from byte `k` on (`20_memory.md` R55). -/
def Memory.store (m : Memory) (k : Nat) : Nat → Nat → Memory
  | 0, _ => m
  | n + 1, v => Memory.store (m.write k (BitVec.ofNat 8 v)) (k + 1) n (v / 256)

/-- DBUF_int, the whole buffer as a 256-bit little-endian integer (`00_scope.md` R8, `10_state.md` R26). -/
def State.dbufInt (s : State) : Nat := s.dbuf.load 0 32

/-- DBUF <- the low 256 bits of v, little-endian (`40_data_movement.md` R101). -/
def State.setDbuf (s : State) (v : Nat) : State := { s with dbuf := s.dbuf.store 0 32 v }

/-- x[r], the integer FRr represents (`00_scope.md` R8). -/
def State.x (s : State) (r : Reg) : Nat := (s.fr[r]).toNat

/-- x[r] <- v for 0 ≤ v < 2^260 (`00_scope.md` R8). Every command's v is below 2^260. -/
def State.setX (s : State) (r : Reg) (v : Nat) : State := { s with fr := s.fr.set r (BitVec.ofNat 260 v) }

/-- limb_j(v), bits 52j+51 : 52j (`00_scope.md` R6). -/
def limb (v : FieldReg) (j : Nat) : BitVec 52 := v.extractLsb' (52 * j) 52

/-- The value written to CMD that the engine holds (`10_state.md` R36): what the engine runs next. There is no
instruction fetch from memory (`20_memory.md` R64). -/
def State.fetch (s : State) : Word := s.pend

/-- The completion of a command without a fault, after its writes: CMDCNT counts it and BUSY ends
(`70_reset_and_hazards.md` R350, `10_state.md` R30). -/
def State.commit (s : State) : State := { s with cmdcnt := s.cmdcnt + 1, busy := false }

/-- FCODE of a fault (`60_exceptions.md` R300). -/
def FaultCode.code : FaultCode → BitVec 4
  | .illegal => 1
  | .zeroDivisor => 2
  | .kRange => 3
  | .nonCanon => 4

/-- The completion of a command with a fault: FAULT, FCODE and BUSY change and nothing else (`60_exceptions.md`
R301, R304). -/
def State.takeFault (s : State) (c : FaultCode) : State :=
  { s with fault := true, fcode := c.code, busy := false }

/-- FCLR, the host's end of the fault state (`60_exceptions.md` R305, R306). -/
def State.clearFault (s : State) : State := { s with fault := false, fcode := 0, ovr := false }

/-- The reset state of every architectural field (`10_state.md` R38, `70_reset_and_hazards.md` R340, R341). A running
command is abandoned, and with it its remaining latency. The outside world's events and the draw counter are not the
block's to reset (log 14). -/
def State.toReset (s : State) : State :=
  { State.reset with env := { s.env with latLeft := 0 } }

/-- The command ends and writes its result to FR[rd] (`00_scope.md` R8, `30_encoding.md` R82). -/
def writeBack (rd : Reg) (v : Nat) (s : State) : Host.Outcome State Fault Refusal := .next (s.setX rd v).commit

/-- The command ends with a fault (`00_scope.md` R8, `60_exceptions.md` R301). This is a next state. -/
def raise (c : FaultCode) (s : State) : Host.Outcome State Fault Refusal := .next (s.takeFault c)

end Sys2Proof.Machine
end

