-- ==== Sys2Proof/Machine/Flags.lean ====
section
/-! DEFINITION. The flag computations: the predicates that go to CF (`10_state.md` R23) and the writes of CF and VF
(R23, R24). CF = 1 means true for every predicate (D4). -/

namespace Sys2Proof.Machine

/-- ISEVEN: bit 0 of the stored integer is 0 (`41_linear.md` R145). -/
def evenFlag (a : Nat) : Bool := decide (a % 2 = 0)

/-- ISPOS on a canonical operand: 0 ≤ a ≤ HALF_BOUND (`41_linear.md` R146). -/
def nonNegFlag (a : Nat) : Bool := decide (a ≤ K.halfBound)

/-- EQ: equality of the stored integers, not of residues (`41_linear.md` R147, D51). -/
def eqFlag (a b : Nat) : Bool := decide (a = b)

/-- LEG: POW(a, HALF_BOUND) = 1, so 0 for a ≡ 0 (`44_residue_roots.md` R250, D23). -/
def legFlag (a : Nat) : Bool := decide (powF a K.halfBound = 1)

/-- CF <- b (`00_scope.md` R8). -/
def State.setCf (s : State) (b : Bool) : State := { s with cf := b }

/-- VF <- b (`00_scope.md` R8). -/
def State.setVf (s : State) (b : Bool) : State := { s with vf := b }

/-- The command ends and writes its predicate to CF (`10_state.md` R23). -/
def writeChoice (b : Bool) (s : State) : Host.Outcome State Fault Refusal := .next (s.setCf b).commit

end Sys2Proof.Machine
end

