-- ==== Sys2Proof/Machine/Inversion.lean ====
section
/-! DEFINITION. The inversion commands (`43_inversion.md` R220, R221). The canonical check comes before the zero check
(`60_exceptions.md` R302). -/

namespace Sys2Proof.Machine

/-- INV (`43_inversion.md` R220). -/
def execInv (rd rs1 : Reg) (s : State) : Host.Outcome State Fault Refusal :=
  if !canonical (s.x rs1) then raise .nonCanon s
  else if s.x rs1 = 0 then raise .zeroDivisor s
  else writeBack rd (invL (s.x rs1)) s

/-- DIV (`43_inversion.md` R221): only the divisor is checked. -/
def execDiv (rd rs1 rs2 : Reg) (s : State) : Host.Outcome State Fault Refusal :=
  if !canonical (s.x rs2) then raise .nonCanon s
  else if s.x rs2 = 0 then raise .zeroDivisor s
  else writeBack rd (mulF (s.x rs1) (invL (s.x rs2))) s

end Sys2Proof.Machine
end

