-- ==== Sys2Proof/Machine/Linear.lean ====
section
/-! DEFINITION. The linear commands (`41_linear.md` R140 to R147). -/

namespace Sys2Proof.Machine

/-- ADD (`41_linear.md` R140). -/
def execAdd (rd rs1 rs2 : Reg) (s : State) : Host.Outcome State Fault Refusal :=
  writeBack rd (addF (s.x rs1) (s.x rs2)) s

/-- SUB (`41_linear.md` R141). -/
def execSub (rd rs1 rs2 : Reg) (s : State) : Host.Outcome State Fault Refusal :=
  writeBack rd (subF (s.x rs1) (s.x rs2)) s

/-- NEG (`41_linear.md` R142). -/
def execNeg (rd rs1 : Reg) (s : State) : Host.Outcome State Fault Refusal := writeBack rd (negF (s.x rs1)) s

/-- HALFW (`41_linear.md` R143): an odd operand is neither checked nor faulted (D22). -/
def execHalfw (rd rs1 : Reg) (s : State) : Host.Outcome State Fault Refusal := writeBack rd (halfwF (s.x rs1)) s

/-- HALF (`41_linear.md` R144). -/
def execHalf (rd rs1 : Reg) (s : State) : Host.Outcome State Fault Refusal := writeBack rd (halfF (s.x rs1)) s

/-- ISEVEN (`41_linear.md` R145). -/
def execIseven (rs1 : Reg) (s : State) : Host.Outcome State Fault Refusal := writeChoice (evenFlag (s.x rs1)) s

/-- ISPOS (`41_linear.md` R146): defined on canonical operands, E_NONCANON otherwise. -/
def execIspos (rs1 : Reg) (s : State) : Host.Outcome State Fault Refusal :=
  if canonical (s.x rs1) then writeChoice (nonNegFlag (s.x rs1)) s else raise .nonCanon s

/-- EQ (`41_linear.md` R147). -/
def execEq (rs1 rs2 : Reg) (s : State) : Host.Outcome State Fault Refusal :=
  writeChoice (eqFlag (s.x rs1) (s.x rs2)) s

end Sys2Proof.Machine
end

