-- ==== Sys2Proof/Machine/Operands.lean ====
section
/-! DEFINITION. Operand assembly: what an immediate means to the command that has one (`30_encoding.md` R81). Register
operands are read with `State.x` (`Machine/Ops.lean`). An immediate outside the legal range has no meaning here, and
the command raises E_ILLEGAL (R84 condition 4, log 8). -/

namespace Sys2Proof.Machine

/-- LDU's width W in bits: width code c gives 8 * 2^c, c in 0..4 (`40_data_movement.md` R102). -/
def lduWidth (imm : Imm) : Option Nat := if imm.toNat ≤ 4 then some (8 * 2 ^ imm.toNat) else none

/-- LDI's value, the immediate zero-extended to 260 bits (`40_data_movement.md` R103). -/
def ldiValue (imm : Imm) : Nat := imm.toNat

/-- LDC's constant of the ROM, by selector 0..8 (`40_data_movement.md` R104, `10_state.md` R33). -/
def ldcValue (imm : Imm) : Option Nat :=
  match imm.toNat with
  | 0 => some 0
  | 1 => some 1
  | 2 => some K.minusOne
  | 3 => some L
  | 4 => some K.rr
  | 5 => some K.inv2
  | 6 => some K.halfBound
  | 7 => some K.sqrtM1
  | 8 => some K.montOne
  | _ => none

/-- CFOP's new choice flag from the old: 0 clears, 1 sets, 2 inverts (`40_data_movement.md` R108). -/
def cfopFlag (imm : Imm) (cf : Bool) : Option Bool :=
  match imm.toNat with
  | 0 => some false
  | 1 => some true
  | 2 => some (!cf)
  | _ => none

/-- SQRT's requested sign: 1 the non-negative root, 0 the negative root (`44_residue_roots.md` R251). -/
def sqrtSign (imm : Imm) : Option Bool :=
  match imm.toNat with
  | 0 => some false
  | 1 => some true
  | _ => none

/-- TWOPOW's exponent k (`44_residue_roots.md` R253). Every immediate decodes; 253 and above fault when executed. -/
def twopowExponent (imm : Imm) : Nat := imm.toNat

end Sys2Proof.Machine
end

