-- ==== Sys2Proof/Machine/Movement.lean ====
section
/-! DEFINITION. The codec and data movement commands (`40_data_movement.md` R100 to R108). -/

namespace Sys2Proof.Machine

/-- LDB (`40_data_movement.md` R100): the low 253 bits of DBUF, neither reduced nor checked. -/
def execLdb (rd : Reg) (s : State) : Host.Outcome State Fault Refusal := writeBack rd (s.dbufInt % 2 ^ 253) s

/-- STB (`40_data_movement.md` R101): the low 256 bits of FR[rs1], all 32 bytes. -/
def execStb (rs1 : Reg) (s : State) : Host.Outcome State Fault Refusal := .next (s.setDbuf (s.x rs1)).commit

/-- LDU (`40_data_movement.md` R102): the low W bits of DBUF. -/
def execLdu (rd : Reg) (imm : Imm) (s : State) : Host.Outcome State Fault Refusal :=
  match lduWidth imm with
  | some w => writeBack rd (s.dbufInt % 2 ^ w) s
  | none => raise .illegal s

/-- LDI (`40_data_movement.md` R103). -/
def execLdi (rd : Reg) (imm : Imm) (s : State) : Host.Outcome State Fault Refusal := writeBack rd (ldiValue imm) s

/-- LDC (`40_data_movement.md` R104). -/
def execLdc (rd : Reg) (imm : Imm) (s : State) : Host.Outcome State Fault Refusal :=
  match ldcValue imm with
  | some v => writeBack rd v s
  | none => raise .illegal s

/-- MOV (`40_data_movement.md` R105). -/
def execMov (rd rs1 : Reg) (s : State) : Host.Outcome State Fault Refusal := writeBack rd (s.x rs1) s

/-- CSEL (`40_data_movement.md` R106): CF = 1 selects rs2. -/
def execCsel (rd rs1 rs2 : Reg) (s : State) : Host.Outcome State Fault Refusal :=
  writeBack rd (if s.cf then s.x rs2 else s.x rs1) s

/-- CNEG (`40_data_movement.md` R107): CF = 1 negates. -/
def execCneg (rd rs1 : Reg) (s : State) : Host.Outcome State Fault Refusal :=
  writeBack rd (if s.cf then negF (s.x rs1) else s.x rs1) s

/-- CFOP (`40_data_movement.md` R108). -/
def execCfop (imm : Imm) (s : State) : Host.Outcome State Fault Refusal :=
  match cfopFlag imm s.cf with
  | some b => writeChoice b s
  | none => raise .illegal s

end Sys2Proof.Machine
end

