-- ==== Sys2Proof/Machine/Multiplicative.lean ====
section
/-! DEFINITION. The multiplicative commands (`42_multiplicative.md` R183 to R189). -/

namespace Sys2Proof.Machine

/-- MUL (`42_multiplicative.md` R183). -/
def execMul (rd rs1 rs2 : Reg) (s : State) : Host.Outcome State Fault Refusal :=
  writeBack rd (mulF (s.x rs1) (s.x rs2)) s

/-- SQR (`42_multiplicative.md` R184). -/
def execSqr (rd rs1 : Reg) (s : State) : Host.Outcome State Fault Refusal :=
  writeBack rd (mulF (s.x rs1) (s.x rs1)) s

/-- MMUL (`42_multiplicative.md` R185): a single reduction. -/
def execMmul (rd rs1 rs2 : Reg) (s : State) : Host.Outcome State Fault Refusal :=
  writeBack rd (mred (s.x rs1 * s.x rs2)) s

/-- MSQR (`42_multiplicative.md` R186). -/
def execMsqr (rd rs1 : Reg) (s : State) : Host.Outcome State Fault Refusal :=
  writeBack rd (mred (s.x rs1 * s.x rs1)) s

/-- TOMONT (`42_multiplicative.md` R187). -/
def execTomont (rd rs1 : Reg) (s : State) : Host.Outcome State Fault Refusal :=
  writeBack rd (mred (s.x rs1 * K.rr)) s

/-- FROMMONT (`42_multiplicative.md` R188). -/
def execFrommont (rd rs1 : Reg) (s : State) : Host.Outcome State Fault Refusal := writeBack rd (mred (s.x rs1)) s

/-- POW (`42_multiplicative.md` R189): the exponent is the whole 260-bit integer of FR[rs2]. -/
def execPow (rd rs1 rs2 : Reg) (s : State) : Host.Outcome State Fault Refusal :=
  writeBack rd (powF (s.x rs1) (s.x rs2)) s

end Sys2Proof.Machine
end

