-- ==== Sys2Proof/Machine/Residue.lean ====
section
/-! DEFINITION. The residue and root commands (`44_residue_roots.md` R250 to R253). -/

namespace Sys2Proof.Machine

/-- LEG (`44_residue_roots.md` R250). -/
def execLeg (rs1 : Reg) (s : State) : Host.Outcome State Fault Refusal := writeChoice (legFlag (s.x rs1)) s

/-- SQRT's result for a canonical operand and a sign flag: the root, or "no value" (`44_residue_roots.md` R251). -/
def sqrtResult (a : Nat) (sign : Bool) : Option Nat :=
  if a = 0 then some 0
  else if isQR a then some (if sign then rootF a else L - rootF a)
  else none

/-- SQRT (`44_residue_roots.md` R251): VF says whether there is a root, and FR[rd] is 0 when there is none. -/
def execSqrt (rd rs1 : Reg) (imm : Imm) (s : State) : Host.Outcome State Fault Refusal :=
  match sqrtSign imm with
  | none => raise .illegal s
  | some sign =>
    if !canonical (s.x rs1) then raise .nonCanon s
    else writeBack rd ((sqrtResult (s.x rs1) sign).getD 0) (s.setVf (sqrtResult (s.x rs1) sign).isSome)

/-- SQRTR's pair for canonical operands u and v: "was square" and the non-negative root (`44_residue_roots.md`
R252). -/
def sqrtRatio (u v : Nat) : Bool × Nat :=
  if u = 0 then (true, 0)
  else if v = 0 then (false, 0)
  else
    let w := mulF u (invL v)
    if isQR w then (true, rootF w) else (false, rootF (mulF K.sqrtM1 w))

/-- SQRTR (`44_residue_roots.md` R252): both operands are checked together; v = 0 is no fault. -/
def execSqrtr (rd rs1 rs2 : Reg) (s : State) : Host.Outcome State Fault Refusal :=
  if canonical (s.x rs1) && canonical (s.x rs2) then
    writeBack rd (sqrtRatio (s.x rs1) (s.x rs2)).2 (s.setCf (sqrtRatio (s.x rs1) (s.x rs2)).1)
  else raise .nonCanon s

/-- TWOPOW (`44_residue_roots.md` R253). -/
def execTwopow (rd : Reg) (imm : Imm) (s : State) : Host.Outcome State Fault Refusal :=
  if 253 ≤ twopowExponent imm then raise .kRange s else writeBack rd (2 ^ twopowExponent imm) s

end Sys2Proof.Machine
end

