-- ==== Sys2Proof/Machine/Dispatch.lean ====
section
/-! DEFINITION. One arm per command of `spec/opcode_table.json`: each calls the meaning of that command, which runs at
the command's completion as one atomic step (`20_memory.md` R61, `70_reset_and_hazards.md` R350). -/

namespace Sys2Proof.Machine

def exec (i : Instr) (s : State) : Host.Outcome State Fault Refusal :=
  match i with
  | .ldb rd => Sys2Proof.Machine.execLdb rd s
  | .stb rs1 => Sys2Proof.Machine.execStb rs1 s
  | .ldu rd imm => Sys2Proof.Machine.execLdu rd imm s
  | .ldi rd imm => Sys2Proof.Machine.execLdi rd imm s
  | .ldc rd imm => Sys2Proof.Machine.execLdc rd imm s
  | .mov rd rs1 => Sys2Proof.Machine.execMov rd rs1 s
  | .csel rd rs1 rs2 => Sys2Proof.Machine.execCsel rd rs1 rs2 s
  | .cneg rd rs1 => Sys2Proof.Machine.execCneg rd rs1 s
  | .cfop imm => Sys2Proof.Machine.execCfop imm s
  | .add rd rs1 rs2 => Sys2Proof.Machine.execAdd rd rs1 rs2 s
  | .sub rd rs1 rs2 => Sys2Proof.Machine.execSub rd rs1 rs2 s
  | .neg rd rs1 => Sys2Proof.Machine.execNeg rd rs1 s
  | .halfw rd rs1 => Sys2Proof.Machine.execHalfw rd rs1 s
  | .half rd rs1 => Sys2Proof.Machine.execHalf rd rs1 s
  | .iseven rs1 => Sys2Proof.Machine.execIseven rs1 s
  | .ispos rs1 => Sys2Proof.Machine.execIspos rs1 s
  | .eq rs1 rs2 => Sys2Proof.Machine.execEq rs1 rs2 s
  | .mul rd rs1 rs2 => Sys2Proof.Machine.execMul rd rs1 rs2 s
  | .sqr rd rs1 => Sys2Proof.Machine.execSqr rd rs1 s
  | .mmul rd rs1 rs2 => Sys2Proof.Machine.execMmul rd rs1 rs2 s
  | .msqr rd rs1 => Sys2Proof.Machine.execMsqr rd rs1 s
  | .tomont rd rs1 => Sys2Proof.Machine.execTomont rd rs1 s
  | .frommont rd rs1 => Sys2Proof.Machine.execFrommont rd rs1 s
  | .pow rd rs1 rs2 => Sys2Proof.Machine.execPow rd rs1 rs2 s
  | .inv rd rs1 => Sys2Proof.Machine.execInv rd rs1 s
  | .div rd rs1 rs2 => Sys2Proof.Machine.execDiv rd rs1 rs2 s
  | .leg rs1 => Sys2Proof.Machine.execLeg rs1 s
  | .sqrt rd rs1 imm => Sys2Proof.Machine.execSqrt rd rs1 imm s
  | .sqrtr rd rs1 rs2 => Sys2Proof.Machine.execSqrtr rd rs1 rs2 s
  | .twopow rd imm => Sys2Proof.Machine.execTwopow rd imm s

end Sys2Proof.Machine
end

