-- ==== Sys2Proof/Machine/Port.lean ====
section
/-! DEFINITION. The host port: the address map of `20_memory.md` R51, what each register reads as, what a write to it
does (`10_state.md` R27 to R32, `70_reset_and_hazards.md` R350, R351), bus errors (R53), and one event of the outside
world (R60). -/

namespace Sys2Proof.Machine

/-- The registers of the window (`20_memory.md` R51). -/
inductive PortReg where
  | id | cmd | status | ctrl | cmdcnt
  /-- DBUFi, i in 0..3. -/
  | dbuf (i : Nat)
  /-- FRVIEW n.j, limb j of FRn. -/
  | frview (n : Reg) (j : Nat)
  /-- A reserved offset: reads 0, ignores writes (`20_memory.md` R54). -/
  | reserved
deriving DecidableEq, Repr

/-- The register at a window offset that is a multiple of 8 (`20_memory.md` R51). -/
def portReg (off : Nat) : PortReg :=
  if off = 0x000 then .id
  else if off = 0x008 then .cmd
  else if off = 0x010 then .status
  else if off = 0x018 then .ctrl
  else if off = 0x020 then .cmdcnt
  else if 0x040 ≤ off ∧ off < 0x060 then .dbuf ((off - 0x040) / 8)
  else if h : 0x100 ≤ off ∧ off < 0x500 then
    if (off - 0x100) % 0x40 < 0x28 then .frview ⟨(off - 0x100) / 0x40, by omega⟩ ((off - 0x100) % 0x40 / 8)
    else .reserved
  else .reserved

/-- One status bit. -/
def bit (b : Bool) : BitVec 1 := BitVec.ofBool b

/-- STATUS: VF in bit 9, CF in 8, FCODE in 7:4, 0 in 3, OVR in 2, FAULT in 1, BUSY in 0, 0 above (`10_state.md` R27). -/
def statusWord (s : State) : Word :=
  (0#54 ++ bit s.vf ++ bit s.cf ++ s.fcode ++ 0#1 ++ bit s.ovr ++ bit s.fault ++ bit s.busy :
    BitVec (54 + 1 + 1 + 4 + 1 + 1 + 1 + 1))

/-- What a host read returns. CMD and CTRL are write only and read 0, as reserved offsets do (`10_state.md` R27 to
R32, `20_memory.md` R51, R52, R54). -/
def readPort (p : PortReg) (s : State) : Word :=
  match p with
  | .id => K.idValue
  | .cmd => 0
  | .status => statusWord s
  | .ctrl => 0
  | .cmdcnt => s.cmdcnt
  | .dbuf i => BitVec.ofNat 64 (s.dbuf.load (8 * i) 8)
  | .frview n j => (limb s.fr[n] j).setWidth 64
  | .reserved => 0

/-- A host write that is dropped: OVR is its only effect (`70_reset_and_hazards.md` R351). -/
def State.dropWrite (s : State) : State := { s with ovr := true }

/-- The acceptance of a CMD value: PEND and BUSY, and the latency drawn (`70_reset_and_hazards.md` R350, R360,
log 3). -/
def State.accept (s : State) (v : Word) : State :=
  { s with
    pend := v
    busy := true
    env := { s.env with latLeft := Config.latency s.env.draws, draws := s.env.draws + 1 } }

/-- A write to CMD: accepted iff BUSY = 0 and FAULT = 0, else dropped (`10_state.md` R29, `70_reset_and_hazards.md`
R350, R351). -/
def writeCmd (v : Word) (s : State) : State := if s.busy || s.fault then s.dropWrite else s.accept v

/-- A write to CTRL: SRST in bit 0 is the whole effect, else FCLR in bit 1; never dropped (`10_state.md` R28, D52). -/
def writeCtrl (v : Word) (s : State) : State :=
  if v.getLsbD 0 then s.toReset else if v.getLsbD 1 then s.clearFault else s

/-- A write to DBUFi: dropped while BUSY (`20_memory.md` R51, `70_reset_and_hazards.md` R351). -/
def writeDbuf (i : Nat) (v : Word) (s : State) : State :=
  if s.busy then s.dropWrite else { s with dbuf := s.dbuf.store (8 * i) 8 v.toNat }

/-- What a host write does. Read-only registers and reserved offsets ignore it (`20_memory.md` R52, R54). -/
def writePort (p : PortReg) (v : Word) (s : State) : State :=
  match p with
  | .cmd => writeCmd v s
  | .ctrl => writeCtrl v s
  | .dbuf i => writeDbuf i v s
  | .id => s
  | .status => s
  | .cmdcnt => s
  | .frview _ _ => s
  | .reserved => s

/-- The window offset of a platform bus address, if the address is in the window (`20_memory.md` R50, log 2). -/
def windowOffset (addr : Nat) : Option Nat :=
  if Config.base ≤ addr ∧ addr < Config.base + 0x1000 then some (addr - Config.base) else none

/-- The port takes only 64-bit accesses at multiples of 8 (`20_memory.md` R53). -/
def accessOk (bits off : Nat) : Bool := decide (bits = 64) && decide (off % 8 = 0)

/-- The port's answer is recorded (log 6). -/
def State.answer (s : State) (r : PortAnswer) : State := { s with env := { s.env with resp := r } }

/-- A host read at a window offset (`20_memory.md` R53, R56): it changes nothing but the answer. -/
def readAt (bits off : Nat) (s : State) : State :=
  if accessOk bits off then s.answer (.data (readPort (portReg off) s)) else s.answer .busError

/-- A host write at a window offset (`20_memory.md` R53, R56). -/
def writeAt (bits off : Nat) (v : Word) (s : State) : State :=
  if accessOk bits off then (writePort (portReg off) v s).answer .done else s.answer .busError

/-- One event of the outside world at the port (`20_memory.md` R60). -/
def portEvent (e : HostEvent) (s : State) : Host.Outcome State Fault Refusal :=
  match e with
  | .idle => .next s
  | .read addr bits =>
    match windowOffset addr with
    | some off => .next (readAt bits off s)
    | none => .fault (.outsideWindow addr)
  | .write addr bits v =>
    match windowOffset addr with
    | some off => .next (writeAt bits off v s)
    | none => .fault (.outsideWindow addr)
  | .powerOnReset => .next s.toReset

/-- One turn of a running command's latency passes (`70_reset_and_hazards.md` R360, log 3). -/
def State.tick (s : State) : State := { s with env := { s.env with latLeft := s.env.latLeft - 1 } }

/-- The events still to come are `rest`. -/
def State.setInputs (s : State) (rest : List HostEvent) : State := { s with env := { s.env with inputs := rest } }

/-- A turn of the outside world: the next event of its stream, or none (`20_memory.md` R60, logs 4, 5 and 19). -/
def hostTurn (s : State) : Host.Outcome State Fault Refusal :=
  match s.env.inputs with
  | [] => .next s.tick
  | e :: rest => portEvent e (s.tick.setInputs rest)

end Sys2Proof.Machine
end

