-- ==== Sys2Proof/Machine/Engine.lean ====
section
/-! DEFINITION. The engine's turn: the completion of the accepted command (`70_reset_and_hazards.md` R350). -/

namespace Sys2Proof.Machine

/-- The engine holds a command whose latency has passed, so its completion is the next event (`70_reset_and_hazards.md`
R350, R360, logs 3 and 5). -/
def State.ready (s : State) : Bool := s.busy && decide (s.env.latLeft = 0)

/-- The completion: PEND is decoded; an illegal value faults with E_ILLEGAL, a command runs (`70_reset_and_hazards.md`
R350, `30_encoding.md` R84). -/
def completePending (s : State) : Host.Outcome State Fault Refusal :=
  match decode s.fetch with
  | .ok i => exec i s
  | .illegal _ => raise .illegal s

end Sys2Proof.Machine
end

