-- ==== Sys2Proof/Machine/Step.lean ====
section
/-! DEFINITION. One step is one event of the total order of `20_memory.md` R60: a command's completion, or an event of
the outside world. A completion that is due comes first (`60_exceptions.md` R303, log 5). -/

namespace Sys2Proof.Machine

/-- One event: the completion that is due, or else the outside world's turn (`20_memory.md` R60,
`70_reset_and_hazards.md` R350). -/
def step (s : State) : Host.Outcome State Fault Refusal := if s.ready then completePending s else hostTurn s

/-- The state in which the engine holds the accepted command word `w` of `nbits` bits and its completion is due: PEND
holds it, BUSY = 1, and no latency is left (log 18). -/
def State.withFetchWord (s : State) (nbits w : Nat) : State :=
  { s with pend := BitVec.ofNat 64 (w % 2 ^ nbits), busy := true, env := { s.env with latLeft := 0 } }

end Sys2Proof.Machine
end

