-- ==== Sys2Proof/Machine/Datapath.lean ====
section
/-! DEFINITION. The datapaths and algorithms the source describes, limb by limb and loop by loop: the adder/subtracter
(`41_linear.md` R150 to R152), the product unit and the digit-serial Montgomery reduction (`42_multiplicative.md` R180
to R182), the exponentiation loop (R189) and the binary-GCD inverse (`43_inversion.md` R222, R223). They are
informative: the commands use the closed forms of `Machine/Arith.lean`, which are normative (`00_scope.md` R9), and
the claims say that the two agree (log 12). The Tonelli–Shanks loop of `44_residue_roots.md` R254 is `tsRoot` there. -/

namespace Sys2Proof.Machine

/-- The five 64-bit limb words of a field register, bits 63:52 zero (`10_state.md` R20). -/
def limbWords (v : FieldReg) : List Word := [0, 1, 2, 3, 4].map fun j => (limb v j).setWidth 64

/-- The integer a list of limbs represents, least significant limb first (`00_scope.md` R6). -/
def limbVal : List Nat → Nat
  | [] => 0
  | l :: ls => l + 2 ^ 52 * limbVal ls

/-- The integer a list of limb words represents (`00_scope.md` R6). -/
def wordsVal (ws : List Word) : Nat := limbVal (ws.map BitVec.toNat)

/-- The low 52 bits of a word. -/
def limbMask : Word := 0xfffffffffffff

/-- The limb words of L; limb 3 is 0 (`10_state.md` R33). -/
def modulusWords : List Word := [671914833335277, 3916664325105025, 1367801, 0, 17592186044416]

/-- The limb adder's carry chain; the carry out of limb 4 is dropped (`41_linear.md` R150). -/
def addChain : Word → List Word → List Word → List Word
  | carry, a :: as, b :: bs =>
    let c := a + b + (carry >>> 52)
    (c &&& limbMask) :: addChain c as bs
  | _, _, _ => []

/-- The limb subtracter's borrow chain, with the last raw word (`41_linear.md` R151). -/
def subChain : Word → List Word → List Word → List Word × Word
  | borrow, a :: as, b :: bs =>
    let w := a - (b + (borrow >>> 63))
    ((w &&& limbMask) :: (subChain w as bs).1, (subChain w as bs).2)
  | borrow, _, _ => ([], borrow)

/-- The masked add-back of L (`41_linear.md` R151). -/
def addBack (mask : Word) : Word → List Word → List Word → List Word
  | carry, d :: ds, l :: ls =>
    let c := (carry >>> 52) + d + (l &&& mask)
    (c &&& limbMask) :: addBack mask c ds ls
  | _, _, _ => []

/-- The subtracter datapath (`41_linear.md` R151). -/
def subWords (a b : List Word) : List Word :=
  let d := subChain 0 a b
  addBack (if d.2 >>> 63 = 1 then BitVec.allOnes 64 else 0) 0 d.1 modulusWords

/-- The adder datapath: the sum, then an unconditional subtraction of L (`41_linear.md` R150). -/
def addWords (a b : List Word) : List Word := subWords (addChain 0 a b) modulusWords

/-- Comparison of limb lists of one length given most significant limb first (`41_linear.md` R152). -/
def limbLess : List Word → List Word → Bool
  | a :: as, b :: bs => decide (a.toNat < b.toNat) || (decide (a = b) && limbLess as bs)
  | _, _ => false

/-- The ordering of field registers, limb by limb from the most significant (`41_linear.md` R152). -/
def regLess (a b : FieldReg) : Bool := limbLess (limbWords a).reverse (limbWords b).reverse

/-- The sum over i + j = k of a.l[i] * b.l[j]; a limb past the end counts as 0 (`42_multiplicative.md` R180). -/
def convolution (a b : List Nat) (k : Nat) : Nat :=
  ((List.range (k + 1)).map fun i => a.getD i 0 * b.getD (k - i) 0).sum

/-- The nine accumulators of the product unit (`42_multiplicative.md` R180). -/
def productAcc (a b : List Nat) : List Nat := (List.range 9).map (convolution a b)

/-- One accumulator of the squaring variant: cross terms once, with one operand's limbs doubled (`42_multiplicative.md`
R181). -/
def squareTerm (a : List Nat) (k : Nat) : Nat :=
  ((List.range (k + 1)).map fun i =>
    if 2 * i < k then 2 * a.getD i 0 * a.getD (k - i) 0
    else if 2 * i = k then a.getD i 0 * a.getD i 0 else 0).sum

/-- The nine accumulators of the squaring variant (`42_multiplicative.md` R181). -/
def squareAcc (a : List Nat) : List Nat := (List.range 9).map (squareTerm a)

/-- The limbs of L as numbers. -/
def modulusLimbs : List Nat := modulusWords.map BitVec.toNat

/-- Reduction step i of the first five: it finds digit p_i and carries on (`42_multiplicative.md` R182). The state is
the carry and the digits found so far, p_0 first. -/
def digitStep (z : List Nat) (st : Nat × List Nat) (i : Nat) : Nat × List Nat :=
  let s := st.1 + z.getD i 0 + convolution st.2 modulusLimbs i
  let p := s * K.lFactor % 2 ^ 52
  ((s + p * modulusLimbs.getD 0 0) / 2 ^ 52, st.2 ++ [p])

/-- One of the four carry steps that follow; the state is the carry and the limbs r0, r1, .. found so far
(`42_multiplicative.md` R182). -/
def carryStep (z ps : List Nat) (st : Nat × List Nat) (k : Nat) : Nat × List Nat :=
  let s := st.1 + z.getD k 0 + convolution ps modulusLimbs k
  (s / 2 ^ 52, st.2 ++ [s % 2 ^ 52])

/-- r0 to r4 before the final subtraction; r4 is the remaining carry (`42_multiplicative.md` R182). -/
def reduceDigits (z : List Nat) : List Nat :=
  let q := [0, 1, 2, 3, 4].foldl (digitStep z) (0, [])
  let r := [5, 6, 7, 8].foldl (carryStep z q.2) (q.1, [])
  r.2 ++ [r.1]

/-- The Montgomery reduction engine on nine accumulators, with the final conditional subtraction of L by the
subtracter datapath (`42_multiplicative.md` R182). -/
def reduceAcc (z : List Nat) : List Word := subWords ((reduceDigits z).map (BitVec.ofNat 64)) modulusWords

/-- The limbs of a field register as numbers. -/
def limbNats (v : FieldReg) : List Nat := (limbWords v).map BitVec.toNat

/-- The montgomery_multiplier unit: product, then reduction (`42_multiplicative.md` R180, R182, R185). -/
def mmulWords (a b : FieldReg) : List Word := reduceAcc (productAcc (limbNats a) (limbNats b))

/-- The exponentiation loop as the source describes it, over MULF, the last squaring skipped (`42_multiplicative.md`
R189, C1). -/
def powUnit : Nat → Nat → Nat → Nat → Nat
  | 0, res, _, _ => res
  | fuel + 1, res, base, e =>
    if e = 0 then res
    else
      let res' := if e % 2 = 1 then mulF res base else res
      let e' := e / 2
      powUnit fuel res' (if e' ≠ 0 then mulF base base else base) e'

/-- The variables of Phase I (`43_inversion.md` R222). -/
structure GcdVars where
  u : Nat
  v : Nat
  r : Nat
  s : Nat
  k : Nat
deriving DecidableEq, Repr

/-- One turn of Phase I's loop (`43_inversion.md` R222). -/
def gcdTurn (g : GcdVars) : GcdVars :=
  if g.u % 2 = 0 then { g with u := g.u / 2, s := 2 * g.s, k := g.k + 1 }
  else if g.v % 2 = 0 then { g with v := g.v / 2, r := 2 * g.r, k := g.k + 1 }
  else if g.v < g.u then { g with u := (g.u - g.v) / 2, r := g.r + g.s, s := 2 * g.s, k := g.k + 1 }
  else { g with v := (g.v - g.u) / 2, s := g.s + g.r, r := 2 * g.r, k := g.k + 1 }

/-- Phase I's loop: while v > 0, for at most `fuel` turns (`43_inversion.md` R222). -/
def gcdLoop : Nat → GcdVars → GcdVars
  | 0, g => g
  | fuel + 1, g => if g.v = 0 then g else gcdLoop fuel (gcdTurn g)

/-- The variables after Phase I's loop; R224 bounds its turns by 506 (`43_inversion.md` R222, R224). -/
def phaseOne (a : Nat) : GcdVars := gcdLoop 506 { u := L, v := a, r := 0, s := 1, k := 0 }

/-- r_out: the final conditional correction of r, and L - r (`43_inversion.md` R222). -/
def phaseOneOut (g : GcdVars) : Nat := L - (if L ≤ g.r then g.r - L else g.r)

/-- Phase II: fold down an excess of k over 260, then one Montgomery product with a power of two (`43_inversion.md`
R223, C5). -/
def phaseTwo (rOut k : Nat) : Nat :=
  if 260 < k then mred (mred (rOut * 1) * 2 ^ (260 - (k - 260))) else mred (rOut * 2 ^ (260 - k))

/-- The binary_gcd_inverse unit (`43_inversion.md` R222, R223). -/
def gcdInverse (a : Nat) : Nat := phaseTwo (phaseOneOut (phaseOne a)) (phaseOne a).k

end Sys2Proof.Machine
end

