-- ==== Sys2Proof/Safety.lean ====
section
/-! DEFINITION. What counts as a good state and a good step, in the terms the claims use: the invariant of the
reachable states, and the four effects a command can have. -/

namespace Sys2Proof.Machine

/-- The invariant of the reachable states: DBUF is in canonical form; FCODE is one of the codes 0 to 4
(`60_exceptions.md` R300); FAULT is set iff FCODE records a fault (R300, R301, R306); no command runs while FAULT is
set (R305); and only a running command has latency left (`70_reset_and_hazards.md` R350). -/
abbrev State.Inv (s : State) : Prop :=
  s.dbuf.wf = true ∧ s.fcode.toNat ≤ 4 ∧ (s.fault = true ↔ s.fcode ≠ 0) ∧ (s.busy = true → s.fault = false) ∧
    (s.busy = false → s.env.latLeft = 0)

/-- Every field register is canonical (`00_scope.md` R7, `10_state.md` R21). -/
abbrev State.AllCanonical (s : State) : Prop := ∀ r : Reg, s.x r < L

/-- What every fault-free completion does and leaves: CMDCNT counts it, BUSY ends, and PEND, FAULT, FCODE, OVR and the
outside world are unchanged (`70_reset_and_hazards.md` R350, `10_state.md` R30). -/
structure Completed (s t : State) : Prop where
  cmdcnt : t.cmdcnt = s.cmdcnt + 1
  busy : t.busy = false
  pend : t.pend = s.pend
  fault : t.fault = s.fault
  fcode : t.fcode = s.fcode
  ovr : t.ovr = s.ovr
  env : t.env = s.env

/-- Every field register reads as before. -/
abbrev SameRegs (s t : State) : Prop := ∀ r : Reg, t.x r = s.x r

/-- Every byte of DBUF reads as before. -/
abbrev SameBytes (s t : State) : Prop := ∀ k : Nat, t.dbuf.read k = s.dbuf.read k

/-- The command completed and its only effect is FR[rd] <- v. -/
structure WritesReg (s t : State) (rd : Reg) (v : Nat) : Prop where
  completed : Completed s t
  result : t.x rd = v
  others : ∀ r : Reg, r ≠ rd → t.x r = s.x r
  cf : t.cf = s.cf
  vf : t.vf = s.vf
  bytes : SameBytes s t

/-- The command completed and its only effect is CF <- b. -/
structure WritesCf (s t : State) (b : Bool) : Prop where
  completed : Completed s t
  result : t.cf = b
  regs : SameRegs s t
  vf : t.vf = s.vf
  bytes : SameBytes s t

/-- The command completed and its only effects are FR[rd] <- v and CF <- b. -/
structure WritesRegCf (s t : State) (rd : Reg) (v : Nat) (b : Bool) : Prop where
  completed : Completed s t
  result : t.x rd = v
  others : ∀ r : Reg, r ≠ rd → t.x r = s.x r
  cf : t.cf = b
  vf : t.vf = s.vf
  bytes : SameBytes s t

/-- The command completed and its only effects are FR[rd] <- v and VF <- b. -/
structure WritesRegVf (s t : State) (rd : Reg) (v : Nat) (b : Bool) : Prop where
  completed : Completed s t
  result : t.x rd = v
  others : ∀ r : Reg, r ≠ rd → t.x r = s.x r
  cf : t.cf = s.cf
  vf : t.vf = b
  bytes : SameBytes s t

/-- The command faulted: FAULT, FCODE and BUSY as `60_exceptions.md` R301 says, and nothing else changed. -/
structure Faulted (s t : State) (c : FaultCode) : Prop where
  fault : t.fault = true
  fcode : t.fcode = c.code
  busy : t.busy = false
  regs : SameRegs s t
  cf : t.cf = s.cf
  vf : t.vf = s.vf
  bytes : SameBytes s t
  cmdcnt : t.cmdcnt = s.cmdcnt
  ovr : t.ovr = s.ovr
  pend : t.pend = s.pend
  env : t.env = s.env

/-- Every architectural field reads as before: the event changed the outside world's fields at most. -/
structure SameArch (s t : State) : Prop where
  regs : SameRegs s t
  cf : t.cf = s.cf
  vf : t.vf = s.vf
  bytes : SameBytes s t
  busy : t.busy = s.busy
  pend : t.pend = s.pend
  fault : t.fault = s.fault
  fcode : t.fcode = s.fcode
  ovr : t.ovr = s.ovr
  cmdcnt : t.cmdcnt = s.cmdcnt

/-- Every architectural field has its value of `10_state.md` R38. -/
structure IsReset (t : State) : Prop where
  regs : ∀ r : Reg, t.x r = 0
  cf : t.cf = false
  vf : t.vf = false
  bytes : ∀ k : Nat, t.dbuf.read k = 0
  busy : t.busy = false
  pend : t.pend = 0
  fault : t.fault = false
  fcode : t.fcode = 0
  ovr : t.ovr = false
  cmdcnt : t.cmdcnt = 0

/-- The CMD value made of these fields decodes to this command (`30_encoding.md` R80, R87). -/
def EncodedAs (op : BitVec 8) (rd rs1 rs2 : Reg) (imm : Imm) (i : Instr) : Prop :=
  decode (cmdValue (commandWord op rd rs1 rs2 imm)) = .ok i

/-- DBUF_int as `00_scope.md` R8 writes it: the sum of DBUF[k] * 2^(8k). -/
def dbufSum (s : State) (first count : Nat) : Nat :=
  ((List.range count).map fun k => (s.dbuf.read (first + k)).toNat * 2 ^ (8 * k)).sum

/-- The square of some field element (`00_scope.md` R7). -/
def IsFieldSquare (x : Nat) : Prop := ∃ b : Nat, b * b % L = x

end Sys2Proof.Machine
end

