-- ==== Sys2Proof/WellFormed.lean ====
section
/-! DEFINITION. The immediates the encoding allows (`30_encoding.md` R81). Register numbers are in range by type. -/

namespace Sys2Proof

/-- The command has an encoding: its immediate is legal for its opcode (`30_encoding.md` R81, R84 condition 4).
TWOPOW with an exponent of 253 or more is well formed: it decodes, and faults when it executes (R84). -/
def Instr.wellFormed : Instr → Bool
  | .ldu _ imm => decide (imm.toNat ≤ 4)
  | .ldc _ imm => decide (imm.toNat ≤ 8)
  | .cfop imm => decide (imm.toNat ≤ 2)
  | .sqrt _ _ imm => decide (imm.toNat ≤ 1)
  | .ldb _ | .stb _ | .ldi _ _ | .mov _ _ | .csel _ _ _ | .cneg _ _ => true
  | .add _ _ _ | .sub _ _ _ | .neg _ _ | .halfw _ _ | .half _ _ => true
  | .iseven _ | .ispos _ | .eq _ _ => true
  | .mul _ _ _ | .sqr _ _ | .mmul _ _ _ | .msqr _ _ | .tomont _ _ | .frommont _ _ | .pow _ _ _ => true
  | .inv _ _ | .div _ _ _ | .leg _ | .sqrtr _ _ _ | .twopow _ _ => true

end Sys2Proof
end

