-- ==== Sys2Proof/Certificates/Slice0/Obligations.lean ====
section
/-! DEFINITION. The statements for the provers, from the numbered rules of spec/: the encoding, the step and the port,
the invariants, every command by its closed form, and the datapaths against the closed forms. -/

open Sys2Proof Sys2Proof.Machine

/-- The round trip of `30_encoding.md` R80, R82, R83 and R87, over all 30 commands. -/
def Obligations.DecodeOfEncodeIsTheCommand : Prop :=
  ∀ i : Instr, i.wellFormed = true → decode (cmdValue (encode i)) = .ok i

/-- Every word has exactly one meaning (`30_encoding.md` R85), in the direction from words to commands. -/
def Obligations.DecodedValueIsTheOnlyEncoding : Prop :=
  ∀ (w : Word) (i : Instr), decode w = .ok i → cmdValue (encode i) = w ∧ i.wellFormed = true

/-- The one format of `30_encoding.md` R80. -/
def Obligations.CommandWordHasTheStatedFields : Prop :=
  ∀ (op : BitVec 8) (rd rs1 rs2 : Reg) (imm : Imm),
    (cmdValue (commandWord op rd rs1 rs2 imm)).toNat =
      (op.toNat ||| (rd.val <<< 8) ||| (rs1.val <<< 12) ||| (rs2.val <<< 16) ||| (imm.toNat <<< 20)) ∧
    (cmdValue (commandWord op rd rs1 rs2 imm)).extractLsb 63 32 = 0 ∧
    opField (cmdValue (commandWord op rd rs1 rs2 imm)) = op ∧ rdField (cmdValue (commandWord op rd rs1 rs2 imm)) = rd ∧
    rs1Field (cmdValue (commandWord op rd rs1 rs2 imm)) = rs1 ∧ rs2Field (cmdValue (commandWord op rd rs1 rs2 imm)) = rs2 ∧
    immField (cmdValue (commandWord op rd rs1 rs2 imm)) = imm

/-- The conditions of `30_encoding.md` R84 on the raw bits, with the opcodes of R82 and the forms of R83 written out.
-/
def Obligations.IllegalExactlyWhenStated : Prop :=
  ∀ w : Word, (∃ why, decode w = .illegal why) ↔
    (w.toNat / 2 ^ 32 ≠ 0 ∨
      w.toNat % 256 ∉ [0x01, 0x02, 0x03, 0x04, 0x05, 0x06, 0x07, 0x08, 0x09, 0x10, 0x11, 0x12, 0x13, 0x14, 0x15, 0x16, 0x17,
        0x20, 0x21, 0x22, 0x23, 0x24, 0x25, 0x26, 0x30, 0x31, 0x40, 0x41, 0x42, 0x43] ∨
      (w.toNat / 2 ^ 8 % 16 ≠ 0 ∧ w.toNat % 256 ∈ [0x02, 0x09, 0x15, 0x16, 0x17, 0x40]) ∨
      (w.toNat / 2 ^ 12 % 16 ≠ 0 ∧ w.toNat % 256 ∈ [0x01, 0x03, 0x04, 0x05, 0x09, 0x43]) ∨
      (w.toNat / 2 ^ 16 % 16 ≠ 0 ∧ w.toNat % 256 ∉ [0x07, 0x10, 0x11, 0x17, 0x20, 0x22, 0x26, 0x31, 0x42]) ∨
      (w.toNat / 2 ^ 20 % 4096 ≠ 0 ∧ w.toNat % 256 ∉ [0x03, 0x04, 0x05, 0x09, 0x41, 0x43]) ∨
      (w.toNat % 256 = 0x03 ∧ 4 < w.toNat / 2 ^ 20 % 4096) ∨ (w.toNat % 256 = 0x05 ∧ 8 < w.toNat / 2 ^ 20 % 4096) ∨
      (w.toNat % 256 = 0x09 ∧ 2 < w.toNat / 2 ^ 20 % 4096) ∨ (w.toNat % 256 = 0x41 ∧ 1 < w.toNat / 2 ^ 20 % 4096))

/-- `30_encoding.md` R84, at the step that completes the command. -/
def Obligations.IllegalCommandFaultsWithIllegal : Prop :=
  (∀ (s : State) (w : Word), s.busy = true → s.env.latLeft = 0 → s.pend = w →
    (w.toNat / 2 ^ 32 ≠ 0 ∨
      w.toNat % 256 ∉ [0x01, 0x02, 0x03, 0x04, 0x05, 0x06, 0x07, 0x08, 0x09, 0x10, 0x11, 0x12, 0x13, 0x14, 0x15, 0x16, 0x17,
        0x20, 0x21, 0x22, 0x23, 0x24, 0x25, 0x26, 0x30, 0x31, 0x40, 0x41, 0x42, 0x43] ∨
      (w.toNat / 2 ^ 8 % 16 ≠ 0 ∧ w.toNat % 256 ∈ [0x02, 0x09, 0x15, 0x16, 0x17, 0x40]) ∨
      (w.toNat / 2 ^ 12 % 16 ≠ 0 ∧ w.toNat % 256 ∈ [0x01, 0x03, 0x04, 0x05, 0x09, 0x43]) ∨
      (w.toNat / 2 ^ 16 % 16 ≠ 0 ∧ w.toNat % 256 ∉ [0x07, 0x10, 0x11, 0x17, 0x20, 0x22, 0x26, 0x31, 0x42]) ∨
      (w.toNat / 2 ^ 20 % 4096 ≠ 0 ∧ w.toNat % 256 ∉ [0x03, 0x04, 0x05, 0x09, 0x41, 0x43]) ∨
      (w.toNat % 256 = 0x03 ∧ 4 < w.toNat / 2 ^ 20 % 4096) ∨ (w.toNat % 256 = 0x05 ∧ 8 < w.toNat / 2 ^ 20 % 4096) ∨
      (w.toNat % 256 = 0x09 ∧ 2 < w.toNat / 2 ^ 20 % 4096) ∨ (w.toNat % 256 = 0x41 ∧ 1 < w.toNat / 2 ^ 20 % 4096)) →
    ∃ t, step s = .next t ∧ Faulted s t .illegal) ∧
  (∀ (s : State) (rd : Reg) (imm : Imm), 253 ≤ imm.toNat → EncodedAs 0x43 rd 0 0 imm (.twopow rd imm) ∧
    (s.busy = true → s.env.latLeft = 0 → s.pend = cmdValue (commandWord 0x43 rd 0 0 imm) →
      ∃ t, step s = .next t ∧ Faulted s t .kRange))

/-- Words of `30_encoding.md` R95 and `95_test_vectors.md` section 2. -/
def Obligations.AssemblerExampleWordsDecode : Prop :=
  decode 0x00000301 = .ok (.ldb 3) ∧ decode 0x00002002 = .ok (.stb 2) ∧ decode 0x00021017 = .ok (.eq 1 2) ∧
    decode 0x00001412 = .ok (.neg 4 1) ∧ decode 0x00010210 = .ok (.add 2 0 1) ∧ decode 0x01100004 = .ok (.ldi 0 17) ∧
    decode 0x00300103 = .ok (.ldu 1 3) ∧ decode 0x00400505 = .ok (.ldc 5 4) ∧ decode 0x00100141 = .ok (.sqrt 1 0 1) ∧
    decode 0x09d00143 = .ok (.twopow 1 157)

/-- The completion of `70_reset_and_hazards.md` R350. That the latency left is a field of the model is log 3. -/
def Obligations.StepRunsTheDecodedCommand : Prop :=
  ∀ (s : State) (i : Instr), s.busy = true → s.env.latLeft = 0 → decode s.pend = .ok i → step s = exec i s

/-- The acceptance of `70_reset_and_hazards.md` R350; the latency draw is the OPEN parameter of R360 (log 3). -/
def Obligations.CmdWriteIsAccepted : Prop :=
  ∀ (s : State) (v : Word) (rest : List HostEvent), s.busy = false → s.fault = false →
    s.env.inputs = .write (Config.base + 0x008) 64 v :: rest →
    ∃ t, step s = .next t ∧ t.pend = v ∧ t.busy = true ∧ SameRegs s t ∧ t.cf = s.cf ∧ t.vf = s.vf ∧ SameBytes s t ∧
      t.fault = s.fault ∧ t.fcode = s.fcode ∧ t.ovr = s.ovr ∧ t.cmdcnt = s.cmdcnt ∧ t.env.inputs = rest ∧
      t.env.latLeft = Config.latency s.env.draws ∧ t.env.draws = s.env.draws + 1

/-- The dropped writes of `70_reset_and_hazards.md` R351. -/
def Obligations.DroppedWritesOnlySetOverrun : Prop :=
  ∀ (s : State) (off : Nat) (v : Word) (rest : List HostEvent), s.ready = false →
    ((off = 0x008 ∧ (s.busy = true ∨ s.fault = true)) ∨ (off ∈ [0x040, 0x048, 0x050, 0x058] ∧ s.busy = true)) →
    s.env.inputs = .write (Config.base + off) 64 v :: rest →
    ∃ t, step s = .next t ∧ t.ovr = true ∧ SameArch { s with ovr := true } t ∧ t.env.inputs = rest

/-- `20_memory.md` R52 and R54: everything in the window but CMD, CTRL and DBUF ignores writes. -/
def Obligations.IgnoredWritesChangeNothing : Prop :=
  ∀ (s : State) (off : Nat) (v : Word) (rest : List HostEvent), s.ready = false → off < 0x1000 → off % 8 = 0 →
    off ∉ [0x008, 0x018, 0x040, 0x048, 0x050, 0x058] → s.env.inputs = .write (Config.base + off) 64 v :: rest →
    ∃ t, step s = .next t ∧ SameArch s t ∧ t.env.inputs = rest

/-- `20_memory.md` R53. -/
def Obligations.BusErrorsChangeNothing : Prop :=
  ∀ (s : State) (off bits : Nat) (v : Word) (rest : List HostEvent), s.ready = false → off < 0x1000 →
    (bits ≠ 64 ∨ off % 8 ≠ 0) →
    (s.env.inputs = .read (Config.base + off) bits :: rest ∨ s.env.inputs = .write (Config.base + off) bits v :: rest) →
    ∃ t, step s = .next t ∧ SameArch s t ∧ t.env.resp = .busError ∧ t.env.inputs = rest

/-- The address map of `20_memory.md` R51, read side, with `10_state.md` R27 and R30 to R32. -/
def Obligations.PortReadsReturnTheRegisterMap : Prop :=
  ∀ (s : State) (off : Nat) (rest : List HostEvent), s.ready = false → off < 0x1000 → off % 8 = 0 →
    s.env.inputs = .read (Config.base + off) 64 :: rest →
    ∃ (t : State) (v : Word), step s = .next t ∧ SameArch s t ∧ t.env.inputs = rest ∧ t.env.resp = .data v ∧
      (off = 0x000 → v = 1) ∧ (off = 0x008 → v = 0) ∧
      (off = 0x010 → v.toNat = s.busy.toNat + 2 * s.fault.toNat + 4 * s.ovr.toNat + 16 * s.fcode.toNat +
        256 * s.cf.toNat + 512 * s.vf.toNat) ∧
      (off = 0x018 → v = 0) ∧ (off = 0x020 → v = s.cmdcnt) ∧ (0x028 ≤ off ∧ off < 0x040 → v = 0) ∧
      (∀ i, i < 4 → off = 0x040 + 8 * i → v.toNat = dbufSum s (8 * i) 8) ∧ (0x060 ≤ off ∧ off < 0x100 → v = 0) ∧
      (∀ (n : Reg) (j : Nat), j < 5 → off = 0x100 + 0x40 * n.val + 8 * j → v.toNat = s.x n / 2 ^ (52 * j) % 2 ^ 52) ∧
      (∀ n j : Nat, n < 16 → 5 ≤ j → j < 8 → off = 0x100 + 0x40 * n + 8 * j → v = 0) ∧ (0x500 ≤ off → v = 0)

/-- A host write to DBUFi (`20_memory.md` R51), its byte order (R55), not dropped while FAULT = 1 (R351). -/
def Obligations.DbufWriteStoresEightBytes : Prop :=
  ∀ (s : State) (i : Nat) (v : Word) (rest : List HostEvent), s.busy = false → s.dbuf.wf = true → i < 4 →
    s.env.inputs = .write (Config.base + (0x040 + 8 * i)) 64 v :: rest →
    ∃ t, step s = .next t ∧ (∀ k, k < 8 → t.dbuf.read (8 * i + k) = v.extractLsb' (8 * k) 8) ∧
      (∀ a, (a < 8 * i ∨ 8 * i + 8 ≤ a) → t.dbuf.read a = s.dbuf.read a) ∧ t.dbuf.wf = true ∧
      SameArch { s with dbuf := t.dbuf } t ∧ t.env.inputs = rest

/-- `70_reset_and_hazards.md` R340 and R341; the latency field and the event list are the model's own (logs 3, 4, 17).
-/
def Obligations.SoftResetGivesTheResetState : Prop :=
  ∀ (s : State) (v : Word) (rest : List HostEvent), s.ready = false →
    ((s.env.inputs = .write (Config.base + 0x018) 64 v :: rest ∧ v.getLsbD 0 = true) ∨
      s.env.inputs = .powerOnReset :: rest) →
    ∃ t, step s = .next t ∧ IsReset t ∧ t.env.latLeft = 0 ∧ t.env.inputs = rest

/-- FCLR (`60_exceptions.md` R306) and the write of 0 (`10_state.md` R28). -/
def Obligations.FaultClearChangesOnlyFaultFields : Prop :=
  ∀ (s : State) (v : Word) (rest : List HostEvent), s.ready = false →
    s.env.inputs = .write (Config.base + 0x018) 64 v :: rest → v.getLsbD 0 = false →
    ∃ t, step s = .next t ∧ t.env.inputs = rest ∧
      (v.getLsbD 1 = true → SameArch { s with fault := false, fcode := 0, ovr := false } t) ∧
      (v.getLsbD 1 = false → SameArch s t)

/-- Commit in one step (`20_memory.md` R61), no host write to results (R52), no change to an accepted command (R64).
-/
def Obligations.OutsideEventsNeverTouchResults : Prop :=
  ∀ s t : State, s.ready = false → step s = .next t →
    IsReset t ∨
    (SameRegs s t ∧ t.cf = s.cf ∧ t.vf = s.vf ∧ t.cmdcnt = s.cmdcnt ∧
      (s.busy = true → t.busy = true ∧ t.pend = s.pend ∧ SameBytes s t))

/-- Every command terminates (`70_reset_and_hazards.md` R360); an idle block keeps its state (`60_exceptions.md`
R325). -/
def Obligations.RunningCommandCompletesInBoundedSteps : Prop :=
  (∀ s : State, s.busy = true → s.env.inputs = [] →
    Sys2Proof.core.run s.env.latLeft s = .next { s with env := { s.env with latLeft := 0 } } ∧
    step { s with env := { s.env with latLeft := 0 } } = completePending { s with env := { s.env with latLeft := 0 } }) ∧
  (∀ s : State, s.busy = false → s.env.inputs = [] → s.env.latLeft = 0 → step s = .next s)

/-- The model's choice (log 2): `20_memory.md` R50 gives the block no other address. -/
def Obligations.AccessOutsideTheWindowStops : Prop :=
  ∀ (s : State) (addr bits : Nat) (v : Word) (rest : List HostEvent), s.ready = false →
    ¬ (Config.base ≤ addr ∧ addr < Config.base + 4096) →
    (s.env.inputs = .read addr bits :: rest ∨ s.env.inputs = .write addr bits v :: rest) →
    step s = .fault (.outsideWindow addr)

/-- The reset state of `10_state.md` R38, with the constants of R33 and R34. -/
def Obligations.ResetStateIsTheStatedOne : Prop :=
  IsReset State.reset ∧ readPort (portReg 0x000) State.reset = 1 ∧
    K.minusOne = 7237005577332262213973186563042994240857116359379907606001950938285454250988 ∧
    L = 7237005577332262213973186563042994240857116359379907606001950938285454250989 ∧
    K.rr = 4185850391763183796333492317919282507600454137915443218209456916606550724923 ∧
    K.inv2 = 3618502788666131106986593281521497120428558179689953803000975469142727125495 ∧
    K.halfBound = 3618502788666131106986593281521497120428558179689953803000975469142727125494 ∧
    (K.sqrtM1 = 3034649101460298094273452163494570791663566989388331537498831373842135895065 ∨
      K.sqrtM1 = 4202356475871964119699734399548423449193549369991576068503119564443318355924) ∧
    K.montOne = 7237005577332262213973186563042994233755083008372585100823854863819240236781 ∧
    K.lFactor = 1439961107955227 ∧ K.tsZ = 2 ∧ K.tsS = 2 ∧
    K.tsQ = 1809251394333065553493296640760748560214279089844976901500487734571363562747

/-- The start of the invariant that every step keeps (`10_state.md` R38). DBUF's canonical form and the latency field
are the model's (logs 3 and 7). -/
def Obligations.ResetMeetsTheInvariant : Prop :=
  State.reset.Inv

/-- The inductive invariant: fault codes (`60_exceptions.md` R300), FAULT and FCODE together (R301, R306), no command
accepted or running while FAULT = 1 (R305). DBUF's canonical form and the latency field are the model's (logs 3 and
7). -/
def Obligations.EveryStepKeepsTheInvariant : Prop :=
  ∀ s s' : State, s.Inv → step s = .next s' → s'.Inv

/-- The canonical-form invariant of `10_state.md` R21: it holds for every command result whose operands are canonical.
-/
def Obligations.CanonicalRegistersStayCanonical : Prop :=
  ∀ (i : Instr) (s t : State), (∀ rd, i ≠ .ldb rd) → (∀ rd, i ≠ .ldc rd 3) → s.AllCanonical → exec i s = .next t →
    t.AllCanonical

/-- Precise faults (`60_exceptions.md` R301) and the completion of `70_reset_and_hazards.md` R350. -/
def Obligations.EveryCommandCompletesOrFaultsPrecisely : Prop :=
  ∀ (i : Instr) (s : State), ∃ t, exec i s = .next t ∧ (Completed s t ∨ ∃ c, Faulted s t c)

/-- The writes column of `30_encoding.md` R82 and `10_state.md` R22 to R24, over all commands. -/
def Obligations.OnlyTheStatedCommandsWriteEachPart : Prop :=
  ∀ (i : Instr) (s t : State), exec i s = .next t →
    (∀ r : Reg, (r ≠ i.operands.rd ∨ i.op ∈ [.stb, .cfop, .iseven, .ispos, .eq, .leg]) → t.x r = s.x r) ∧
    (i.op ∉ [.iseven, .ispos, .eq, .leg, .sqrtr, .cfop] → t.cf = s.cf) ∧ (i.op ≠ .sqrt → t.vf = s.vf) ∧
    (i.op ≠ .stb → SameBytes s t)

/-- LDB (`40_data_movement.md` R100). -/
def Obligations.LdbLoadsTheLow253Bits : Prop :=
  ∀ (s : State) (rd : Reg), EncodedAs 0x01 rd 0 0 0 (.ldb rd) ∧
    ∃ t, exec (.ldb rd) s = .next t ∧ WritesReg s t rd (dbufSum s 0 32 % 2 ^ 253)

/-- STB (`40_data_movement.md` R101). The canonical form of DBUF is the model's (log 7) and is an invariant of its
own. -/
def Obligations.StbStoresTheLow256Bits : Prop :=
  ∀ (s : State) (rs1 : Reg), s.dbuf.wf = true → EncodedAs 0x02 0 rs1 0 0 (.stb rs1) ∧
    ∃ t, exec (.stb rs1) s = .next t ∧ Completed s t ∧
      (∀ k, k < 32 → (t.dbuf.read k).toNat = s.x rs1 / 2 ^ (8 * k) % 256) ∧
      (∀ k, 32 ≤ k → t.dbuf.read k = s.dbuf.read k) ∧ t.dbuf.wf = true ∧ SameRegs s t ∧ t.cf = s.cf ∧ t.vf = s.vf

/-- LDU (`40_data_movement.md` R102). -/
def Obligations.LduLoadsTheLowWBits : Prop :=
  ∀ (s : State) (rd : Reg) (imm : Imm),
    (imm.toNat ≤ 4 → EncodedAs 0x03 rd 0 0 imm (.ldu rd imm) ∧
      ∃ t, exec (.ldu rd imm) s = .next t ∧ WritesReg s t rd (dbufSum s 0 32 % 2 ^ (8 * 2 ^ imm.toNat))) ∧
    (4 < imm.toNat → ∃ why, decode (cmdValue (commandWord 0x03 rd 0 0 imm)) = .illegal why)

/-- LDI (`40_data_movement.md` R103). -/
def Obligations.LdiLoadsTheImmediate : Prop :=
  ∀ (s : State) (rd : Reg) (imm : Imm), EncodedAs 0x04 rd 0 0 imm (.ldi rd imm) ∧
    ∃ t, exec (.ldi rd imm) s = .next t ∧ WritesReg s t rd imm.toNat

/-- LDC (`40_data_movement.md` R104) with the formulas of `10_state.md` R33; selector 7 is the OPEN parameter (log 1).
-/
def Obligations.LdcLoadsTheSelectedConstant : Prop :=
  ∀ (s : State) (rd : Reg) (imm : Imm),
    (imm.toNat ≤ 8 → EncodedAs 0x05 rd 0 0 imm (.ldc rd imm) ∧
      ∃ t v, exec (.ldc rd imm) s = .next t ∧ WritesReg s t rd v ∧
        (imm.toNat = 0 → v = 0) ∧ (imm.toNat = 1 → v = 1) ∧ (imm.toNat = 2 → v = L - 1) ∧ (imm.toNat = 3 → v = L) ∧
        (imm.toNat = 4 → v = 2 ^ 520 % L) ∧ (imm.toNat = 5 → v = (L + 1) / 2) ∧ (imm.toNat = 6 → v = (L - 1) / 2) ∧
        (imm.toNat = 7 → (v = K.sqrtM1Pos ∨ v = K.sqrtM1Neg) ∧ v = K.sqrtM1 ∧ v * v % L = L - 1) ∧
        (imm.toNat = 8 → v = 2 ^ 260 % L)) ∧
    (8 < imm.toNat → ∃ why, decode (cmdValue (commandWord 0x05 rd 0 0 imm)) = .illegal why)

/-- MOV (`40_data_movement.md` R105). -/
def Obligations.MovCopiesTheRegister : Prop :=
  ∀ (s : State) (rd rs1 : Reg), EncodedAs 0x06 rd rs1 0 0 (.mov rd rs1) ∧
    ∃ t, exec (.mov rd rs1) s = .next t ∧ WritesReg s t rd (s.x rs1)

/-- CSEL and CNEG (`40_data_movement.md` R106, R107); the timing clause of R106 is out (log 21). -/
def Obligations.ConditionalCommandsFollowTheChoiceFlag : Prop :=
  ∀ (s : State) (rd rs1 rs2 : Reg),
    (EncodedAs 0x07 rd rs1 rs2 0 (.csel rd rs1 rs2) ∧
      ∃ t, exec (.csel rd rs1 rs2) s = .next t ∧ WritesReg s t rd (if s.cf = true then s.x rs2 else s.x rs1)) ∧
    (EncodedAs 0x08 rd rs1 0 0 (.cneg rd rs1) ∧
      ∃ t, exec (.cneg rd rs1) s = .next t ∧
        WritesReg s t rd (if s.cf = true then (if s.x rs1 = 0 then 0 else if s.x rs1 ≤ L then L - s.x rs1 else 2 ^ 260 + L - s.x rs1) else s.x rs1))

/-- CFOP (`40_data_movement.md` R108). -/
def Obligations.CfopClearsSetsOrInvertsTheFlag : Prop :=
  (∀ (s : State) (imm : Imm),
    (imm.toNat ≤ 2 → EncodedAs 0x09 0 0 0 imm (.cfop imm) ∧
      ∃ t, exec (.cfop imm) s = .next t ∧
        WritesCf s t (if imm.toNat = 0 then false else if imm.toNat = 1 then true else !s.cf)) ∧
    (2 < imm.toNat → ∃ why, decode (cmdValue (commandWord 0x09 0 0 0 imm)) = .illegal why)) ∧
  decode 0x00200009 = .ok (.cfop 2)

/-- ADD (`41_linear.md` R140, R153). -/
def Obligations.AddWritesTheConditionallyReducedSum : Prop :=
  ∀ (s : State) (rd rs1 rs2 : Reg), EncodedAs 0x10 rd rs1 rs2 0 (.add rd rs1 rs2) ∧
    ∃ t, exec (.add rd rs1 rs2) s = .next t ∧
      WritesReg s t rd (if L ≤ (s.x rs1 + s.x rs2) % 2 ^ 260 then (s.x rs1 + s.x rs2) % 2 ^ 260 - L
        else (s.x rs1 + s.x rs2) % 2 ^ 260) ∧
      (s.x rs1 < L → s.x rs2 < L → t.x rd = (s.x rs1 + s.x rs2) % L)

/-- SUB (`41_linear.md` R141, R153), the difference taken over the integers. -/
def Obligations.SubWritesTheBorrowCorrectedDifference : Prop :=
  ∀ (s : State) (rd rs1 rs2 : Reg), EncodedAs 0x11 rd rs1 rs2 0 (.sub rd rs1 rs2) ∧
    ∃ t, exec (.sub rd rs1 rs2) s = .next t ∧
      WritesReg s t rd (if s.x rs2 ≤ s.x rs1 then s.x rs1 - s.x rs2
        else (((s.x rs1 : Int) - (s.x rs2 : Int) + (L : Int)) % (2 ^ 260 : Int)).toNat) ∧
      (s.x rs1 < L → s.x rs2 < L → (t.x rd : Int) = ((s.x rs1 : Int) - (s.x rs2 : Int)) % (L : Int))

/-- NEG (`41_linear.md` R142). -/
def Obligations.NegWritesTheNegation : Prop :=
  ∀ (s : State) (rd rs1 : Reg), EncodedAs 0x12 rd rs1 0 0 (.neg rd rs1) ∧
    ∃ t, exec (.neg rd rs1) s = .next t ∧ WritesReg s t rd (if s.x rs1 = 0 then 0 else if s.x rs1 ≤ L then L - s.x rs1 else 2 ^ 260 + L - s.x rs1) ∧
      (s.x rs1 < L → t.x rd < L ∧ (s.x rs1 + t.x rd) % L = 0)

/-- HALFW and HALF (`41_linear.md` R143, R144). -/
def Obligations.HalvingCommandsHalve : Prop :=
  ∀ (s : State) (rd rs1 : Reg),
    (EncodedAs 0x13 rd rs1 0 0 (.halfw rd rs1) ∧
      ∃ t, exec (.halfw rd rs1) s = .next t ∧ WritesReg s t rd (s.x rs1 >>> 1)) ∧
    (EncodedAs 0x14 rd rs1 0 0 (.half rd rs1) ∧
      ∃ t, exec (.half rd rs1) s = .next t ∧ WritesReg s t rd (s.x rs1 * ((L + 1) / 2) % L) ∧
        t.x rd < L ∧ 2 * t.x rd % L = s.x rs1 % L)

/-- ISEVEN and EQ (`41_linear.md` R145, R147). -/
def Obligations.EvennessAndEqualitySetTheChoiceFlag : Prop :=
  ∀ (s : State) (rs1 rs2 : Reg),
    (EncodedAs 0x15 0 rs1 0 0 (.iseven rs1) ∧
      ∃ t, exec (.iseven rs1) s = .next t ∧ WritesCf s t (decide (s.x rs1 % 2 = 0))) ∧
    (EncodedAs 0x17 0 rs1 rs2 0 (.eq rs1 rs2) ∧
      ∃ t, exec (.eq rs1 rs2) s = .next t ∧ WritesCf s t (decide (s.x rs1 = s.x rs2)))

/-- ISPOS (`41_linear.md` R146). -/
def Obligations.IsposTestsCanonicalOperandsOnly : Prop :=
  ∀ (s : State) (rs1 : Reg), EncodedAs 0x16 0 rs1 0 0 (.ispos rs1) ∧
    (s.x rs1 < L → ∃ t, exec (.ispos rs1) s = .next t ∧ WritesCf s t (decide (s.x rs1 ≤ (L - 1) / 2))) ∧
    (L ≤ s.x rs1 → ∃ t, exec (.ispos rs1) s = .next t ∧ Faulted s t .nonCanon)

/-- MUL and SQR by their closed form (`42_multiplicative.md` R183, R184). -/
def Obligations.MulAndSqrWriteTheProductModL : Prop :=
  ∀ (s : State) (rd rs1 rs2 : Reg),
    (EncodedAs 0x20 rd rs1 rs2 0 (.mul rd rs1 rs2) ∧
      ∃ t, exec (.mul rd rs1 rs2) s = .next t ∧ WritesReg s t rd (s.x rs1 * s.x rs2 % L)) ∧
    (EncodedAs 0x21 rd rs1 0 0 (.sqr rd rs1) ∧
      ∃ t, exec (.sqr rd rs1) s = .next t ∧ WritesReg s t rd (s.x rs1 * s.x rs1 % L))

/-- MMUL and MSQR by R182's definition of MRED (`42_multiplicative.md` R185, R186). -/
def Obligations.MontgomeryProductsAreOneReduction : Prop :=
  ∀ (s : State) (rd rs1 rs2 : Reg),
    (EncodedAs 0x22 rd rs1 rs2 0 (.mmul rd rs1 rs2) ∧
      ∃ t, exec (.mmul rd rs1 rs2) s = .next t ∧
        ∃ N, N < 2 ^ 260 ∧ (s.x rs1 * s.x rs2 + N * L) % 2 ^ 260 = 0 ∧
          WritesReg s t rd (if L ≤ (s.x rs1 * s.x rs2 + N * L) / 2 ^ 260 then (s.x rs1 * s.x rs2 + N * L) / 2 ^ 260 - L
            else (s.x rs1 * s.x rs2 + N * L) / 2 ^ 260) ∧
          (s.x rs1 * s.x rs2 < L * 2 ^ 260 → t.x rd < L ∧ t.x rd * 2 ^ 260 % L = s.x rs1 * s.x rs2 % L)) ∧
    (EncodedAs 0x23 rd rs1 0 0 (.msqr rd rs1) ∧
      ∃ t, exec (.msqr rd rs1) s = .next t ∧
        ∃ N, N < 2 ^ 260 ∧ (s.x rs1 * s.x rs1 + N * L) % 2 ^ 260 = 0 ∧
          WritesReg s t rd (if L ≤ (s.x rs1 * s.x rs1 + N * L) / 2 ^ 260 then (s.x rs1 * s.x rs1 + N * L) / 2 ^ 260 - L
            else (s.x rs1 * s.x rs1 + N * L) / 2 ^ 260) ∧
          (s.x rs1 * s.x rs1 < L * 2 ^ 260 → t.x rd < L ∧ t.x rd * 2 ^ 260 % L = s.x rs1 * s.x rs1 % L))

/-- TOMONT and FROMMONT by their closed forms (`42_multiplicative.md` R187, R188). -/
def Obligations.MontgomeryConversionsAreExact : Prop :=
  ∀ (s : State) (rd rs1 : Reg),
    (EncodedAs 0x24 rd rs1 0 0 (.tomont rd rs1) ∧
      ∃ t, exec (.tomont rd rs1) s = .next t ∧ WritesReg s t rd (s.x rs1 * 2 ^ 260 % L)) ∧
    (EncodedAs 0x25 rd rs1 0 0 (.frommont rd rs1) ∧
      ∃ t v, exec (.frommont rd rs1) s = .next t ∧ WritesReg s t rd v ∧ v < L ∧ v * 2 ^ 260 % L = s.x rs1 % L ∧
        ∀ v', v' < L → v' * 2 ^ 260 % L = s.x rs1 % L → v' = v)

/-- POW by its closed form (`42_multiplicative.md` R189). -/
def Obligations.PowWritesThePowerModL : Prop :=
  ∀ (s : State) (rd rs1 rs2 : Reg), EncodedAs 0x26 rd rs1 rs2 0 (.pow rd rs1 rs2) ∧
    ∃ t, exec (.pow rd rs1 rs2) s = .next t ∧
      WritesReg s t rd (if s.x rs2 = 0 then 1 else s.x rs1 ^ s.x rs2 % L)

/-- The multiplicative laws of `42_multiplicative.md` R190. -/
def Obligations.MultiplicativeLawsHold : Prop :=
  (∀ a b : Nat, a < 2 ^ 260 → b < 2 ^ 260 → mulF a b = a * b % L ∧ mulF b a = mulF a b ∧ mulF a b < L) ∧
  (∀ (s t : State) (rd rs1 rs2 : Reg), (exec (.mul rd rs1 rs2) s = .next t ∨ exec (.sqr rd rs1) s = .next t) → t.x rd < L) ∧
  (∀ (s t : State) (rd rs1 rs2 : Reg), s.x rs1 < 2 ^ 253 → s.x rs2 < 2 ^ 253 →
    (exec (.mmul rd rs1 rs2) s = .next t ∨ exec (.msqr rd rs1) s = .next t) → t.x rd < L) ∧
  (∀ x : Nat, x < L → mulF x 0 = 0 ∧ mulF x 1 = x ∧ (0 < x → mulF x (invL x) = 1))

/-- INV (`43_inversion.md` R220) by the definition of inv_L (`00_scope.md` R7). -/
def Obligations.InvWritesTheInverseOrFaults : Prop :=
  ∀ (s : State) (rd rs1 : Reg), EncodedAs 0x30 rd rs1 0 0 (.inv rd rs1) ∧
    (0 < s.x rs1 → s.x rs1 < L → ∃ t b, exec (.inv rd rs1) s = .next t ∧ WritesReg s t rd b ∧ 1 ≤ b ∧ b < L ∧
      s.x rs1 * b % L = 1 ∧ ∀ b', 1 ≤ b' → b' < L → s.x rs1 * b' % L = 1 → b' = b) ∧
    (L ≤ s.x rs1 → ∃ t, exec (.inv rd rs1) s = .next t ∧ Faulted s t .nonCanon) ∧
    (s.x rs1 = 0 → ∃ t, exec (.inv rd rs1) s = .next t ∧ Faulted s t .zeroDivisor)

/-- DIV (`43_inversion.md` R221). -/
def Obligations.DivWritesTheQuotientOrFaults : Prop :=
  ∀ (s : State) (rd rs1 rs2 : Reg), EncodedAs 0x31 rd rs1 rs2 0 (.div rd rs1 rs2) ∧
    (0 < s.x rs2 → s.x rs2 < L → ∃ t b, exec (.div rd rs1 rs2) s = .next t ∧ 1 ≤ b ∧ b < L ∧ s.x rs2 * b % L = 1 ∧
      WritesReg s t rd (s.x rs1 * b % L)) ∧
    (L ≤ s.x rs2 → ∃ t, exec (.div rd rs1 rs2) s = .next t ∧ Faulted s t .nonCanon) ∧
    (s.x rs2 = 0 → ∃ t, exec (.div rd rs1 rs2) s = .next t ∧ Faulted s t .zeroDivisor)

/-- LEG (`44_residue_roots.md` R250) and the meaning of quadratic residue (`00_scope.md` R7). -/
def Obligations.LegSetsTheChoiceFlagToResidue : Prop :=
  ∀ (s : State) (rs1 : Reg), EncodedAs 0x40 0 rs1 0 0 (.leg rs1) ∧
    ∃ t, exec (.leg rs1) s = .next t ∧ WritesCf s t (decide (s.x rs1 ^ ((L - 1) / 2) % L = 1)) ∧
      (s.x rs1 % L ≠ 0 → (t.cf = true ↔ IsFieldSquare (s.x rs1 % L))) ∧ (s.x rs1 % L = 0 → t.cf = false)

/-- SQRT (`44_residue_roots.md` R251). -/
def Obligations.SqrtWritesTheRequestedRootOrNoValue : Prop :=
  ∀ (s : State) (rd rs1 : Reg) (imm : Imm),
    (imm.toNat ≤ 1 → EncodedAs 0x41 rd rs1 0 imm (.sqrt rd rs1 imm) ∧
      (s.x rs1 = 0 → ∃ t, exec (.sqrt rd rs1 imm) s = .next t ∧ WritesRegVf s t rd 0 true) ∧
      (0 < s.x rs1 → s.x rs1 < L → ¬ IsFieldSquare (s.x rs1) →
        ∃ t, exec (.sqrt rd rs1 imm) s = .next t ∧ WritesRegVf s t rd 0 false) ∧
      (0 < s.x rs1 → s.x rs1 < L → IsFieldSquare (s.x rs1) →
        ∃ t r, exec (.sqrt rd rs1 imm) s = .next t ∧ r ≤ (L - 1) / 2 ∧ r * r % L = s.x rs1 ∧
          WritesRegVf s t rd (if imm.toNat = 1 then r else L - r) true) ∧
      (L ≤ s.x rs1 → ∃ t, exec (.sqrt rd rs1 imm) s = .next t ∧ Faulted s t .nonCanon)) ∧
    (1 < imm.toNat → ∃ why, decode (cmdValue (commandWord 0x41 rd rs1 0 imm)) = .illegal why)

/-- SQRTR (`44_residue_roots.md` R252); SQRT_M1 is the OPEN parameter (log 1). -/
def Obligations.SqrtrWritesTheRatioRoot : Prop :=
  ∀ (s : State) (rd rs1 rs2 : Reg), EncodedAs 0x42 rd rs1 rs2 0 (.sqrtr rd rs1 rs2) ∧
    (s.x rs1 < L → s.x rs2 < L → s.x rs1 = 0 →
      ∃ t, exec (.sqrtr rd rs1 rs2) s = .next t ∧ WritesRegCf s t rd 0 true) ∧
    (s.x rs1 < L → s.x rs2 < L → s.x rs1 ≠ 0 → s.x rs2 = 0 →
      ∃ t, exec (.sqrtr rd rs1 rs2) s = .next t ∧ WritesRegCf s t rd 0 false) ∧
    (∀ w, s.x rs1 < L → s.x rs2 < L → s.x rs1 ≠ 0 → s.x rs2 ≠ 0 → w < L → w * s.x rs2 % L = s.x rs1 →
      ∃ t r, exec (.sqrtr rd rs1 rs2) s = .next t ∧ r ≤ (L - 1) / 2 ∧
        ((IsFieldSquare w ∧ r * r % L = w ∧ WritesRegCf s t rd r true) ∨
          (¬ IsFieldSquare w ∧ r * r % L = K.sqrtM1 * w % L ∧ WritesRegCf s t rd r false))) ∧
    ((L ≤ s.x rs1 ∨ L ≤ s.x rs2) → ∃ t, exec (.sqrtr rd rs1 rs2) s = .next t ∧ Faulted s t .nonCanon)

/-- TWOPOW (`44_residue_roots.md` R253). -/
def Obligations.TwopowWritesThePowerOfTwoOrFaults : Prop :=
  ∀ (s : State) (rd : Reg) (imm : Imm), EncodedAs 0x43 rd 0 0 imm (.twopow rd imm) ∧
    (imm.toNat < 253 → 2 ^ imm.toNat < L ∧ ∃ t, exec (.twopow rd imm) s = .next t ∧ WritesReg s t rd (2 ^ imm.toNat)) ∧
    (253 ≤ imm.toNat → ∃ t, exec (.twopow rd imm) s = .next t ∧ Faulted s t .kRange)

/-- The laws of `44_residue_roots.md` R255. -/
def Obligations.ResidueAndRootLawsHold : Prop :=
  (∀ (s l p n : State) (rd rs1 : Reg), s.x rs1 < L → exec (.leg rs1) s = .next l → exec (.sqrt rd rs1 1) s = .next p →
    exec (.sqrt rd rs1 0) s = .next n →
    (s.x rs1 ≠ 0 → ((l.cf = true ↔ p.vf = true) ∧ (l.cf = true ↔ n.vf = true))) ∧
    (p.vf = true → mulF (p.x rd) (p.x rd) = s.x rs1) ∧ (n.vf = true → mulF (n.x rd) (n.x rd) = s.x rs1) ∧
    (p.vf = true → (p.x rd + n.x rd) % L = 0 ∧ p.x rd ≤ K.halfBound)) ∧
  (∀ (s t : State) (rd rs1 rs2 : Reg), s.x rs1 < L → 0 < s.x rs2 → s.x rs2 < L → exec (.sqrtr rd rs1 rs2) s = .next t →
    (t.cf = true ↔ (s.x rs1 = 0 ∨ ∃ w, w < L ∧ w ≠ 0 ∧ w * s.x rs2 % L = s.x rs1 ∧ IsFieldSquare w)) ∧
    (t.cf = true → t.x rd * t.x rd * s.x rs2 % L = s.x rs1) ∧
    (t.cf = false → s.x rs1 ≠ 0 → t.x rd * t.x rd * s.x rs2 % L = K.sqrtM1 * s.x rs1 % L)) ∧
  (∀ (s t u : State) (rd rs1 rs2 : Reg) (imm : Imm), imm.toNat < 253 → s.x rs1 = 2 → s.x rs2 = imm.toNat →
    exec (.twopow rd imm) s = .next t → exec (.pow rd rs1 rs2) s = .next u → t.x rd = u.x rd)

/-- The limb adder of `41_linear.md` R150 computes the closed form of R140, which is normative. The datapath stands
beside the machine, and no command calls it (log 12). R150 marks the word-level steps as general knowledge. -/
def Obligations.AdderDatapathComputesAdd : Prop :=
  ∀ a b : FieldReg, wordsVal (addWords (limbWords a) (limbWords b)) =
    (if L ≤ (a.toNat + b.toNat) % 2 ^ 260 then (a.toNat + b.toNat) % 2 ^ 260 - L else (a.toNat + b.toNat) % 2 ^ 260)

/-- The limb subtracter of `41_linear.md` R151 computes the closed form of R141, which is normative. The datapath
stands beside the machine, and no command calls it (log 12). R151 marks the word-level steps as general knowledge. -/
def Obligations.SubtracterDatapathComputesSub : Prop :=
  ∀ a b : FieldReg, wordsVal (subWords (limbWords a) (limbWords b)) =
    (if b.toNat ≤ a.toNat then a.toNat - b.toNat else (a.toNat + L + 2 ^ 260 - b.toNat) % 2 ^ 260)

/-- `41_linear.md` R152 and the value of a limb tuple (`00_scope.md` R6). The comparison stands beside the machine
(log 12). -/
def Obligations.LimbOrderingIsIntegerOrdering : Prop :=
  ∀ a b : FieldReg, regLess a b = decide (a.toNat < b.toNat) ∧ wordsVal (limbWords a) = a.toNat

/-- The product unit and the squaring variant (`42_multiplicative.md` R180, R181); the bound of `00_scope.md` R4. The
units stand beside the machine (log 12). -/
def Obligations.ProductAccumulatorsRepresentTheProduct : Prop :=
  ∀ a b : FieldReg, limbVal (productAcc (limbNats a) (limbNats b)) = a.toNat * b.toNat ∧
    (∀ z ∈ productAcc (limbNats a) (limbNats b), z < 2 ^ 107) ∧
    squareAcc (limbNats a) = productAcc (limbNats a) (limbNats a)

/-- The digit-serial N equals the N of the definition (`42_multiplicative.md` R182). The datapath stands beside the
machine, and no command calls it (log 12). R182 marks the digit-serial schedule as general knowledge; MRED is
normative. -/
def Obligations.DigitSerialReductionComputesMred : Prop :=
  ∀ a b : FieldReg, ∃ N, N < 2 ^ 260 ∧ (a.toNat * b.toNat + N * L) % 2 ^ 260 = 0 ∧
    wordsVal (mmulWords a b) =
      (if L ≤ (a.toNat * b.toNat + N * L) / 2 ^ 260 then (a.toNat * b.toNat + N * L) / 2 ^ 260 - L
        else (a.toNat * b.toNat + N * L) / 2 ^ 260)

/-- The informative loop of `42_multiplicative.md` R189 computes its closed form. The unit stands beside the machine
(log 12). R189 marks the skipped last squaring as general knowledge. -/
def Obligations.PowUnitComputesThePower : Prop :=
  ∀ a e : Nat, a < 2 ^ 260 → e < 2 ^ 260 → powUnit 260 1 a e = (if e = 0 then 1 else a ^ e % L) ∧
    powUnit 260 1 a e = powF a e

/-- The binary_gcd_inverse unit (`43_inversion.md` R222, R223) and its bound (R224) against R220. The unit stands
beside the machine, and no command calls it (log 12). R222 marks its step order, cofactor updates and final L - r as
general knowledge, and R223 its reading of the pre-multiplication (`90_conflicts.md` C5). -/
def Obligations.BinaryGcdUnitComputesTheInverse : Prop :=
  ∀ a : Nat, 0 < a → a < L →
    (phaseOne a).v = 0 ∧ (phaseOne a).k ≤ 506 ∧ a * phaseOneOut (phaseOne a) % L = 2 ^ (phaseOne a).k % L ∧
    1 ≤ gcdInverse a ∧ gcdInverse a < L ∧ a * gcdInverse a % L = 1 ∧ gcdInverse a = invL a
end

