-- ==== Sys2Proof/Laws/Arith.lean ====
section
/-! SUPPORT. What the closed-form arithmetic of `Machine/Arith.lean` computes: bounds and residues, one lemma per
function, so that later proofs never unfold them. -/

namespace Sys2Proof.Machine

-- One theorem at a time: a thread for each kernel evaluation below would need too much memory.
set_option Elab.async false

/-- L is odd, so it is prime to R. -/
theorem coprime_R_L : Nat.Coprime R L := by decide +kernel

theorem L_pos : 0 < L := by decide +kernel

theorem L_lt_R : L < R := by decide +kernel

theorem R_pos : 0 < R := by decide +kernel

theorem L_odd : L % 2 = 1 := by decide +kernel

/-- The constant of R182's formula is -inv(L) mod R. -/
theorem L_mul_negInvR : R ∣ L * K.negInvR + 1 := Nat.dvd_of_mod_eq_zero (by decide +kernel)

theorem rr_lt : K.rr < L := Nat.mod_lt _ L_pos

theorem inv2_lt : K.inv2 < L := by decide +kernel

theorem halfBound_lt : K.halfBound < L := by decide +kernel

theorem minusOne_lt : K.minusOne < L := by decide +kernel

theorem montOne_lt : K.montOne < L := Nat.mod_lt _ L_pos

theorem sqrtM1_lt : K.sqrtM1 < L := by
  unfold K.sqrtM1; split <;> decide +kernel

theorem halfBound_double : 2 * K.halfBound + 1 = L := by decide +kernel

/-- R in the spelling of BitVec's lemmas. -/
theorem R_eq : R = 2 ^ 260 := by decide +kernel

theorem addF_lt {a b : Nat} : addF a b < R := by
  have h : (a + b) % R < R := Nat.mod_lt _ R_pos
  simp only [addF]; split <;> omega

/-- ADD on canonical operands is addition modulo L (`41_linear.md` R140, R153). -/
theorem addF_canonical {a b : Nat} (ha : a < L) (hb : b < L) : addF a b = (a + b) % L := by
  have h2 : 2 * L < R := by decide +kernel
  have hm : (a + b) % R = a + b := Nat.mod_eq_of_lt (by omega)
  simp only [addF, hm]
  split
  · rename_i h
    rw [Nat.mod_eq_sub_mod h, Nat.mod_eq_of_lt (by omega)]
  · exact (Nat.mod_eq_of_lt (by omega)).symm

theorem subF_lt {a b : Nat} (ha : a < R) : subF a b < R := by
  simp only [subF]; split
  · omega
  · exact Nat.mod_lt _ R_pos

/-- SUB on canonical operands is subtraction modulo L (`41_linear.md` R141, R153). -/
theorem subF_canonical {a b : Nat} (ha : a < L) (hb : b < L) : subF a b = (a + (L - b)) % L := by
  have hL := L_lt_R
  simp only [subF]
  split
  · rename_i h
    rw [show a + (L - b) = (a - b) + L by omega, Nat.add_mod_right, Nat.mod_eq_of_lt (by omega)]
  · rw [show a + L + R - b = (a + (L - b)) + R by omega, Nat.add_mod_right, Nat.mod_eq_of_lt (by omega),
      Nat.mod_eq_of_lt (by omega)]

theorem negF_lt {a : Nat} : negF a < R := subF_lt R_pos

theorem negF_of_le {a : Nat} (h0 : 0 < a) (h : a ≤ L) : negF a = L - a := by
  have hL := L_lt_R
  simp only [negF, subF]
  rw [if_neg (by omega), show 0 + L + R - a = (L - a) + R by omega, Nat.add_mod_right, Nat.mod_eq_of_lt (by omega)]

@[simp] theorem negF_zero : negF 0 = 0 := by decide +kernel

theorem negF_of_gt {a : Nat} (h : L < a) (ha : a < R) : negF a = R + L - a := by
  simp only [negF, subF]
  rw [if_neg (by omega), show 0 + L + R - a = R + L - a by omega, Nat.mod_eq_of_lt (by omega)]

theorem negF_canonical {a : Nat} (ha : a < L) : negF a < L := by
  rcases Nat.eq_zero_or_pos a with h | h
  · subst h; rw [negF_zero]; exact L_pos
  · rw [negF_of_le h ha.le]; omega

theorem montN_lt (T : Nat) : montN T < R := Nat.mod_lt _ R_pos

/-- N makes T + N * L divisible by R (`42_multiplicative.md` R182). -/
theorem R_dvd_montSum (T : Nat) : R ∣ T + montN T * L := by
  have h1 : T + montN T * L ≡ T + T * K.negInvR * L [MOD R] :=
    Nat.ModEq.add_left _ ((Nat.mod_modEq _ _).mul_right _)
  have h2 : R ∣ T + T * K.negInvR * L := by
    have : T + T * K.negInvR * L = T * (L * K.negInvR + 1) := by ring
    rw [this]; exact Dvd.dvd.mul_left L_mul_negInvR T
  exact (Nat.modEq_zero_iff_dvd).1 (h1.trans ((Nat.modEq_zero_iff_dvd).2 h2))

theorem montU_mul_R (T : Nat) : montU T * R = T + montN T * L := Nat.div_mul_cancel (R_dvd_montSum T)

/-- MRED removes one factor R: MRED(T) * R ≡ T (mod L) (`42_multiplicative.md` R182). -/
theorem mred_mul_R (T : Nat) : mred T * R ≡ T [MOD L] := by
  have hu : montU T * R ≡ T [MOD L] := by
    rw [montU_mul_R]
    exact (Nat.ModEq.refl T).add (Nat.modEq_zero_iff_dvd.2 (Dvd.intro_left (montN T) rfl))
  simp only [mred]
  split
  · rename_i h
    have : (montU T - L) + L = montU T := by omega
    have h2 : montU T - L ≡ montU T [MOD L] := by
      conv_rhs => rw [← this]
      exact (Nat.add_modEq_right).symm
    exact (h2.mul_right R).trans hu
  · exact hu

theorem mred_lt_R {T : Nat} (h : T < R * R) : mred T < R := by
  have h1 := montU_mul_R T
  have h2 : montN T * L < R * L := Nat.mul_lt_mul_of_pos_right (montN_lt T) L_pos
  have h3 : montU T < R + L := by
    by_contra hc
    have : (R + L) * R ≤ montU T * R := Nat.mul_le_mul_right _ (by omega)
    have e : (R + L) * R = R * R + R * L := by ring
    omega
  have h4 := L_lt_R
  simp only [mred]; split <;> omega

theorem mred_lt_L {T : Nat} (h : T < L * R) : mred T < L := by
  have h1 := montU_mul_R T
  have h2 : montN T * L < R * L := Nat.mul_lt_mul_of_pos_right (montN_lt T) L_pos
  have h3 : montU T < L + L := by
    by_contra hc
    have : (L + L) * R ≤ montU T * R := Nat.mul_le_mul_right _ (by omega)
    have e : (L + L) * R = L * R + R * L := by ring
    omega
  simp only [mred]; split <;> omega

/-- A canonical value is determined by what it is after one multiplication by R. -/
theorem eq_of_mul_R_modEq {a b : Nat} (ha : a < L) (hb : b < L) (h : a * R ≡ b * R [MOD L]) : a = b := by
  have := Nat.ModEq.cancel_right_of_coprime (coprime_R_L.symm) h
  exact Nat.ModEq.eq_of_lt_of_lt this ha hb

theorem mul_lt_LR {a b : Nat} (ha : a < R) (hb : b < L) : a * b < L * R := by
  rw [Nat.mul_comm L R]
  exact Nat.mul_lt_mul_of_lt_of_le ha hb.le L_pos

theorem mul_lt_RR {a b : Nat} (ha : a < R) (hb : b < R) : a * b < R * R :=
  Nat.mul_lt_mul_of_lt_of_le ha hb.le R_pos

theorem mulF_lt {a b : Nat} (ha : a < R) (hb : b < R) : mulF a b < L :=
  mred_lt_L (mul_lt_LR (mred_lt_R (mul_lt_RR ha hb)) rr_lt)

/-- TOMONT's closed form: MRED(a * RR) = a * R mod L (`42_multiplicative.md` R187). -/
theorem mred_mul_rr {a : Nat} (ha : a < R) : mred (a * K.rr) = a * R % L := by
  refine eq_of_mul_R_modEq (mred_lt_L (mul_lt_LR ha rr_lt)) (Nat.mod_lt _ L_pos) ?_
  have h1 := mred_mul_R (a * K.rr)
  have h2 : a * K.rr ≡ a * (R * R) [MOD L] := Nat.ModEq.mul_left _ (Nat.mod_modEq _ _)
  have h3 : a * R % L * R ≡ a * R * R [MOD L] := (Nat.mod_modEq _ _).mul_right _
  rw [show a * (R * R) = a * R * R by ring] at h2
  exact (h1.trans h2).trans h3.symm

/-- MUL's closed form: MULF(a, b) = a * b mod L for all 260-bit operands (`42_multiplicative.md` R183, R190). -/
theorem mulF_eq {a b : Nat} (ha : a < R) (hb : b < R) : mulF a b = a * b % L := by
  have h1 : mred (a * b) < R := mred_lt_R (mul_lt_RR ha hb)
  rw [mulF, mred_mul_rr h1]
  exact (mred_mul_R (a * b))

/-- FROMMONT's closed form: MRED(a) is canonical for a 260-bit a (`42_multiplicative.md` R188). -/
theorem mred_lt_of_lt_R {a : Nat} (ha : a < R) : mred a < L := by
  refine mred_lt_L ?_
  calc a < R := ha
    _ ≤ L * R := Nat.le_mul_of_pos_left _ L_pos

theorem halfF_eq {a : Nat} (ha : a < R) : halfF a = a * K.inv2 % L :=
  mulF_eq ha (inv2_lt.trans L_lt_R)

/-- R189's loop computes res * base^e modulo m (`42_multiplicative.md` R189). -/
theorem powLoop_modEq (m : Nat) : ∀ (fuel res base e : Nat), e < 2 ^ fuel →
    powLoop m fuel res base e ≡ res * base ^ e [MOD m]
  | 0, res, base, e, h => by
    have : e = 0 := by simpa using h
    subst this; simp only [powLoop, pow_zero, mul_one]; exact Nat.ModEq.refl _
  | fuel + 1, res, base, e, h => by
    simp only [powLoop]
    split
    · rename_i h0; subst h0; simp only [pow_zero, mul_one]; exact Nat.ModEq.refl _
    · have hlt : e / 2 < 2 ^ fuel := by
        rw [pow_succ] at h; omega
      refine (powLoop_modEq m fuel _ _ _ hlt).trans ?_
      have hb : (base * base % m) ^ (e / 2) ≡ base ^ (2 * (e / 2)) [MOD m] := by
        have : base ^ (2 * (e / 2)) = (base * base) ^ (e / 2) := by rw [pow_mul, pow_two]
        rw [this]; exact (Nat.mod_modEq _ _).pow _
      split
      · rename_i h1
        have he : base ^ e = base * base ^ (2 * (e / 2)) := by
          conv_lhs => rw [show e = 2 * (e / 2) + 1 by omega, pow_succ, Nat.mul_comm]
        rw [he, ← Nat.mul_assoc]
        exact (Nat.mod_modEq _ _).mul hb
      · rename_i h1
        have he : base ^ e = base ^ (2 * (e / 2)) := by
          conv_lhs => rw [show e = 2 * (e / 2) by omega]
        rw [he]
        exact hb.mul_left _

theorem powLoop_lt {m : Nat} (hm : 0 < m) : ∀ (fuel res base e : Nat), res < m → powLoop m fuel res base e < m
  | 0, _, _, _, h => h
  | fuel + 1, res, base, e, h => by
    simp only [powLoop]
    split
    · exact h
    · refine powLoop_lt hm fuel _ _ _ ?_
      split
      · exact Nat.mod_lt _ hm
      · exact h

theorem one_lt_L : 1 < L := by decide +kernel

theorem powF_lt (a e : Nat) : powF a e < L := powLoop_lt L_pos _ _ _ _ one_lt_L

/-- POW's closed form: a^e mod L for every 260-bit exponent, so 1 for e = 0 (`42_multiplicative.md` R189). -/
theorem powF_eq {e : Nat} (he : e < R) (a : Nat) : powF a e = a ^ e % L := by
  have h := powLoop_modEq L 260 1 a e (R_eq ▸ he)
  rw [Nat.one_mul] at h
  have h2 : powF a e % L = a ^ e % L := h
  rwa [Nat.mod_eq_of_lt (powF_lt a e)] at h2

end Sys2Proof.Machine
end

