-- ==== Sys2Proof/Laws/Encoding.lean ====
section
/-! SUPPORT. The fields the encoder writes are the fields the decoder reads (`30_encoding.md` R80), and the opcode map
is one-to-one (R82). -/

namespace Sys2Proof

theorem toNat_append {m n : Nat} (x : BitVec m) (y : BitVec n) : (x ++ y).toNat = x.toNat * 2 ^ n + y.toNat := by
  rw [BitVec.toNat_append, ← Nat.shiftLeft_add_eq_or_of_lt y.isLt, Nat.shiftLeft_eq]

theorem toNat_ofReg (r : Reg) : (BitVec.ofNat 4 r.val).toNat = r.val := by
  rw [BitVec.toNat_ofNat]; exact Nat.mod_eq_of_lt r.isLt

/-- The encoder's word as R80 writes it: op | rd << 8 | rs1 << 12 | rs2 << 16 | imm << 20. -/
theorem toNat_commandWord (op : BitVec 8) (rd rs1 rs2 : Reg) (imm : Imm) :
    (commandWord op rd rs1 rs2 imm).toNat =
      op.toNat + 2 ^ 8 * rd.val + 2 ^ 12 * rs1.val + 2 ^ 16 * rs2.val + 2 ^ 20 * imm.toNat := by
  rw [commandWord, toNat_append, toNat_append, toNat_append, toNat_append, toNat_ofReg, toNat_ofReg, toNat_ofReg]
  omega

theorem toNat_cmdValue (w : BitVec 32) : (cmdValue w).toNat = w.toNat := by
  rw [cmdValue, toNat_append, BitVec.toNat_zero, Nat.zero_mul, Nat.zero_add]

theorem toNat_extract (w : Word) (s n : Nat) : (w.extractLsb' s n).toNat = w.toNat / 2 ^ s % 2 ^ n := by
  rw [BitVec.extractLsb'_toNat, Nat.shiftRight_eq_div_pow]

theorem highField_cmdValue (w : BitVec 32) : highField (cmdValue w) = 0 := by
  apply BitVec.eq_of_toNat_eq
  have := w.isLt
  rw [highField, toNat_extract, toNat_cmdValue]
  show w.toNat / 2 ^ 32 % 2 ^ 32 = 0
  omega

section
variable (op : BitVec 8) (rd rs1 rs2 : Reg) (imm : Imm)

theorem opField_commandWord : opField (cmdValue (commandWord op rd rs1 rs2 imm)) = op := by
  apply BitVec.eq_of_toNat_eq
  have := op.isLt
  rw [opField, toNat_extract, toNat_cmdValue, toNat_commandWord]; omega

theorem rdField_commandWord : rdField (cmdValue (commandWord op rd rs1 rs2 imm)) = rd := by
  apply Fin.eq_of_val_eq
  have := op.isLt
  have := rd.isLt
  show (BitVec.extractLsb' 8 4 _).toNat = rd.val
  rw [toNat_extract, toNat_cmdValue, toNat_commandWord]; omega

theorem rs1Field_commandWord : rs1Field (cmdValue (commandWord op rd rs1 rs2 imm)) = rs1 := by
  apply Fin.eq_of_val_eq
  have := op.isLt
  have := rd.isLt
  have := rs1.isLt
  show (BitVec.extractLsb' 12 4 _).toNat = rs1.val
  rw [toNat_extract, toNat_cmdValue, toNat_commandWord]; omega

theorem rs2Field_commandWord : rs2Field (cmdValue (commandWord op rd rs1 rs2 imm)) = rs2 := by
  apply Fin.eq_of_val_eq
  have := op.isLt
  have := rd.isLt
  have := rs1.isLt
  have := rs2.isLt
  show (BitVec.extractLsb' 16 4 _).toNat = rs2.val
  rw [toNat_extract, toNat_cmdValue, toNat_commandWord]; omega

theorem immField_commandWord : immField (cmdValue (commandWord op rd rs1 rs2 imm)) = imm := by
  apply BitVec.eq_of_toNat_eq
  have := op.isLt
  have := rd.isLt
  have := rs1.isLt
  have := rs2.isLt
  have := imm.isLt
  rw [immField, toNat_extract, toNat_cmdValue, toNat_commandWord]; omega

theorem operandFields_commandWord :
    operandFields (cmdValue (commandWord op rd rs1 rs2 imm)) = ⟨rd, rs1, rs2, imm⟩ := by
  rw [operandFields, rdField_commandWord, rs1Field_commandWord, rs2Field_commandWord, immField_commandWord]

end

/-- A 64-bit value whose high half is zero is the CMD value of its fields' word. -/
theorem cmdValue_of_fields (w : Word) (h : highField w = 0) :
    cmdValue (commandWord (opField w) (rdField w) (rs1Field w) (rs2Field w) (immField w)) = w := by
  apply BitVec.eq_of_toNat_eq
  have hh : (highField w).toNat = 0 := by rw [h]; rfl
  rw [highField, toNat_extract] at hh
  have h1 : (rdField w).val = w.toNat / 2 ^ 8 % 2 ^ 4 := toNat_extract w 8 4
  have h2 : (rs1Field w).val = w.toNat / 2 ^ 12 % 2 ^ 4 := toNat_extract w 12 4
  have h3 : (rs2Field w).val = w.toNat / 2 ^ 16 % 2 ^ 4 := toNat_extract w 16 4
  have := w.isLt
  rw [toNat_cmdValue, toNat_commandWord, h1, h2, h3, opField, immField, toNat_extract, toNat_extract]
  omega

/-- The opcode map finds each opcode by its number (`30_encoding.md` R82). -/
theorem ofCode_code (o : Op) : Op.ofCode o.code = some o := by cases o <;> rfl

/-- An opcode the map finds has the number it was found by (`30_encoding.md` R82). -/
theorem code_of_ofCode {c : BitVec 8} {o : Op} (h : Op.ofCode c = some o) : o.code = c := by
  have := List.find?_some h
  exact beq_iff_eq.1 this

end Sys2Proof
end

