-- ==== Sys2Proof/Laws/Memory.lean ====
section
/-! SUPPORT. The laws of DBUF: a read after a write, what a write leaves alone, that every operation keeps the
canonical form, and that equal contents are equal data. -/

namespace Sys2Proof.Machine

@[simp] theorem Memory.read_nil (k : Nat) : Memory.read [] k = 0 := rfl

@[simp] theorem Memory.load_zero (m : Memory) (k : Nat) : m.load k 0 = 0 := rfl

@[simp] theorem Memory.store_zero (m : Memory) (k v : Nat) : m.store k 0 v = m := rfl

theorem Memory.load_succ (m : Memory) (k n : Nat) :
    m.load k (n + 1) = (m.read k).toNat + 256 * m.load (k + 1) n := rfl

theorem Memory.store_succ (m : Memory) (k n v : Nat) :
    m.store k (n + 1) v = (m.write k (BitVec.ofNat 8 v)).store (k + 1) n (v / 256) := rfl

theorem Memory.wfFrom_cons {lo a : Nat} {b : Byte} {m : Memory} :
    Memory.wfFrom lo ((a, b) :: m) = true ↔ lo ≤ a ∧ a < 32 ∧ b ≠ 0 ∧ Memory.wfFrom (a + 1) m = true := by
  simp only [Memory.wfFrom, Bool.and_eq_true, decide_eq_true_eq, and_assoc]
  exact Iff.rfl

theorem Memory.wfFrom_mono {lo lo' : Nat} {m : Memory} (h : Memory.wfFrom lo m = true) (hl : lo' ≤ lo) :
    Memory.wfFrom lo' m = true := by
  cases m with
  | nil => rfl
  | cons p m => rw [Memory.wfFrom_cons] at h ⊢; exact ⟨hl.trans h.1, h.2⟩

/-- A byte below every listed one reads 0. -/
theorem Memory.read_of_lt : ∀ {lo k : Nat} {m : Memory}, Memory.wfFrom lo m = true → k < lo → m.read k = 0
  | _, _, [], _, _ => rfl
  | lo, k, (a, b) :: m, h, hk => by
    rw [Memory.wfFrom_cons] at h
    rw [Memory.read, if_neg (by omega)]
    exact Memory.read_of_lt h.2.2.2 (by omega)

theorem Memory.read_erase_ne {k j : Nat} (hj : j ≠ k) : ∀ m : Memory, (m.erase k).read j = m.read j
  | [] => rfl
  | (a, b) :: m => by
    simp only [Memory.erase, Memory.read]
    split
    · rename_i h; rw [if_neg (by omega)]
    · rw [Memory.read, Memory.read_erase_ne hj m]

theorem Memory.read_erase_self {k : Nat} : ∀ {lo : Nat} {m : Memory}, Memory.wfFrom lo m = true → (m.erase k).read k = 0
  | _, [], _ => rfl
  | lo, (a, b) :: m, h => by
    rw [Memory.wfFrom_cons] at h
    simp only [Memory.erase]
    split
    · rename_i hk; exact Memory.read_of_lt h.2.2.2 (by omega)
    · rename_i hk; rw [Memory.read, if_neg hk]; exact Memory.read_erase_self h.2.2.2

theorem Memory.read_insert (k j : Nat) (v : Byte) : ∀ m : Memory,
    (m.insert k v).read j = if j = k then v else m.read j
  | [] => by simp only [Memory.insert, Memory.read, eq_comm]
  | (a, b) :: m => by
    simp only [Memory.insert]
    split
    · simp only [Memory.read, eq_comm (a := k)]
    · split
      · rename_i _ h; subst h
        simp only [Memory.read, eq_comm (a := k)]
        split <;> rfl
      · rename_i _ h
        simp only [Memory.read, Memory.read_insert k j v m]
        split
        · rename_i h2; rw [if_neg (by omega)]
        · rfl

/-- A write leaves every other byte alone. -/
theorem Memory.read_write_ne {m : Memory} {k j : Nat} {v : Byte} (h : j ≠ k) : (m.write k v).read j = m.read j := by
  simp only [Memory.write]; split
  · exact Memory.read_erase_ne h m
  · rw [Memory.read_insert, if_neg h]

/-- A read after a write to the same byte gives the value written. -/
theorem Memory.read_write_self {m : Memory} (hm : m.wf = true) {k : Nat} {v : Byte} : (m.write k v).read k = v := by
  simp only [Memory.write]; split
  · rename_i h; rw [Memory.read_erase_self hm, h]; rfl
  · rw [Memory.read_insert, if_pos rfl]

theorem Memory.wfFrom_erase {k : Nat} : ∀ {lo : Nat} {m : Memory}, Memory.wfFrom lo m = true →
    Memory.wfFrom lo (m.erase k) = true
  | _, [], _ => rfl
  | lo, (a, b) :: m, h => by
    rw [Memory.wfFrom_cons] at h
    simp only [Memory.erase]
    split
    · exact Memory.wfFrom_mono h.2.2.2 (by omega)
    · exact Memory.wfFrom_cons.2 ⟨h.1, h.2.1, h.2.2.1, Memory.wfFrom_erase h.2.2.2⟩

theorem Memory.wfFrom_insert {k : Nat} {v : Byte} (hk : k < 32) (hv : v ≠ 0) : ∀ {lo : Nat} {m : Memory},
    Memory.wfFrom lo m = true → lo ≤ k → Memory.wfFrom lo (m.insert k v) = true
  | _, [], _, hl => Memory.wfFrom_cons.2 ⟨hl, hk, hv, rfl⟩
  | lo, (a, b) :: m, h, hl => by
    rw [Memory.wfFrom_cons] at h
    simp only [Memory.insert]
    split
    · rename_i h1
      exact Memory.wfFrom_cons.2 ⟨hl, hk, hv, Memory.wfFrom_cons.2 ⟨h1, h.2⟩⟩
    · split
      · rename_i _ h2; subst h2
        exact Memory.wfFrom_cons.2 ⟨hl, hk, hv, h.2.2.2⟩
      · exact Memory.wfFrom_cons.2 ⟨h.1, h.2.1, h.2.2.1, Memory.wfFrom_insert hk hv h.2.2.2 (by omega)⟩

/-- A write keeps the canonical form. -/
theorem Memory.wf_write {m : Memory} (hm : m.wf = true) {k : Nat} (hk : k < 32) (v : Byte) : (m.write k v).wf = true := by
  simp only [Memory.write]; split
  · exact Memory.wfFrom_erase hm
  · rename_i h; exact Memory.wfFrom_insert hk h hm (Nat.zero_le _)

/-- A store inside the buffer keeps the canonical form. -/
theorem Memory.wf_store : ∀ {n : Nat} {m : Memory} {k v : Nat}, m.wf = true → k + n ≤ 32 → (m.store k n v).wf = true
  | 0, _, _, _, h, _ => h
  | n + 1, m, k, v, h, hk =>
    Memory.wf_store (m := m.write k (BitVec.ofNat 8 v)) (Memory.wf_write h (by omega) _) (by omega)

/-- A store leaves every byte outside its range alone. -/
theorem Memory.read_store_outside : ∀ {n : Nat} {m : Memory} {k v j : Nat}, j < k ∨ k + n ≤ j →
    (m.store k n v).read j = m.read j
  | 0, _, _, _, _, _ => rfl
  | n + 1, m, k, v, j, h => by
    rw [Memory.store_succ, Memory.read_store_outside (by omega), Memory.read_write_ne (by omega)]

/-- Byte i of the range a store writes is byte i of the value (`20_memory.md` R55). -/
theorem Memory.read_store_inside : ∀ {n : Nat} {m : Memory} {k v i : Nat}, m.wf = true → k + n ≤ 32 → i < n →
    (m.store k n v).read (k + i) = BitVec.ofNat 8 (v / 256 ^ i)
  | n + 1, m, k, v, 0, h, hk, _ => by
    show (m.store k (n + 1) v).read k = BitVec.ofNat 8 (v / 1)
    rw [Memory.store_succ, Memory.read_store_outside (by omega), Memory.read_write_self h, Nat.div_one]
  | n + 1, m, k, v, i + 1, h, hk, hi => by
    rw [Memory.store_succ, show k + (i + 1) = (k + 1) + i by omega,
      Memory.read_store_inside (Memory.wf_write h (by omega) _) (by omega) (by omega), Nat.div_div_eq_div_mul, pow_succ,
      Nat.mul_comm 256]

theorem Memory.load_lt (m : Memory) : ∀ (n k : Nat), m.load k n < 256 ^ n
  | 0, _ => by rw [Memory.load_zero]; exact Nat.one_pos
  | n + 1, k => by
    have h1 := (m.read k).isLt
    have h2 := Memory.load_lt m n (k + 1)
    rw [Memory.load_succ, pow_succ]; omega

theorem Memory.load_congr {m m' : Memory} : ∀ {n k : Nat}, (∀ j, k ≤ j → j < k + n → m.read j = m'.read j) →
    m.load k n = m'.load k n
  | 0, _, _ => rfl
  | n + 1, k, h => by
    rw [Memory.load_succ, Memory.load_succ, h k (le_refl _) (by omega),
      Memory.load_congr fun j h1 h2 => h j (by omega) (by omega)]

/-- A load after a store to the same range gives the value's low bytes. -/
theorem Memory.load_store : ∀ {n : Nat} {m : Memory} {k v : Nat}, m.wf = true → k + n ≤ 32 →
    (m.store k n v).load k n = v % 256 ^ n
  | 0, _, _, _, _, _ => by rw [Memory.load_zero, pow_zero, Nat.mod_one]
  | n + 1, m, k, v, h, hk => by
    rw [Memory.store_succ, Memory.load_succ, Memory.read_store_outside (by omega), Memory.read_write_self h,
      Memory.load_store (Memory.wf_write h (by omega) _) (by omega), BitVec.toNat_ofNat, Nat.pow_succ' (m := 256), Nat.mod_mul]

/-- Canonical buffers that read alike are equal data. -/
theorem Memory.ext_from : ∀ {lo : Nat} {m m' : Memory}, Memory.wfFrom lo m = true → Memory.wfFrom lo m' = true →
    (∀ k, m.read k = m'.read k) → m = m'
  | _, [], [], _, _, _ => rfl
  | _, [], (a, b) :: m', _, h', hr => by
    rw [Memory.wfFrom_cons] at h'
    have := hr a
    rw [Memory.read_nil, Memory.read, if_pos rfl] at this
    exact absurd this.symm h'.2.2.1
  | _, (a, b) :: m, [], h, _, hr => by
    rw [Memory.wfFrom_cons] at h
    have := hr a
    rw [Memory.read_nil, Memory.read, if_pos rfl] at this
    exact absurd this h.2.2.1
  | lo, (a, b) :: m, (a', b') :: m', h, h', hr => by
    rw [Memory.wfFrom_cons] at h h'
    have hra := hr a
    have hra' := hr a'
    rw [Memory.read, if_pos rfl] at hra
    rw [Memory.read.eq_2 a' a' b' m', if_pos rfl] at hra'
    have haa : a = a' := by
      rcases Nat.lt_trichotomy a a' with hlt | heq | hgt
      · rw [Memory.read, if_neg (by omega), Memory.read_of_lt h'.2.2.2 (by omega)] at hra
        exact absurd hra h.2.2.1
      · exact heq
      · rw [Memory.read, if_neg (by omega), Memory.read_of_lt h.2.2.2 (by omega)] at hra'
        exact absurd hra'.symm h'.2.2.1
    subst haa
    rw [Memory.read, if_pos rfl] at hra
    subst hra
    congr 1
    refine Memory.ext_from h.2.2.2 h'.2.2.2 fun k => ?_
    have hk := hr k
    simp only [Memory.read] at hk
    rcases Nat.lt_trichotomy a k with hlt | heq | hgt
    · rwa [if_neg (by omega), if_neg (by omega)] at hk
    · rw [Memory.read_of_lt h.2.2.2 (by omega), Memory.read_of_lt h'.2.2.2 (by omega)]
    · rw [Memory.read_of_lt h.2.2.2 (by omega), Memory.read_of_lt h'.2.2.2 (by omega)]

/-- Canonical buffers that read alike are equal data. -/
theorem Memory.ext {m m' : Memory} (h : m.wf = true) (h' : m'.wf = true) (hr : ∀ k, m.read k = m'.read k) : m = m' :=
  Memory.ext_from h h' hr

/-- The buffer at reset is in canonical form. -/
theorem reset_dbuf_wf : State.reset.dbuf.wf = true := rfl

end Sys2Proof.Machine
end

