-- ==== Sys2Proof/Laws/State.lean ====
section
/-! SUPPORT. One lemma per field per state update, each true by rfl, so that no later proof unfolds a record update. -/

namespace Sys2Proof.Machine

variable (s : State)

@[simp] theorem State.setX_fr (r : Reg) (v : Nat) : (s.setX r v).fr = s.fr.set r (BitVec.ofNat 260 v) := rfl
@[simp] theorem State.setX_cf (r : Reg) (v : Nat) : (s.setX r v).cf = s.cf := rfl
@[simp] theorem State.setX_vf (r : Reg) (v : Nat) : (s.setX r v).vf = s.vf := rfl
@[simp] theorem State.setX_dbuf (r : Reg) (v : Nat) : (s.setX r v).dbuf = s.dbuf := rfl
@[simp] theorem State.setX_busy (r : Reg) (v : Nat) : (s.setX r v).busy = s.busy := rfl
@[simp] theorem State.setX_pend (r : Reg) (v : Nat) : (s.setX r v).pend = s.pend := rfl
@[simp] theorem State.setX_fault (r : Reg) (v : Nat) : (s.setX r v).fault = s.fault := rfl
@[simp] theorem State.setX_fcode (r : Reg) (v : Nat) : (s.setX r v).fcode = s.fcode := rfl
@[simp] theorem State.setX_ovr (r : Reg) (v : Nat) : (s.setX r v).ovr = s.ovr := rfl
@[simp] theorem State.setX_cmdcnt (r : Reg) (v : Nat) : (s.setX r v).cmdcnt = s.cmdcnt := rfl
@[simp] theorem State.setX_env (r : Reg) (v : Nat) : (s.setX r v).env = s.env := rfl
@[simp] theorem State.setX_dbufInt (r : Reg) (v : Nat) : (s.setX r v).dbufInt = s.dbufInt := rfl

@[simp] theorem State.setDbuf_fr (v : Nat) : (s.setDbuf v).fr = s.fr := rfl
@[simp] theorem State.setDbuf_cf (v : Nat) : (s.setDbuf v).cf = s.cf := rfl
@[simp] theorem State.setDbuf_vf (v : Nat) : (s.setDbuf v).vf = s.vf := rfl
@[simp] theorem State.setDbuf_dbuf (v : Nat) : (s.setDbuf v).dbuf = s.dbuf.store 0 32 v := rfl
@[simp] theorem State.setDbuf_busy (v : Nat) : (s.setDbuf v).busy = s.busy := rfl
@[simp] theorem State.setDbuf_pend (v : Nat) : (s.setDbuf v).pend = s.pend := rfl
@[simp] theorem State.setDbuf_fault (v : Nat) : (s.setDbuf v).fault = s.fault := rfl
@[simp] theorem State.setDbuf_fcode (v : Nat) : (s.setDbuf v).fcode = s.fcode := rfl
@[simp] theorem State.setDbuf_ovr (v : Nat) : (s.setDbuf v).ovr = s.ovr := rfl
@[simp] theorem State.setDbuf_cmdcnt (v : Nat) : (s.setDbuf v).cmdcnt = s.cmdcnt := rfl
@[simp] theorem State.setDbuf_env (v : Nat) : (s.setDbuf v).env = s.env := rfl
@[simp] theorem State.setDbuf_x (v : Nat) (q : Reg) : (s.setDbuf v).x q = s.x q := rfl

@[simp] theorem State.setCf_fr (b : Bool) : (s.setCf b).fr = s.fr := rfl
@[simp] theorem State.setCf_cf (b : Bool) : (s.setCf b).cf = b := rfl
@[simp] theorem State.setCf_vf (b : Bool) : (s.setCf b).vf = s.vf := rfl
@[simp] theorem State.setCf_dbuf (b : Bool) : (s.setCf b).dbuf = s.dbuf := rfl
@[simp] theorem State.setCf_busy (b : Bool) : (s.setCf b).busy = s.busy := rfl
@[simp] theorem State.setCf_pend (b : Bool) : (s.setCf b).pend = s.pend := rfl
@[simp] theorem State.setCf_fault (b : Bool) : (s.setCf b).fault = s.fault := rfl
@[simp] theorem State.setCf_fcode (b : Bool) : (s.setCf b).fcode = s.fcode := rfl
@[simp] theorem State.setCf_ovr (b : Bool) : (s.setCf b).ovr = s.ovr := rfl
@[simp] theorem State.setCf_cmdcnt (b : Bool) : (s.setCf b).cmdcnt = s.cmdcnt := rfl
@[simp] theorem State.setCf_env (b : Bool) : (s.setCf b).env = s.env := rfl
@[simp] theorem State.setCf_x (b : Bool) (q : Reg) : (s.setCf b).x q = s.x q := rfl
@[simp] theorem State.setCf_dbufInt (b : Bool) : (s.setCf b).dbufInt = s.dbufInt := rfl

@[simp] theorem State.setVf_fr (b : Bool) : (s.setVf b).fr = s.fr := rfl
@[simp] theorem State.setVf_cf (b : Bool) : (s.setVf b).cf = s.cf := rfl
@[simp] theorem State.setVf_vf (b : Bool) : (s.setVf b).vf = b := rfl
@[simp] theorem State.setVf_dbuf (b : Bool) : (s.setVf b).dbuf = s.dbuf := rfl
@[simp] theorem State.setVf_busy (b : Bool) : (s.setVf b).busy = s.busy := rfl
@[simp] theorem State.setVf_pend (b : Bool) : (s.setVf b).pend = s.pend := rfl
@[simp] theorem State.setVf_fault (b : Bool) : (s.setVf b).fault = s.fault := rfl
@[simp] theorem State.setVf_fcode (b : Bool) : (s.setVf b).fcode = s.fcode := rfl
@[simp] theorem State.setVf_ovr (b : Bool) : (s.setVf b).ovr = s.ovr := rfl
@[simp] theorem State.setVf_cmdcnt (b : Bool) : (s.setVf b).cmdcnt = s.cmdcnt := rfl
@[simp] theorem State.setVf_env (b : Bool) : (s.setVf b).env = s.env := rfl
@[simp] theorem State.setVf_x (b : Bool) (q : Reg) : (s.setVf b).x q = s.x q := rfl
@[simp] theorem State.setVf_dbufInt (b : Bool) : (s.setVf b).dbufInt = s.dbufInt := rfl

@[simp] theorem State.commit_fr : (s.commit).fr = s.fr := rfl
@[simp] theorem State.commit_cf : (s.commit).cf = s.cf := rfl
@[simp] theorem State.commit_vf : (s.commit).vf = s.vf := rfl
@[simp] theorem State.commit_dbuf : (s.commit).dbuf = s.dbuf := rfl
@[simp] theorem State.commit_busy : (s.commit).busy = false := rfl
@[simp] theorem State.commit_pend : (s.commit).pend = s.pend := rfl
@[simp] theorem State.commit_fault : (s.commit).fault = s.fault := rfl
@[simp] theorem State.commit_fcode : (s.commit).fcode = s.fcode := rfl
@[simp] theorem State.commit_ovr : (s.commit).ovr = s.ovr := rfl
@[simp] theorem State.commit_cmdcnt : (s.commit).cmdcnt = s.cmdcnt + 1 := rfl
@[simp] theorem State.commit_env : (s.commit).env = s.env := rfl
@[simp] theorem State.commit_x (q : Reg) : (s.commit).x q = s.x q := rfl
@[simp] theorem State.commit_dbufInt : (s.commit).dbufInt = s.dbufInt := rfl

@[simp] theorem State.takeFault_fr (c : FaultCode) : (s.takeFault c).fr = s.fr := rfl
@[simp] theorem State.takeFault_cf (c : FaultCode) : (s.takeFault c).cf = s.cf := rfl
@[simp] theorem State.takeFault_vf (c : FaultCode) : (s.takeFault c).vf = s.vf := rfl
@[simp] theorem State.takeFault_dbuf (c : FaultCode) : (s.takeFault c).dbuf = s.dbuf := rfl
@[simp] theorem State.takeFault_busy (c : FaultCode) : (s.takeFault c).busy = false := rfl
@[simp] theorem State.takeFault_pend (c : FaultCode) : (s.takeFault c).pend = s.pend := rfl
@[simp] theorem State.takeFault_fault (c : FaultCode) : (s.takeFault c).fault = true := rfl
@[simp] theorem State.takeFault_fcode (c : FaultCode) : (s.takeFault c).fcode = c.code := rfl
@[simp] theorem State.takeFault_ovr (c : FaultCode) : (s.takeFault c).ovr = s.ovr := rfl
@[simp] theorem State.takeFault_cmdcnt (c : FaultCode) : (s.takeFault c).cmdcnt = s.cmdcnt := rfl
@[simp] theorem State.takeFault_env (c : FaultCode) : (s.takeFault c).env = s.env := rfl
@[simp] theorem State.takeFault_x (c : FaultCode) (q : Reg) : (s.takeFault c).x q = s.x q := rfl
@[simp] theorem State.takeFault_dbufInt (c : FaultCode) : (s.takeFault c).dbufInt = s.dbufInt := rfl

@[simp] theorem State.clearFault_fr : (s.clearFault).fr = s.fr := rfl
@[simp] theorem State.clearFault_cf : (s.clearFault).cf = s.cf := rfl
@[simp] theorem State.clearFault_vf : (s.clearFault).vf = s.vf := rfl
@[simp] theorem State.clearFault_dbuf : (s.clearFault).dbuf = s.dbuf := rfl
@[simp] theorem State.clearFault_busy : (s.clearFault).busy = s.busy := rfl
@[simp] theorem State.clearFault_pend : (s.clearFault).pend = s.pend := rfl
@[simp] theorem State.clearFault_fault : (s.clearFault).fault = false := rfl
@[simp] theorem State.clearFault_fcode : (s.clearFault).fcode = 0 := rfl
@[simp] theorem State.clearFault_ovr : (s.clearFault).ovr = false := rfl
@[simp] theorem State.clearFault_cmdcnt : (s.clearFault).cmdcnt = s.cmdcnt := rfl
@[simp] theorem State.clearFault_env : (s.clearFault).env = s.env := rfl
@[simp] theorem State.clearFault_x (q : Reg) : (s.clearFault).x q = s.x q := rfl
@[simp] theorem State.clearFault_dbufInt : (s.clearFault).dbufInt = s.dbufInt := rfl

@[simp] theorem State.dropWrite_fr : (s.dropWrite).fr = s.fr := rfl
@[simp] theorem State.dropWrite_cf : (s.dropWrite).cf = s.cf := rfl
@[simp] theorem State.dropWrite_vf : (s.dropWrite).vf = s.vf := rfl
@[simp] theorem State.dropWrite_dbuf : (s.dropWrite).dbuf = s.dbuf := rfl
@[simp] theorem State.dropWrite_busy : (s.dropWrite).busy = s.busy := rfl
@[simp] theorem State.dropWrite_pend : (s.dropWrite).pend = s.pend := rfl
@[simp] theorem State.dropWrite_fault : (s.dropWrite).fault = s.fault := rfl
@[simp] theorem State.dropWrite_fcode : (s.dropWrite).fcode = s.fcode := rfl
@[simp] theorem State.dropWrite_ovr : (s.dropWrite).ovr = true := rfl
@[simp] theorem State.dropWrite_cmdcnt : (s.dropWrite).cmdcnt = s.cmdcnt := rfl
@[simp] theorem State.dropWrite_env : (s.dropWrite).env = s.env := rfl
@[simp] theorem State.dropWrite_x (q : Reg) : (s.dropWrite).x q = s.x q := rfl
@[simp] theorem State.dropWrite_dbufInt : (s.dropWrite).dbufInt = s.dbufInt := rfl

@[simp] theorem State.accept_fr (v : Word) : (s.accept v).fr = s.fr := rfl
@[simp] theorem State.accept_cf (v : Word) : (s.accept v).cf = s.cf := rfl
@[simp] theorem State.accept_vf (v : Word) : (s.accept v).vf = s.vf := rfl
@[simp] theorem State.accept_dbuf (v : Word) : (s.accept v).dbuf = s.dbuf := rfl
@[simp] theorem State.accept_busy (v : Word) : (s.accept v).busy = true := rfl
@[simp] theorem State.accept_pend (v : Word) : (s.accept v).pend = v := rfl
@[simp] theorem State.accept_fault (v : Word) : (s.accept v).fault = s.fault := rfl
@[simp] theorem State.accept_fcode (v : Word) : (s.accept v).fcode = s.fcode := rfl
@[simp] theorem State.accept_ovr (v : Word) : (s.accept v).ovr = s.ovr := rfl
@[simp] theorem State.accept_cmdcnt (v : Word) : (s.accept v).cmdcnt = s.cmdcnt := rfl
@[simp] theorem State.accept_x (v : Word) (q : Reg) : (s.accept v).x q = s.x q := rfl
@[simp] theorem State.accept_dbufInt (v : Word) : (s.accept v).dbufInt = s.dbufInt := rfl

@[simp] theorem State.answer_fr (r : PortAnswer) : (s.answer r).fr = s.fr := rfl
@[simp] theorem State.answer_cf (r : PortAnswer) : (s.answer r).cf = s.cf := rfl
@[simp] theorem State.answer_vf (r : PortAnswer) : (s.answer r).vf = s.vf := rfl
@[simp] theorem State.answer_dbuf (r : PortAnswer) : (s.answer r).dbuf = s.dbuf := rfl
@[simp] theorem State.answer_busy (r : PortAnswer) : (s.answer r).busy = s.busy := rfl
@[simp] theorem State.answer_pend (r : PortAnswer) : (s.answer r).pend = s.pend := rfl
@[simp] theorem State.answer_fault (r : PortAnswer) : (s.answer r).fault = s.fault := rfl
@[simp] theorem State.answer_fcode (r : PortAnswer) : (s.answer r).fcode = s.fcode := rfl
@[simp] theorem State.answer_ovr (r : PortAnswer) : (s.answer r).ovr = s.ovr := rfl
@[simp] theorem State.answer_cmdcnt (r : PortAnswer) : (s.answer r).cmdcnt = s.cmdcnt := rfl
@[simp] theorem State.answer_x (r : PortAnswer) (q : Reg) : (s.answer r).x q = s.x q := rfl
@[simp] theorem State.answer_dbufInt (r : PortAnswer) : (s.answer r).dbufInt = s.dbufInt := rfl

@[simp] theorem State.tick_fr : (s.tick).fr = s.fr := rfl
@[simp] theorem State.tick_cf : (s.tick).cf = s.cf := rfl
@[simp] theorem State.tick_vf : (s.tick).vf = s.vf := rfl
@[simp] theorem State.tick_dbuf : (s.tick).dbuf = s.dbuf := rfl
@[simp] theorem State.tick_busy : (s.tick).busy = s.busy := rfl
@[simp] theorem State.tick_pend : (s.tick).pend = s.pend := rfl
@[simp] theorem State.tick_fault : (s.tick).fault = s.fault := rfl
@[simp] theorem State.tick_fcode : (s.tick).fcode = s.fcode := rfl
@[simp] theorem State.tick_ovr : (s.tick).ovr = s.ovr := rfl
@[simp] theorem State.tick_cmdcnt : (s.tick).cmdcnt = s.cmdcnt := rfl
@[simp] theorem State.tick_x (q : Reg) : (s.tick).x q = s.x q := rfl
@[simp] theorem State.tick_dbufInt : (s.tick).dbufInt = s.dbufInt := rfl

@[simp] theorem State.accept_env_inputs (v : Word) : (s.accept v).env.inputs = s.env.inputs := rfl
@[simp] theorem State.accept_env_resp (v : Word) : (s.accept v).env.resp = s.env.resp := rfl
@[simp] theorem State.accept_env_latLeft (v : Word) : (s.accept v).env.latLeft = Config.latency s.env.draws := rfl
@[simp] theorem State.accept_env_draws (v : Word) : (s.accept v).env.draws = s.env.draws + 1 := rfl

@[simp] theorem State.answer_env_inputs (r : PortAnswer) : (s.answer r).env.inputs = s.env.inputs := rfl
@[simp] theorem State.answer_env_latLeft (r : PortAnswer) : (s.answer r).env.latLeft = s.env.latLeft := rfl
@[simp] theorem State.answer_env_draws (r : PortAnswer) : (s.answer r).env.draws = s.env.draws := rfl
@[simp] theorem State.answer_env_resp (r : PortAnswer) : (s.answer r).env.resp = r := rfl

@[simp] theorem State.tick_env_inputs : s.tick.env.inputs = s.env.inputs := rfl
@[simp] theorem State.tick_env_resp : s.tick.env.resp = s.env.resp := rfl
@[simp] theorem State.tick_env_draws : s.tick.env.draws = s.env.draws := rfl
@[simp] theorem State.tick_env_latLeft : s.tick.env.latLeft = s.env.latLeft - 1 := rfl

@[simp] theorem State.setInputs_fr (rest : List HostEvent) : (s.setInputs rest).fr = s.fr := rfl
@[simp] theorem State.setInputs_cf (rest : List HostEvent) : (s.setInputs rest).cf = s.cf := rfl
@[simp] theorem State.setInputs_vf (rest : List HostEvent) : (s.setInputs rest).vf = s.vf := rfl
@[simp] theorem State.setInputs_dbuf (rest : List HostEvent) : (s.setInputs rest).dbuf = s.dbuf := rfl
@[simp] theorem State.setInputs_busy (rest : List HostEvent) : (s.setInputs rest).busy = s.busy := rfl
@[simp] theorem State.setInputs_pend (rest : List HostEvent) : (s.setInputs rest).pend = s.pend := rfl
@[simp] theorem State.setInputs_fault (rest : List HostEvent) : (s.setInputs rest).fault = s.fault := rfl
@[simp] theorem State.setInputs_fcode (rest : List HostEvent) : (s.setInputs rest).fcode = s.fcode := rfl
@[simp] theorem State.setInputs_ovr (rest : List HostEvent) : (s.setInputs rest).ovr = s.ovr := rfl
@[simp] theorem State.setInputs_cmdcnt (rest : List HostEvent) : (s.setInputs rest).cmdcnt = s.cmdcnt := rfl
@[simp] theorem State.setInputs_x (rest : List HostEvent) (q : Reg) : (s.setInputs rest).x q = s.x q := rfl
@[simp] theorem State.setInputs_dbufInt (rest : List HostEvent) : (s.setInputs rest).dbufInt = s.dbufInt := rfl
@[simp] theorem State.setInputs_env_resp (rest : List HostEvent) : (s.setInputs rest).env.resp = s.env.resp := rfl
@[simp] theorem State.setInputs_env_latLeft (rest : List HostEvent) : (s.setInputs rest).env.latLeft = s.env.latLeft := rfl
@[simp] theorem State.setInputs_env_draws (rest : List HostEvent) : (s.setInputs rest).env.draws = s.env.draws := rfl
@[simp] theorem State.setInputs_env_inputs (rest : List HostEvent) : (s.setInputs rest).env.inputs = rest := rfl

@[simp] theorem State.toReset_fr : s.toReset.fr = State.reset.fr := rfl
@[simp] theorem State.toReset_cf : s.toReset.cf = State.reset.cf := rfl
@[simp] theorem State.toReset_vf : s.toReset.vf = State.reset.vf := rfl
@[simp] theorem State.toReset_dbuf : s.toReset.dbuf = State.reset.dbuf := rfl
@[simp] theorem State.toReset_busy : s.toReset.busy = State.reset.busy := rfl
@[simp] theorem State.toReset_pend : s.toReset.pend = State.reset.pend := rfl
@[simp] theorem State.toReset_fault : s.toReset.fault = State.reset.fault := rfl
@[simp] theorem State.toReset_fcode : s.toReset.fcode = State.reset.fcode := rfl
@[simp] theorem State.toReset_ovr : s.toReset.ovr = State.reset.ovr := rfl
@[simp] theorem State.toReset_cmdcnt : s.toReset.cmdcnt = State.reset.cmdcnt := rfl
@[simp] theorem State.toReset_env_inputs : s.toReset.env.inputs = s.env.inputs := rfl
@[simp] theorem State.toReset_env_resp : s.toReset.env.resp = s.env.resp := rfl
@[simp] theorem State.toReset_env_draws : s.toReset.env.draws = s.env.draws := rfl
@[simp] theorem State.toReset_env_latLeft : s.toReset.env.latLeft = 0 := rfl

@[simp] theorem State.reset_cf : State.reset.cf = false := rfl
@[simp] theorem State.reset_vf : State.reset.vf = false := rfl
@[simp] theorem State.reset_dbuf : State.reset.dbuf = [] := rfl
@[simp] theorem State.reset_busy : State.reset.busy = false := rfl
@[simp] theorem State.reset_pend : State.reset.pend = 0 := rfl
@[simp] theorem State.reset_fault : State.reset.fault = false := rfl
@[simp] theorem State.reset_fcode : State.reset.fcode = 0 := rfl
@[simp] theorem State.reset_ovr : State.reset.ovr = false := rfl
@[simp] theorem State.reset_cmdcnt : State.reset.cmdcnt = 0 := rfl
@[simp] theorem State.reset_env : State.reset.env = Env.initial := rfl

end Sys2Proof.Machine
end

