-- ==== Sys2Proof/Laws/Ops.lean ====
section
/-! SUPPORT. What each shared operation of the commands can do, said once: register reads and writes, completion with a
result in a register or a flag, completion with a fault, and the resets. -/

namespace Sys2Proof.Machine

theorem State.x_lt (s : State) (r : Reg) : s.x r < R := by
  rw [R_eq]; exact BitVec.isLt _

theorem State.x_setX (s : State) (r q : Reg) (v : Nat) : (s.setX r v).x q = if r = q then v % R else s.x q := by
  simp only [State.x, State.setX]
  split
  · subst_vars; rw [R_eq]; exact (congrArg BitVec.toNat (Vector.getElem_set_self _)).trans (BitVec.toNat_ofNat _ _)
  · rename_i h; simp [Fin.val_inj, h]

/-- A register reads back the value written to it. -/
theorem State.x_setX_self (s : State) (r : Reg) {v : Nat} (hv : v < R) : (s.setX r v).x r = v := by
  rw [State.x_setX, if_pos rfl, Nat.mod_eq_of_lt hv]

/-- A write to one register leaves the others alone (`10_state.md` R22). -/
theorem State.x_setX_ne (s : State) {r q : Reg} (v : Nat) (h : q ≠ r) : (s.setX r v).x q = s.x q := by
  rw [State.x_setX, if_neg (Ne.symm h)]

/-- Every register reads ZERO at reset (`10_state.md` R38). -/
@[simp] theorem State.reset_x (r : Reg) : State.reset.x r = 0 := by
  simp only [State.x, State.reset]; exact congrArg BitVec.toNat (Vector.getElem_replicate _)

theorem State.dbufInt_lt (s : State) : s.dbufInt < 256 ^ 32 := Memory.load_lt _ _ _

/-- DBUF holds the low 256 bits of the value stored (`40_data_movement.md` R101). -/
theorem State.dbufInt_setDbuf (s : State) (h : s.dbuf.wf = true) (v : Nat) :
    (s.setDbuf v).dbufInt = v % 256 ^ 32 := Memory.load_store h (le_refl _)

theorem Completed.of_commit (s t : State) (h : t.cmdcnt = s.cmdcnt) (hp : t.pend = s.pend) (hf : t.fault = s.fault)
    (hc : t.fcode = s.fcode) (ho : t.ovr = s.ovr) (he : t.env = s.env) : Completed s t.commit :=
  ⟨by rw [State.commit_cmdcnt, h], rfl, hp, hf, hc, ho, he⟩

/-- Writing back completes the command and its only effect is the destination register. -/
theorem writeBack_spec (s : State) (rd : Reg) {v : Nat} (hv : v < R) :
    ∃ t, writeBack rd v s = .next t ∧ WritesReg s t rd v :=
  ⟨_, rfl, ⟨.of_commit _ _ rfl rfl rfl rfl rfl rfl, State.x_setX_self s rd hv, fun _ h => State.x_setX_ne s v h, rfl, rfl,
    fun _ => rfl⟩⟩

/-- Writing the choice flag completes the command and its only effect is CF. -/
theorem writeChoice_spec (s : State) (b : Bool) : ∃ t, writeChoice b s = .next t ∧ WritesCf s t b :=
  ⟨_, rfl, ⟨.of_commit _ _ rfl rfl rfl rfl rfl rfl, rfl, fun _ => rfl, rfl, fun _ => rfl⟩⟩

/-- Writing back after setting CF. -/
theorem writeBack_setCf_spec (s : State) (rd : Reg) (b : Bool) {v : Nat} (hv : v < R) :
    ∃ t, writeBack rd v (s.setCf b) = .next t ∧ WritesRegCf s t rd v b :=
  ⟨_, rfl, ⟨.of_commit _ _ rfl rfl rfl rfl rfl rfl, State.x_setX_self _ rd hv, fun _ h => State.x_setX_ne _ v h, rfl, rfl,
    fun _ => rfl⟩⟩

/-- Writing back after setting VF. -/
theorem writeBack_setVf_spec (s : State) (rd : Reg) (b : Bool) {v : Nat} (hv : v < R) :
    ∃ t, writeBack rd v (s.setVf b) = .next t ∧ WritesRegVf s t rd v b :=
  ⟨_, rfl, ⟨.of_commit _ _ rfl rfl rfl rfl rfl rfl, State.x_setX_self _ rd hv, fun _ h => State.x_setX_ne _ v h, rfl, rfl,
    fun _ => rfl⟩⟩

/-- Raising a fault is a next state that differs in FAULT, FCODE and BUSY only (`60_exceptions.md` R301). -/
theorem raise_spec (s : State) (c : FaultCode) : ∃ t, raise c s = .next t ∧ Faulted s t c :=
  ⟨_, rfl, ⟨rfl, rfl, rfl, fun _ => rfl, rfl, rfl, fun _ => rfl, rfl, rfl, rfl, rfl⟩⟩

/-- A fault code is one of 1 to 4 (`60_exceptions.md` R300). -/
theorem FaultCode.code_range (c : FaultCode) : c.code ≠ 0 ∧ c.code.toNat ≤ 4 := by cases c <;> decide

/-- The codes tell the faults apart. -/
theorem FaultCode.code_inj {c c' : FaultCode} (h : c.code = c'.code) : c = c' := by
  cases c <;> cases c' <;> first | rfl | (revert h; decide)

end Sys2Proof.Machine
end

