-- ==== Sys2Proof/Laws/PerInstr.lean ====
section
/-! SUPPORT. The family EncodedFields: for every command, what its word holds in each field (`30_encoding.md` R80, R82,
R83), one lemma per constructor. -/

namespace Sys2Proof.Laws

/-- The CMD value of a command: its high half is zero, its fields are the command's opcode and operands, an unused field
is zero, the operands rebuild the command, and the decoder's immediate check is the command's well-formedness. -/
def EncodedFields.Statement (i : Instr) : Prop :=
  highField (cmdValue (encode i)) = 0 ∧ opField (cmdValue (encode i)) = i.op.code ∧
    operandFields (cmdValue (encode i)) = i.operands ∧ i.op.form.unusedZero i.operands = true ∧
    i.op.build i.operands = i ∧ i.op.immLegal i.operands.imm = i.wellFormed

/-- What holds of every command's fields alike. -/
theorem EncodedFields.of_parts (i : Instr) (hz : i.op.form.unusedZero i.operands = true) (hb : i.op.build i.operands = i)
    (hw : i.op.immLegal i.operands.imm = i.wellFormed) : EncodedFields.Statement i :=
  ⟨highField_cmdValue _, opField_commandWord _ _ _ _ _, operandFields_commandWord _ _ _ _ _, hz, hb, hw⟩

theorem EncodedFields.ldb (rd : Reg) : EncodedFields.Statement (.ldb rd) :=
  EncodedFields.of_parts _ rfl rfl rfl

theorem EncodedFields.stb (rs1 : Reg) : EncodedFields.Statement (.stb rs1) :=
  EncodedFields.of_parts _ rfl rfl rfl

theorem EncodedFields.ldu (rd : Reg) (imm : Imm) : EncodedFields.Statement (.ldu rd imm) :=
  EncodedFields.of_parts _ rfl rfl rfl

theorem EncodedFields.ldi (rd : Reg) (imm : Imm) : EncodedFields.Statement (.ldi rd imm) :=
  EncodedFields.of_parts _ rfl rfl rfl

theorem EncodedFields.ldc (rd : Reg) (imm : Imm) : EncodedFields.Statement (.ldc rd imm) :=
  EncodedFields.of_parts _ rfl rfl rfl

theorem EncodedFields.mov (rd rs1 : Reg) : EncodedFields.Statement (.mov rd rs1) :=
  EncodedFields.of_parts _ rfl rfl rfl

theorem EncodedFields.csel (rd rs1 rs2 : Reg) : EncodedFields.Statement (.csel rd rs1 rs2) :=
  EncodedFields.of_parts _ rfl rfl rfl

theorem EncodedFields.cneg (rd rs1 : Reg) : EncodedFields.Statement (.cneg rd rs1) :=
  EncodedFields.of_parts _ rfl rfl rfl

theorem EncodedFields.cfop (imm : Imm) : EncodedFields.Statement (.cfop imm) :=
  EncodedFields.of_parts _ rfl rfl rfl

theorem EncodedFields.add (rd rs1 rs2 : Reg) : EncodedFields.Statement (.add rd rs1 rs2) :=
  EncodedFields.of_parts _ rfl rfl rfl

theorem EncodedFields.sub (rd rs1 rs2 : Reg) : EncodedFields.Statement (.sub rd rs1 rs2) :=
  EncodedFields.of_parts _ rfl rfl rfl

theorem EncodedFields.neg (rd rs1 : Reg) : EncodedFields.Statement (.neg rd rs1) :=
  EncodedFields.of_parts _ rfl rfl rfl

theorem EncodedFields.halfw (rd rs1 : Reg) : EncodedFields.Statement (.halfw rd rs1) :=
  EncodedFields.of_parts _ rfl rfl rfl

theorem EncodedFields.half (rd rs1 : Reg) : EncodedFields.Statement (.half rd rs1) :=
  EncodedFields.of_parts _ rfl rfl rfl

theorem EncodedFields.iseven (rs1 : Reg) : EncodedFields.Statement (.iseven rs1) :=
  EncodedFields.of_parts _ rfl rfl rfl

theorem EncodedFields.ispos (rs1 : Reg) : EncodedFields.Statement (.ispos rs1) :=
  EncodedFields.of_parts _ rfl rfl rfl

theorem EncodedFields.eq (rs1 rs2 : Reg) : EncodedFields.Statement (.eq rs1 rs2) :=
  EncodedFields.of_parts _ rfl rfl rfl

theorem EncodedFields.mul (rd rs1 rs2 : Reg) : EncodedFields.Statement (.mul rd rs1 rs2) :=
  EncodedFields.of_parts _ rfl rfl rfl

theorem EncodedFields.sqr (rd rs1 : Reg) : EncodedFields.Statement (.sqr rd rs1) :=
  EncodedFields.of_parts _ rfl rfl rfl

theorem EncodedFields.mmul (rd rs1 rs2 : Reg) : EncodedFields.Statement (.mmul rd rs1 rs2) :=
  EncodedFields.of_parts _ rfl rfl rfl

theorem EncodedFields.msqr (rd rs1 : Reg) : EncodedFields.Statement (.msqr rd rs1) :=
  EncodedFields.of_parts _ rfl rfl rfl

theorem EncodedFields.tomont (rd rs1 : Reg) : EncodedFields.Statement (.tomont rd rs1) :=
  EncodedFields.of_parts _ rfl rfl rfl

theorem EncodedFields.frommont (rd rs1 : Reg) : EncodedFields.Statement (.frommont rd rs1) :=
  EncodedFields.of_parts _ rfl rfl rfl

theorem EncodedFields.pow (rd rs1 rs2 : Reg) : EncodedFields.Statement (.pow rd rs1 rs2) :=
  EncodedFields.of_parts _ rfl rfl rfl

theorem EncodedFields.inv (rd rs1 : Reg) : EncodedFields.Statement (.inv rd rs1) :=
  EncodedFields.of_parts _ rfl rfl rfl

theorem EncodedFields.div (rd rs1 rs2 : Reg) : EncodedFields.Statement (.div rd rs1 rs2) :=
  EncodedFields.of_parts _ rfl rfl rfl

theorem EncodedFields.leg (rs1 : Reg) : EncodedFields.Statement (.leg rs1) :=
  EncodedFields.of_parts _ rfl rfl rfl

theorem EncodedFields.sqrt (rd rs1 : Reg) (imm : Imm) : EncodedFields.Statement (.sqrt rd rs1 imm) :=
  EncodedFields.of_parts _ rfl rfl rfl

theorem EncodedFields.sqrtr (rd rs1 rs2 : Reg) : EncodedFields.Statement (.sqrtr rd rs1 rs2) :=
  EncodedFields.of_parts _ rfl rfl rfl

theorem EncodedFields.twopow (rd : Reg) (imm : Imm) : EncodedFields.Statement (.twopow rd imm) :=
  EncodedFields.of_parts _ rfl rfl rfl

end Sys2Proof.Laws
end

