-- ==== Sys2Proof/Laws/Prime.lean ====
section
/-! SUPPORT. The modulus L is prime (`00_scope.md` R1), by a Pratt certificate whose powers the exponentiation loop
computes. -/

namespace Sys2Proof.Machine

-- One theorem at a time: a thread for each kernel evaluation below would need too much memory.
set_option Elab.async false

/-- The loop's power as a power in ZMod p. -/
theorem powLoop_cast {p e : Nat} (he : e < 2 ^ 260) (g : Nat) :
    ((powLoop p 260 1 g e : Nat) : ZMod p) = (g : ZMod p) ^ e := by
  have h := powLoop_modEq p 260 1 g e he
  rw [Nat.one_mul] at h
  rw [(ZMod.natCast_eq_natCast_iff _ _ _).2 h, Nat.cast_pow]

/-- The check of one Pratt certificate: `fs` multiplies to p - 1, g^(p-1) is 1 and no g^((p-1)/f) is. -/
def prattCheck (p g : Nat) (fs : List Nat) : Bool :=
  decide (1 < p) && decide (p < 2 ^ 260) && decide (fs.prod = p - 1) && decide (powLoop p 260 1 g (p - 1) = 1) &&
    fs.all fun f => decide (powLoop p 260 1 g ((p - 1) / f) ≠ 1)

/-- A checked certificate over prime factors proves primality. -/
theorem prime_of_prattCheck {p g : Nat} {fs : List Nat} (h : prattCheck p g fs = true)
    (hfs : ∀ f ∈ fs, f.Prime) : p.Prime := by
  simp only [prattCheck, Bool.and_eq_true, decide_eq_true_eq, List.all_eq_true] at h
  obtain ⟨⟨⟨⟨h1, hR⟩, hprod⟩, hone⟩, hne⟩ := h
  refine lucas_primality p (g : ZMod p) ?_ ?_
  · rw [← powLoop_cast (by omega) g, hone, Nat.cast_one]
  · intro q hq hdvd
    rw [← hprod] at hdvd
    obtain ⟨f, hf, hqf⟩ := (Prime.dvd_prod_iff hq.prime).1 hdvd
    have hqf' : q = f := (Nat.prime_dvd_prime_iff_eq hq (hfs f hf)).1 hqf
    subst hqf'
    have hlt : (p - 1) / q < 2 ^ 260 := lt_of_le_of_lt (Nat.div_le_self _ _) (by omega)
    rw [← powLoop_cast hlt g, ← Nat.cast_one (R := ZMod p), Ne, ZMod.natCast_eq_natCast_iff]
    intro hc
    have hb := powLoop_lt (m := p) (by omega) 260 1 g ((p - 1) / q) h1
    exact hne q hf (Nat.ModEq.eq_of_lt_of_lt hc hb h1)

theorem prime_2 : Nat.Prime 2 := by norm_num

theorem prime_3 : Nat.Prime 3 := by norm_num

theorem prime_11 : Nat.Prime 11 := by norm_num

theorem prime_23 : Nat.Prime 23 := by norm_num

theorem prime_47 : Nat.Prime 47 := by norm_num

theorem prime_34123 : Nat.Prime 34123 :=
  prime_of_prattCheck (g := 2) (fs := [2, 3, 11, 11, 47]) (by decide +kernel)
    (by simp only [List.forall_mem_cons]; exact ⟨prime_2, prime_3, prime_11, prime_11, prime_47, by simp⟩)

theorem prime_409477 : Nat.Prime 409477 :=
  prime_of_prattCheck (g := 2) (fs := [2, 2, 3, 34123]) (by decide +kernel)
    (by simp only [List.forall_mem_cons]; exact ⟨prime_2, prime_2, prime_3, prime_34123, by simp⟩)

theorem prime_14741173 : Nat.Prime 14741173 :=
  prime_of_prattCheck (g := 2) (fs := [2, 2, 3, 3, 409477]) (by decide +kernel)
    (by simp only [List.forall_mem_cons]; exact ⟨prime_2, prime_2, prime_3, prime_3, prime_409477, by simp⟩)

theorem prime_58964693 : Nat.Prime 58964693 :=
  prime_of_prattCheck (g := 2) (fs := [2, 2, 14741173]) (by decide +kernel)
    (by simp only [List.forall_mem_cons]; exact ⟨prime_2, prime_2, prime_14741173, by simp⟩)

theorem prime_7 : Nat.Prime 7 := by norm_num

theorem prime_17 : Nat.Prime 17 := by norm_num

theorem prime_43 : Nat.Prime 43 := by norm_num

theorem prime_30703 : Nat.Prime 30703 :=
  prime_of_prattCheck (g := 3) (fs := [2, 3, 7, 17, 43]) (by decide +kernel)
    (by simp only [List.forall_mem_cons]; exact ⟨prime_2, prime_3, prime_7, prime_17, prime_43, by simp⟩)

theorem prime_5 : Nat.Prime 5 := by norm_num

theorem prime_13 : Nat.Prime 13 := by norm_num

theorem prime_79 : Nat.Prime 79 := by norm_num

theorem prime_41081 : Nat.Prime 41081 :=
  prime_of_prattCheck (g := 3) (fs := [2, 2, 2, 5, 13, 79]) (by decide +kernel)
    (by simp only [List.forall_mem_cons]; exact ⟨prime_2, prime_2, prime_2, prime_5, prime_13, prime_79, by simp⟩)

theorem prime_82163 : Nat.Prime 82163 :=
  prime_of_prattCheck (g := 2) (fs := [2, 41081]) (by decide +kernel)
    (by simp only [List.forall_mem_cons]; exact ⟨prime_2, prime_41081, by simp⟩)

theorem prime_67 : Nat.Prime 67 := by norm_num

theorem prime_22111 : Nat.Prime 22111 :=
  prime_of_prattCheck (g := 6) (fs := [2, 3, 5, 11, 67]) (by decide +kernel)
    (by simp only [List.forall_mem_cons]; exact ⟨prime_2, prime_3, prime_5, prime_11, prime_67, by simp⟩)

theorem prime_132667 : Nat.Prime 132667 :=
  prime_of_prattCheck (g := 5) (fs := [2, 3, 22111]) (by decide +kernel)
    (by simp only [List.forall_mem_cons]; exact ⟨prime_2, prime_3, prime_22111, by simp⟩)

theorem prime_17231 : Nat.Prime 17231 := by norm_num

theorem prime_137849 : Nat.Prime 137849 :=
  prime_of_prattCheck (g := 3) (fs := [2, 2, 2, 17231]) (by decide +kernel)
    (by simp only [List.forall_mem_cons]; exact ⟨prime_2, prime_2, prime_2, prime_17231, by simp⟩)

theorem prime_3044861653679985063343 : Nat.Prime 3044861653679985063343 :=
  prime_of_prattCheck (g := 5) (fs := [2, 3, 11, 30703, 82163, 132667, 137849]) (by decide +kernel)
    (by simp only [List.forall_mem_cons]; exact ⟨prime_2, prime_3, prime_11, prime_30703, prime_82163, prime_132667, prime_137849, by simp⟩)

theorem prime_198211423230930754013084525763697 : Nat.Prime 198211423230930754013084525763697 :=
  prime_of_prattCheck (g := 5) (fs := [2, 2, 2, 2, 3, 23, 58964693, 3044861653679985063343]) (by decide +kernel)
    (by simp only [List.forall_mem_cons]; exact ⟨prime_2, prime_2, prime_2, prime_2, prime_3, prime_23, prime_58964693, prime_3044861653679985063343, by simp⟩)

theorem prime_269 : Nat.Prime 269 := by norm_num

theorem prime_73 : Nat.Prime 73 := by norm_num

theorem prime_307 : Nat.Prime 307 := by norm_num

theorem prime_5879 : Nat.Prime 5879 := by norm_num

theorem prime_292386187 : Nat.Prime 292386187 :=
  prime_of_prattCheck (g := 2) (fs := [2, 3, 3, 3, 3, 307, 5879]) (by decide +kernel)
    (by simp only [List.forall_mem_cons]; exact ⟨prime_2, prime_3, prime_3, prime_3, prime_3, prime_307, prime_5879, by simp⟩)

theorem prime_213441916511 : Nat.Prime 213441916511 :=
  prime_of_prattCheck (g := 13) (fs := [2, 5, 73, 292386187]) (by decide +kernel)
    (by simp only [List.forall_mem_cons]; exact ⟨prime_2, prime_5, prime_73, prime_292386187, by simp⟩)

theorem prime_1361 : Nat.Prime 1361 := by norm_num

theorem prime_2851 : Nat.Prime 2851 := by norm_num

theorem prime_41 : Nat.Prime 41 := by norm_num

theorem prime_3797 : Nat.Prime 3797 := by norm_num

theorem prime_531581 : Nat.Prime 531581 :=
  prime_of_prattCheck (g := 2) (fs := [2, 2, 5, 7, 3797]) (by decide +kernel)
    (by simp only [List.forall_mem_cons]; exact ⟨prime_2, prime_2, prime_5, prime_7, prime_3797, by simp⟩)

theorem prime_2551 : Nat.Prime 2551 := by norm_num

theorem prime_1224481 : Nat.Prime 1224481 :=
  prime_of_prattCheck (g := 13) (fs := [2, 2, 2, 2, 2, 3, 5, 2551]) (by decide +kernel)
    (by simp only [List.forall_mem_cons]; exact ⟨prime_2, prime_2, prime_2, prime_2, prime_2, prime_3, prime_5, prime_2551, by simp⟩)

theorem prime_1257559732178653 : Nat.Prime 1257559732178653 :=
  prime_of_prattCheck (g := 2) (fs := [2, 2, 3, 7, 23, 531581, 1224481]) (by decide +kernel)
    (by simp only [List.forall_mem_cons]; exact ⟨prime_2, prime_2, prime_3, prime_7, prime_23, prime_531581, prime_1224481, by simp⟩)

theorem prime_4434155615661930479 : Nat.Prime 4434155615661930479 :=
  prime_of_prattCheck (g := 17) (fs := [2, 41, 43, 1257559732178653]) (by decide +kernel)
    (by simp only [List.forall_mem_cons]; exact ⟨prime_2, prime_41, prime_43, prime_1257559732178653, by simp⟩)

theorem prime_172054593956031949258510691 : Nat.Prime 172054593956031949258510691 :=
  prime_of_prattCheck (g := 2) (fs := [2, 5, 1361, 2851, 4434155615661930479]) (by decide +kernel)
    (by simp only [List.forall_mem_cons]; exact ⟨prime_2, prime_5, prime_1361, prime_2851, prime_4434155615661930479, by simp⟩)

theorem prime_19757330305831588566944191468367130476339 : Nat.Prime 19757330305831588566944191468367130476339 :=
  prime_of_prattCheck (g := 2) (fs := [2, 269, 213441916511, 172054593956031949258510691]) (by decide +kernel)
    (by simp only [List.forall_mem_cons]; exact ⟨prime_2, prime_269, prime_213441916511, prime_172054593956031949258510691, by simp⟩)

theorem prime_276602624281642239937218680557139826668747 : Nat.Prime 276602624281642239937218680557139826668747 :=
  prime_of_prattCheck (g := 2) (fs := [2, 7, 19757330305831588566944191468367130476339]) (by decide +kernel)
    (by simp only [List.forall_mem_cons]; exact ⟨prime_2, prime_7, prime_19757330305831588566944191468367130476339, by simp⟩)

/-- The modulus is prime (`00_scope.md` R1). -/
theorem L_prime : Nat.Prime L :=
  prime_of_prattCheck (g := 2) (fs := [2, 2, 3, 11, 198211423230930754013084525763697, 276602624281642239937218680557139826668747]) (by decide +kernel)
    (by simp only [List.forall_mem_cons]; exact ⟨prime_2, prime_2, prime_3, prime_11, prime_198211423230930754013084525763697, prime_276602624281642239937218680557139826668747, by simp⟩)

end Sys2Proof.Machine
end

