-- ==== Sys2Proof/Laws/Roots.lean ====
section
/-! SUPPORT. What the inverse, the residue test and the root compute: the specifications of `inv_L`, `QR` and `ROOT`
(`00_scope.md` R7, `44_residue_roots.md`), from the primality of L. -/

namespace Sys2Proof.Machine

-- One theorem at a time: a thread for each kernel evaluation below would need too much memory.
set_option Elab.async false

theorem L_sub_two_lt : L - 2 < R := by decide +kernel

theorem halfBound_lt_R : K.halfBound < R := by decide +kernel

theorem coprime_of_canonical {a : Nat} (h0 : 0 < a) (h : a < L) : Nat.Coprime a L :=
  (Nat.coprime_of_lt_prime h0.ne' h L_prime).symm

/-- Fermat's little theorem at L. -/
theorem pow_L_sub_one {a : Nat} (h0 : 0 < a) (h : a < L) : a ^ (L - 1) ≡ 1 [MOD L] := by
  have := Nat.ModEq.pow_totient (coprime_of_canonical h0 h)
  rwa [Nat.totient_prime L_prime] at this

/-- inv_L(a) is an inverse: a * inv_L(a) mod L = 1 (`00_scope.md` R7). -/
theorem mul_invL {a : Nat} (h0 : 0 < a) (h : a < L) : a * invL a % L = 1 := by
  have h1 : a * invL a ≡ a ^ (L - 1) [MOD L] := by
    have he : a ^ (L - 1) = a * a ^ (L - 2) := by
      conv_lhs => rw [show L - 1 = (L - 2) + 1 by have := one_lt_L; omega, pow_succ, Nat.mul_comm]
    rw [invL, powF_eq L_sub_two_lt, he]
    exact (Nat.mod_modEq _ _).mul_left _
  have h2 := h1.trans (pow_L_sub_one h0 h)
  have h3 : a * invL a % L = 1 % L := h2
  rwa [Nat.mod_eq_of_lt one_lt_L] at h3

theorem invL_lt (a : Nat) : invL a < L := powF_lt a _

theorem invL_pos {a : Nat} (h0 : 0 < a) (h : a < L) : 0 < invL a := by
  by_contra hc
  have hz : invL a = 0 := by omega
  have := mul_invL h0 h
  rw [hz, Nat.mul_zero, Nat.zero_mod] at this
  exact absurd this (by decide)

/-- inv_L(a) is the only inverse below L (`00_scope.md` R7). -/
theorem eq_invL {a b : Nat} (h0 : 0 < a) (h : a < L) (hb : b < L) (hab : a * b % L = 1) : b = invL a := by
  have h1 : a * b ≡ a * invL a [MOD L] := hab.trans (mul_invL h0 h).symm
  exact (Nat.ModEq.cancel_left_of_coprime (coprime_of_canonical h0 h).symm h1).eq_of_lt_of_lt hb (invL_lt a)

theorem cast_minusOne : ((L - 1 : Nat) : ZMod L) = -1 := by
  rw [Nat.cast_sub L_pos]; simp

theorem cast_eq_iff {a b : Nat} (ha : a < L) (hb : b < L) : (a : ZMod L) = b ↔ a = b :=
  ⟨fun h => ((ZMod.natCast_eq_natCast_iff _ _ _).1 h).eq_of_lt_of_lt ha hb, fun h => by rw [h]⟩

theorem cast_powF {e : Nat} (he : e < R) (a : Nat) : ((powF a e : Nat) : ZMod L) = (a : ZMod L) ^ e := by
  rw [powF_eq he, ZMod.natCast_mod, Nat.cast_pow]

theorem cast_mulF {a b : Nat} (ha : a < R) (hb : b < R) : ((mulF a b : Nat) : ZMod L) = (a : ZMod L) * b := by
  rw [mulF_eq ha hb, ZMod.natCast_mod, Nat.cast_mul]

theorem L_div_two : L / 2 = K.halfBound := by decide +kernel

theorem cast_ne_zero {a : Nat} (h0 : 0 < a) (h : a < L) : (a : ZMod L) ≠ 0 := by
  intro hc
  have h2 : (a : ZMod L) = ((0 : Nat) : ZMod L) := by rw [hc, Nat.cast_zero]
  have := (cast_eq_iff h L_pos).1 h2
  omega

/-- QR by its formula: the power (L - 1) / 2 is 1 in ZMod L. -/
theorem isQR_iff_pow {x : Nat} : isQR x = true ↔ (x : ZMod L) ^ K.halfBound = 1 := by
  rw [isQR, decide_eq_true_eq, ← cast_powF halfBound_lt_R]
  have h := cast_eq_iff (powF_lt x K.halfBound) one_lt_L
  rw [Nat.cast_one] at h
  exact h.symm

/-- QR(x) is 1 iff the non-zero canonical x is a square modulo L: Euler's criterion (`44_residue_roots.md`,
`00_scope.md` R7). -/
theorem isQR_iff_square {x : Nat} (h0 : 0 < x) (h : x < L) : isQR x = true ↔ ∃ b, b * b % L = x := by
  have := Fact.mk L_prime
  rw [isQR_iff_pow, ← L_div_two, ← ZMod.euler_criterion L (cast_ne_zero h0 h)]
  constructor
  · rintro ⟨c, hc⟩
    refine ⟨c.val, ?_⟩
    rw [← cast_eq_iff (Nat.mod_lt _ L_pos) h, ZMod.natCast_mod, Nat.cast_mul, ZMod.natCast_zmod_val, hc]
  · rintro ⟨b, hb⟩
    refine ⟨(b : ZMod L), ?_⟩
    rw [← hb, ZMod.natCast_mod, Nat.cast_mul]

theorem zero_not_isQR : isQR 0 = false := by decide +kernel

/-- The power (L - 1) / 2 of a non-zero canonical value is 1 or -1. -/
theorem pow_halfBound_cases {x : Nat} (h0 : 0 < x) (h : x < L) :
    (x : ZMod L) ^ K.halfBound = 1 ∨ (x : ZMod L) ^ K.halfBound = -1 := by
  have := Fact.mk L_prime
  rw [← sq_eq_one_iff, ← pow_mul, show K.halfBound * 2 = L - 1 by have := halfBound_double; omega]
  exact ZMod.pow_card_sub_one_eq_one (cast_ne_zero h0 h)

theorem tsQ_lt_R : K.tsQ < R := by decide +kernel

theorem tsQ_half_lt_R : (K.tsQ + 1) / 2 < R := by decide +kernel

theorem tsQ_half_double : (K.tsQ + 1) / 2 * 2 = K.tsQ + 1 := by decide +kernel

theorem tsQ_double : K.tsQ * 2 = K.halfBound := by decide +kernel

/-- The generator c of R254 is SQRT_M1_NEG, as `10_state.md` R34 says. -/
theorem ts_generator : powF K.tsZ K.tsQ = K.sqrtM1Neg := by decide +kernel

theorem sqrtM1Neg_sq : (K.sqrtM1Neg : ZMod L) * K.sqrtM1Neg = -1 := by
  rw [← cast_minusOne, ← Nat.cast_mul, ZMod.natCast_eq_natCast_iff]
  show K.sqrtM1Neg * K.sqrtM1Neg % L = (L - 1) % L
  decide +kernel

theorem sqrtM1Neg_lt_R : K.sqrtM1Neg < R := by decide +kernel

/-- One turn of the loop on t = 1 answers x. -/
theorem tsLoop_one (x : Nat) : tsLoop K.tsS x 1 K.sqrtM1Neg K.tsS = x := by
  simp [tsLoop, K.tsS]

/-- The loop on t = -1 answers x * c. -/
theorem tsLoop_minusOne (x : Nat) : tsLoop K.tsS x (L - 1) K.sqrtM1Neg K.tsS = mulF x K.sqrtM1Neg := by
  have h1 : L - 1 ≠ 1 := by decide +kernel
  have h2 : tsLeast 2 (L - 1) = 1 := by decide +kernel
  have h3 : powF K.sqrtM1Neg (2 ^ (2 - 1 - 1)) = K.sqrtM1Neg := by decide +kernel
  have h4 : mulF (L - 1) (mulF K.sqrtM1Neg K.sqrtM1Neg) = 1 := by decide +kernel
  simp only [tsLoop, K.tsS, if_neg h1, h2, h3, h4, if_true]

/-- Tonelli–Shanks answers a square root of every quadratic residue (`44_residue_roots.md` R254). -/
theorem tsRoot_sq {a : Nat} (hq : isQR a = true) : ((tsRoot a : Nat) : ZMod L) * (tsRoot a : Nat) = a := by
  have := Fact.mk L_prime
  have hpow := isQR_iff_pow.1 hq
  have hx : ((powF a ((K.tsQ + 1) / 2) : Nat) : ZMod L) * (powF a ((K.tsQ + 1) / 2) : Nat)
      = a * (a : ZMod L) ^ K.tsQ := by
    rw [cast_powF tsQ_half_lt_R, ← pow_two, ← pow_mul, tsQ_half_double, pow_succ, mul_comm]
  have ht : ((powF a K.tsQ : Nat) : ZMod L) = (a : ZMod L) ^ K.tsQ := cast_powF tsQ_lt_R a
  have ht2 : ((a : ZMod L) ^ K.tsQ) ^ 2 = 1 := by rw [← pow_mul, tsQ_double, hpow]
  rw [tsRoot, ts_generator]
  rcases sq_eq_one_iff.1 ht2 with h | h
  · have h1 : powF a K.tsQ = 1 := by
      rw [← cast_eq_iff (powF_lt _ _) one_lt_L, ht, h, Nat.cast_one]
    rw [h1, tsLoop_one, hx, h, mul_one]
  · have h1 : powF a K.tsQ = L - 1 := by
      rw [← cast_eq_iff (powF_lt _ _) (Nat.sub_lt L_pos one_pos), ht, h, cast_minusOne]
    rw [h1, tsLoop_minusOne, cast_mulF ((powF_lt _ _).trans L_lt_R) sqrtM1Neg_lt_R,
      mul_mul_mul_comm, hx, sqrtM1Neg_sq, h]
    ring

theorem tsRoot_lt {a : Nat} (hq : isQR a = true) : tsRoot a < L := by
  have := Fact.mk L_prime
  have ht2 : ((a : ZMod L) ^ K.tsQ) ^ 2 = 1 := by rw [← pow_mul, tsQ_double, isQR_iff_pow.1 hq]
  have ht : ((powF a K.tsQ : Nat) : ZMod L) = (a : ZMod L) ^ K.tsQ := cast_powF tsQ_lt_R a
  rw [tsRoot, ts_generator]
  rcases sq_eq_one_iff.1 ht2 with h | h
  · have h1 : powF a K.tsQ = 1 := by
      rw [← cast_eq_iff (powF_lt _ _) one_lt_L, ht, h, Nat.cast_one]
    rw [h1, tsLoop_one]; exact powF_lt _ _
  · have h1 : powF a K.tsQ = L - 1 := by
      rw [← cast_eq_iff (powF_lt _ _) (Nat.sub_lt L_pos one_pos), ht, h, cast_minusOne]
    rw [h1, tsLoop_minusOne]; exact mulF_lt ((powF_lt _ _).trans L_lt_R) sqrtM1Neg_lt_R

/-- ROOT(x) is non-negative (`44_residue_roots.md`). -/
theorem rootF_le {x : Nat} (hq : isQR x = true) : rootF x ≤ K.halfBound := by
  have h1 := tsRoot_lt hq
  have h2 := halfBound_double
  simp only [rootF]; split <;> omega

/-- ROOT(x) is a square root of x (`44_residue_roots.md`). -/
theorem rootF_sq {x : Nat} (hq : isQR x = true) (hx : x < L) : rootF x * rootF x % L = x := by
  have h := tsRoot_sq hq
  have h1 := tsRoot_lt hq
  rw [← cast_eq_iff (Nat.mod_lt _ L_pos) hx, ZMod.natCast_mod, Nat.cast_mul, rootF]
  split
  · exact h
  · rw [Nat.cast_sub h1.le, ← h, ZMod.natCast_self]; ring

/-- A square root of x is ROOT(x) or its negation. -/
theorem root_unique {x r r' : Nat} (hr : r * r % L = x) (hr' : r' * r' % L = x) (h1 : r ≤ K.halfBound)
    (h2 : r' ≤ K.halfBound) : r = r' := by
  have := Fact.mk L_prime
  have hb := halfBound_double
  have hc : (r : ZMod L) * r = (r' : ZMod L) * r' := by
    rw [← Nat.cast_mul, ← Nat.cast_mul, ZMod.natCast_eq_natCast_iff]
    exact hr.trans hr'.symm
  rcases mul_self_eq_mul_self_iff.1 hc with h | h
  · exact (cast_eq_iff (by omega) (by omega)).1 h
  · have h3 : ((r + r' : Nat) : ZMod L) = ((0 : Nat) : ZMod L) := by rw [Nat.cast_add, h]; simp
    have := (cast_eq_iff (by omega) L_pos).1 h3
    omega

theorem rootF_pos {x : Nat} (hq : isQR x = true) (h0 : 0 < x) (hx : x < L) : 0 < rootF x := by
  by_contra hc
  have hz : rootF x = 0 := by omega
  have := rootF_sq hq hx
  rw [hz, Nat.mul_zero, Nat.zero_mod] at this
  omega

theorem cast_sqrtM1_pow : (K.sqrtM1 : ZMod L) ^ K.halfBound = -1 := by
  have h : powF K.sqrtM1 K.halfBound = L - 1 := by
    unfold K.sqrtM1; split <;> decide +kernel
  rw [← cast_powF halfBound_lt_R, ← cast_minusOne, h]

theorem sqrtM1_sq : K.sqrtM1 * K.sqrtM1 % L = L - 1 := by
  unfold K.sqrtM1; split <;> decide +kernel

/-- SQRT_M1 times a non-residue is a residue, so SQRTR's last branch has a root (`44_residue_roots.md` R252). -/
theorem sqrtM1_mul_isQR {w : Nat} (h0 : 0 < w) (hw : w < L) (hq : isQR w = false) : isQR (mulF K.sqrtM1 w) = true := by
  have h1 : (w : ZMod L) ^ K.halfBound ≠ 1 := fun h => by rw [isQR_iff_pow.2 h] at hq; exact absurd hq (by decide)
  have h2 := (pow_halfBound_cases h0 hw).resolve_left h1
  rw [isQR_iff_pow, cast_mulF (sqrtM1_lt.trans L_lt_R) (hw.trans L_lt_R), mul_pow, cast_sqrtM1_pow, h2]
  ring

/-- u/v for canonical u and v, v ≠ 0: it times v is u. -/
theorem ratio_mul {u v : Nat} (hu : u < L) (h0 : 0 < v) (hv : v < L) :
    ((mulF u (invL v) : Nat) : ZMod L) * v = u := by
  have h := mul_invL h0 hv
  have h2 : (v : ZMod L) * (invL v : Nat) = 1 := by
    rw [← Nat.cast_mul, ← Nat.cast_one, ZMod.natCast_eq_natCast_iff]
    show v * invL v % L = 1 % L
    rw [h, Nat.mod_eq_of_lt one_lt_L]
  rw [cast_mulF (hu.trans L_lt_R) ((invL_lt v).trans L_lt_R), mul_assoc, mul_comm ((invL v : Nat) : ZMod L), h2, mul_one]

end Sys2Proof.Machine
end

