-- ==== Sys2Proof/Laws/Step.lean ====
section
/-! SUPPORT. What one step can do, said once: a completion or a turn of the outside world, and what each event of the
outside world does (`20_memory.md` R60). Later proofs cite these instead of unfolding the step. -/

namespace Sys2Proof.Machine

theorem step_ready {s : State} (h : s.ready = true) : step s = completePending s := by
  rw [step, if_pos h]

theorem step_not_ready {s : State} (h : s.ready = false) : step s = hostTurn s := by
  rw [step, if_neg (by rw [h]; exact Bool.false_ne_true)]

theorem State.ready_iff {s : State} : s.ready = true ↔ s.busy = true ∧ s.env.latLeft = 0 := by
  rw [State.ready, Bool.and_eq_true, decide_eq_true_eq]

theorem completePending_ok {s : State} {i : Instr} (h : decode s.pend = .ok i) : completePending s = exec i s := by
  simp only [completePending, State.fetch, h]

theorem completePending_illegal {s : State} {why : Illegal} (h : decode s.pend = .illegal why) :
    completePending s = raise .illegal s := by
  simp only [completePending, State.fetch, h]

/-- A next state of a step comes from the completion that is due, or from a turn of the outside world. -/
theorem step_cases {s s' : State} (h : step s = .next s') :
    (s.ready = true ∧ completePending s = .next s') ∨ (s.ready = false ∧ hostTurn s = .next s') := by
  cases hr : s.ready with
  | true => exact .inl ⟨rfl, (step_ready hr) ▸ h⟩
  | false => exact .inr ⟨rfl, (step_not_ready hr) ▸ h⟩

/-- What a completion can be: the decoded command's, or the fault E_ILLEGAL. -/
theorem completePending_cases {s s' : State} (h : completePending s = .next s') :
    (∃ i, decode s.pend = .ok i ∧ exec i s = .next s') ∨
    ((∃ why, decode s.pend = .illegal why) ∧ s' = s.takeFault .illegal) := by
  cases hd : decode s.pend with
  | ok i => exact .inl ⟨i, rfl, (completePending_ok hd) ▸ h⟩
  | illegal why =>
    rw [completePending_illegal hd, raise] at h
    injection h with h
    exact .inr ⟨⟨why, rfl⟩, h.symm⟩

/-- What a turn of the outside world can be. -/
theorem hostTurn_cases {s s' : State} (h : hostTurn s = .next s') :
    (s.env.inputs = [] ∧ s' = s.tick) ∨
    ∃ e rest, s.env.inputs = e :: rest ∧ portEvent e (s.tick.setInputs rest) = .next s' := by
  rw [hostTurn] at h
  split at h
  · rename_i hi; injection h with h; exact .inl ⟨hi, h.symm⟩
  · rename_i e rest hi; exact .inr ⟨e, rest, hi, h⟩

/-- What an event of the outside world can do. -/
theorem portEvent_cases {e : HostEvent} {s s' : State} (h : portEvent e s = .next s') :
    (e = .idle ∧ s' = s) ∨
    (∃ addr bits off, e = .read addr bits ∧ windowOffset addr = some off ∧ s' = readAt bits off s) ∨
    (∃ addr bits off v, e = .write addr bits v ∧ windowOffset addr = some off ∧ s' = writeAt bits off v s) ∨
    (e = .powerOnReset ∧ s' = s.toReset) := by
  cases e with
  | idle => injection h with h; exact .inl ⟨rfl, h.symm⟩
  | powerOnReset => injection h with h; exact .inr (.inr (.inr ⟨rfl, h.symm⟩))
  | read addr bits =>
    rw [portEvent] at h
    split at h
    · rename_i off ho; injection h with h; exact .inr (.inl ⟨addr, bits, off, rfl, ho, h.symm⟩)
    · exact absurd h (by intro hc; injection hc)
  | write addr bits v =>
    rw [portEvent] at h
    split at h
    · rename_i off ho; injection h with h; exact .inr (.inr (.inl ⟨addr, bits, off, v, rfl, ho, h.symm⟩))
    · exact absurd h (by intro hc; injection hc)

/-- A read changes nothing but the answer (`20_memory.md` R56). -/
theorem readAt_eq (bits off : Nat) (s : State) : ∃ r, readAt bits off s = s.answer r := by
  rw [readAt]; split <;> exact ⟨_, rfl⟩

/-- What a write to the port can do: nothing, drop, accept a command, reset, clear a fault, or store to DBUF
(`20_memory.md` R56). -/
theorem writePort_cases (p : PortReg) (v : Word) (s : State) :
    writePort p v s = s ∨ writePort p v s = s.dropWrite ∨
    (s.busy = false ∧ s.fault = false ∧ p = .cmd ∧ writePort p v s = s.accept v) ∨
    writePort p v s = s.toReset ∨ writePort p v s = s.clearFault ∨
    (s.busy = false ∧ ∃ i, p = .dbuf i ∧ writePort p v s = { s with dbuf := s.dbuf.store (8 * i) 8 v.toNat }) := by
  cases p with
  | cmd =>
    simp only [writePort, writeCmd]
    split
    · exact .inr (.inl rfl)
    · rename_i h
      rw [Bool.or_eq_true, not_or, Bool.not_eq_true, Bool.not_eq_true] at h
      exact .inr (.inr (.inl ⟨h.1, h.2, trivial, rfl⟩))
  | ctrl =>
    simp only [writePort, writeCtrl]
    split
    · exact .inr (.inr (.inr (.inl rfl)))
    · split
      · exact .inr (.inr (.inr (.inr (.inl rfl))))
      · exact .inl rfl
  | dbuf i =>
    simp only [writePort, writeDbuf]
    split
    · exact .inr (.inl rfl)
    · rename_i h
      rw [Bool.not_eq_true] at h
      exact .inr (.inr (.inr (.inr (.inr ⟨h, i, rfl, rfl⟩))))
  | id | status | cmdcnt | frview n j | reserved => exact .inl rfl

/-- A misaligned write or one of another width than 64 bits changes nothing but the answer (`20_memory.md` R53). -/
theorem writeAt_cases (bits off : Nat) (v : Word) (s : State) :
    writeAt bits off v s = s.answer .busError ∨
    (accessOk bits off = true ∧ writeAt bits off v s = (writePort (portReg off) v s).answer .done) := by
  rw [writeAt]; split
  · rename_i h; exact .inr ⟨h, rfl⟩
  · exact .inl rfl

/-- Offset o of the window is the platform address BASE + o (`20_memory.md` R50). -/
theorem windowOffset_base_add {o : Nat} (h : o < 0x1000) : windowOffset (Config.base + o) = some o := by
  rw [windowOffset, if_pos ⟨by omega, by omega⟩, Nat.add_sub_cancel_left]

theorem windowOffset_lt {addr off : Nat} (h : windowOffset addr = some off) : off < 0x1000 := by
  rw [windowOffset] at h
  split at h
  · rename_i hb; injection h with h; omega
  · injection h

/-- The four DBUF registers (`20_memory.md` R51). -/
theorem portReg_dbuf_lt {off i : Nat} (h : portReg off = .dbuf i) : i < 4 := by
  unfold portReg at h
  repeat' split at h
  all_goals first
    | (injection h with h; omega)
    | (injection h)

/-- BASE is 4096-byte aligned (`20_memory.md` R50). -/
theorem base_aligned : Config.base % 4096 = 0 := Nat.mul_mod_right _ _

end Sys2Proof.Machine
end

