-- ==== Sys2Proof/Laws/Results.lean ====
section
/-! SUPPORT. What the operations around the commands give, said once: the decoder on an encoded word, a port access as
a step, DBUF as a sum of bytes, and the range of every command's result. -/

namespace Sys2Proof.Machine

-- One theorem at a time: a thread for each kernel evaluation below would need too much memory.
set_option Elab.async false

/-- The decoder on a word made of fields: the form's check, then the immediate's (`30_encoding.md` R87). -/
theorem decode_commandWord (o : Op) (rd rs1 rs2 : Reg) (imm : Imm) :
    decode (cmdValue (commandWord o.code rd rs1 rs2 imm)) =
      if o.form.unusedZero ⟨rd, rs1, rs2, imm⟩ then
        if o.immLegal imm then .ok (o.build ⟨rd, rs1, rs2, imm⟩) else .illegal .immediate
      else .illegal .unusedField := by
  simp only [decode, highField_cmdValue, opField_commandWord, ofCode_code, operandFields_commandWord, immField_commandWord]
  simp

/-- A host write in the window, as a step. -/
theorem step_write {s : State} {off bits : Nat} {v : Word} {rest : List HostEvent} (hr : s.ready = false)
    (ho : off < 0x1000) (hi : s.env.inputs = .write (Config.base + off) bits v :: rest) :
    step s = .next (writeAt bits off v (s.tick.setInputs rest)) := by
  rw [step_not_ready hr, hostTurn, hi]; simp only [portEvent, windowOffset_base_add ho]

/-- A host read in the window, as a step. -/
theorem step_read {s : State} {off bits : Nat} {rest : List HostEvent} (hr : s.ready = false) (ho : off < 0x1000)
    (hi : s.env.inputs = .read (Config.base + off) bits :: rest) :
    step s = .next (readAt bits off (s.tick.setInputs rest)) := by
  rw [step_not_ready hr, hostTurn, hi]; simp only [portEvent, windowOffset_base_add ho]

theorem not_ready_of_idle {s : State} (h : s.busy = false) : s.ready = false := by simp [State.ready, h]

/-- An answered port access changes no architectural field by itself. -/
theorem sameArch_answer (s : State) (rest : List HostEvent) (r : PortAnswer) :
    SameArch s ((s.tick.setInputs rest).answer r) := by
  constructor <;> first | rfl | (intro _; rfl)

/-- Little-endian bytes as a sum (`00_scope.md` R8, `20_memory.md` R55). -/
theorem load_eq_dbufSum (s : State) : ∀ n k : Nat, s.dbuf.load k n = dbufSum s k n := by
  intro n
  induction n with
  | zero => intro k; rfl
  | succ n ih =>
    intro k
    rw [Memory.load_succ, ih, dbufSum, dbufSum, List.range_succ_eq_map]
    simp only [List.map_cons, List.sum_cons, List.map_map]
    congr 1
    · simp
    · rw [← List.sum_map_mul_left]
      congr 1
      apply List.map_congr_left
      intro a _
      simp only [Function.comp]
      rw [show k + 1 + a = k + a.succ by omega, show 8 * a.succ = 8 * a + 8 by omega, pow_add]; ring

/-- HALF_BOUND in the spelling of the rules. -/
theorem halfBound_eq : (L - 1) / 2 = K.halfBound := rfl

/-- LDC's constants fit a register (`10_state.md` R33). -/
theorem ldcValue_lt {imm : Imm} {v : Nat} (h : ldcValue imm = some v) : v < R := by
  unfold ldcValue at h
  split at h
  case h_8 => injection h with h; rw [← h]; exact Nat.lt_trans sqrtM1_lt L_lt_R
  case h_10 => cases h
  all_goals (injection h with h; rw [← h]; decide +kernel)

/-- LDU's widths are at most 128 bits (`40_data_movement.md` R102). -/
theorem lduWidth_le {imm : Imm} {w : Nat} (h : lduWidth imm = some w) : w ≤ 128 := by
  unfold lduWidth at h
  split at h
  · rename_i hh
    injection h with h
    have : 2 ^ imm.toNat ≤ 2 ^ 4 := Nat.pow_le_pow_right (by norm_num) hh
    omega
  · cases h

/-- SQRT writes a canonical value (`44_residue_roots.md` R251). -/
theorem sqrtResult_lt {a : Nat} (ha : a < L) (sign : Bool) : (sqrtResult a sign).getD 0 < L := by
  unfold sqrtResult
  split
  · exact L_pos
  · rename_i h0
    split
    · rename_i hq
      have := rootF_le hq
      have := rootF_pos hq (Nat.pos_of_ne_zero h0) ha
      have := halfBound_lt
      simp only [Option.getD_some]
      split <;> omega
    · exact L_pos

/-- SQRTR's definition with the quotient written out (`44_residue_roots.md` R252). -/
theorem sqrtRatio_eq (u v : Nat) :
    sqrtRatio u v =
      if u = 0 then (true, 0)
      else if v = 0 then (false, 0)
      else if isQR (mulF u (invL v)) = true then (true, rootF (mulF u (invL v)))
      else (false, rootF (mulF K.sqrtM1 (mulF u (invL v)))) := rfl

/-- SQRTR writes a non-negative value (`44_residue_roots.md` R252). -/
theorem sqrtRatio_le {u v : Nat} (hu : u < L) (hv : v < L) : (sqrtRatio u v).2 ≤ K.halfBound := by
  rw [sqrtRatio_eq]
  by_cases h0 : u = 0
  · rw [if_pos h0]; exact Nat.zero_le _
  by_cases h1 : v = 0
  · rw [if_neg h0, if_pos h1]; exact Nat.zero_le _
  rw [if_neg h0, if_neg h1]
  have hw : mulF u (invL v) < L := mulF_lt (Nat.lt_trans hu L_lt_R) (Nat.lt_trans (invL_lt v) L_lt_R)
  have hne : mulF u (invL v) ≠ 0 := by
    intro h
    have := ratio_mul hu (Nat.pos_of_ne_zero h1) hv
    rw [h, Nat.cast_zero, zero_mul] at this
    exact cast_ne_zero (Nat.pos_of_ne_zero h0) hu this.symm
  generalize mulF u (invL v) = w at *
  by_cases hq : isQR w = true
  · rw [if_pos hq]; exact rootF_le hq
  · rw [if_neg hq]; exact rootF_le (sqrtM1_mul_isQR (Nat.pos_of_ne_zero hne) hw (eq_false_of_ne_true hq))

/-- TWOPOW writes a canonical value (`44_residue_roots.md` R253). -/
theorem twopow_lt {imm : Imm} (h : ¬ 253 ≤ twopowExponent imm) : 2 ^ twopowExponent imm < L := by
  have : 2 ^ twopowExponent imm ≤ 2 ^ 252 := Nat.pow_le_pow_right (by norm_num) (by omega)
  exact lt_of_le_of_lt this (by decide +kernel)

end Sys2Proof.Machine
end

