-- ==== Sys2Proof/Machine/Asm.lean ====
section
/-! DEFINITION. The assembler syntax of `30_encoding.md` R95 and the pseudo-instructions of R96: text to command and
command to text. No part of the machine depends on it. -/

namespace Sys2Proof.Machine

/-- The mnemonic of an opcode, in lower case as `30_encoding.md` R95 writes it. -/
def opName : Op → String
  | .ldb => "ldb" | .stb => "stb" | .ldu => "ldu" | .ldi => "ldi" | .ldc => "ldc" | .mov => "mov"
  | .csel => "csel" | .cneg => "cneg" | .cfop => "cfop"
  | .add => "add" | .sub => "sub" | .neg => "neg" | .halfw => "halfw" | .half => "half"
  | .iseven => "iseven" | .ispos => "ispos" | .eq => "eq"
  | .mul => "mul" | .sqr => "sqr" | .mmul => "mmul" | .msqr => "msqr" | .tomont => "tomont"
  | .frommont => "frommont" | .pow => "pow"
  | .inv => "inv" | .div => "div"
  | .leg => "leg" | .sqrt => "sqrt" | .sqrtr => "sqrtr" | .twopow => "twopow"

/-- The names LDC takes, by selector (`30_encoding.md` R95, `10_state.md` R33). -/
def constNames : List String :=
  ["ZERO", "ONE", "MINUS_ONE", "L", "RR", "INV2", "HALF_BOUND", "SQRT_M1", "MONT_ONE"]

/-- The widths LDU takes, by width code (`30_encoding.md` R95). -/
def widthNames : List String := ["8", "16", "32", "64", "128"]

/-- SQRT's signs, by immediate (`30_encoding.md` R95). -/
def signNames : List String := ["neg", "pos"]

/-- CFOP's operations, by immediate (`30_encoding.md` R95). -/
def flagOpNames : List String := ["clr", "set", "not"]

/-- `f0` to `f15` (`30_encoding.md` R95). -/
def regName (r : Reg) : String := "f" ++ toString r.val

/-- A blank between tokens (log 20). -/
def isBlank (c : Char) : Bool := c == ' ' || c == '\t'

/-- The text without blanks at its ends. -/
def trimBlanks (cs : List Char) : List Char := ((cs.dropWhile isBlank).reverse.dropWhile isBlank).reverse

/-- The operands of a line, separated by commas (`30_encoding.md` R95). -/
def splitCommas : List Char → List (List Char)
  | [] => [[]]
  | c :: cs =>
    match splitCommas cs with
    | [] => [[c]]
    | w :: ws => if c == ',' then [] :: w :: ws else (c :: w) :: ws

/-- The value of a digit in a base of at most 16. -/
def digitValue (base : Nat) (c : Char) : Option Nat :=
  let n := c.toNat
  let d := if 48 ≤ n ∧ n ≤ 57 then n - 48 else if 97 ≤ n ∧ n ≤ 102 then n - 87
    else if 65 ≤ n ∧ n ≤ 70 then n - 55 else base
  if d < base then some d else none

/-- The number a non-empty list of digits stands for. -/
def digitsValue (base : Nat) : Option Nat → List Char → Option Nat
  | acc, [] => acc
  | acc, c :: cs =>
    match digitValue base c with
    | some d => digitsValue base (some (base * acc.getD 0 + d)) cs
    | none => none

/-- An immediate, decimal or `0x` hexadecimal (`30_encoding.md` R95). -/
def parseNumber : List Char → Option Nat
  | '0' :: 'x' :: cs => digitsValue 16 none cs
  | cs => digitsValue 10 none cs

/-- A number as an immediate field, if it fits 12 bits. -/
def immOfNat (n : Nat) : Option Imm := if n < 4096 then some (BitVec.ofNat 12 n) else none

/-- A name's place in a list of names, as an immediate. -/
def immOfName (names : List String) (cs : List Char) : Option Imm :=
  match names.findIdx? (fun s => s.toList == cs) with
  | some k => immOfNat k
  | none => none

/-- A plain number as an immediate. -/
def parseImm (cs : List Char) : Option Imm := (parseNumber cs).bind immOfNat

/-- A register operand (`30_encoding.md` R95). -/
def parseReg (cs : List Char) : Option Reg := (List.finRange 16).find? fun r => (regName r).toList == cs

/-- The immediate operand of a command, in the notation R95 gives that command. -/
def parseImmOf (o : Op) (cs : List Char) : Option Imm :=
  match o with
  | .ldu => immOfName widthNames cs
  | .ldc => (immOfName constNames cs).or (parseImm cs)
  | .sqrt => immOfName signNames cs
  | .cfop => immOfName flagOpNames cs
  | _ => parseImm cs

/-- The operand fields of a command from its operand texts, destination first (`30_encoding.md` R83, R95). -/
def parseOperands (o : Op) (args : List (List Char)) : Option Operands :=
  match o.form, args with
  | .d, [a] => do let rd ← parseReg a; return ⟨rd, 0, 0, 0⟩
  | .s, [a] => do let rs1 ← parseReg a; return ⟨0, rs1, 0, 0⟩
  | .ss, [a, b] => do let rs1 ← parseReg a; let rs2 ← parseReg b; return ⟨0, rs1, rs2, 0⟩
  | .ds, [a, b] => do let rd ← parseReg a; let rs1 ← parseReg b; return ⟨rd, rs1, 0, 0⟩
  | .dss, [a, b, c] => do
    let rd ← parseReg a
    let rs1 ← parseReg b
    let rs2 ← parseReg c
    return ⟨rd, rs1, rs2, 0⟩
  | .di, [a, b] => do let rd ← parseReg a; let imm ← parseImmOf o b; return ⟨rd, 0, 0, imm⟩
  | .dsi, [a, b, c] => do
    let rd ← parseReg a
    let rs1 ← parseReg b
    let imm ← parseImmOf o c
    return ⟨rd, rs1, 0, imm⟩
  | .i, [a] => do let imm ← parseImmOf o a; return ⟨0, 0, 0, imm⟩
  | _, _ => none

/-- The seven pseudo-instructions, each one command (`30_encoding.md` R96). -/
def expandPseudo (name : List Char) (args : List (List Char)) : Option Instr :=
  if name = "clr".toList then
    match args with
    | [a] => (parseReg a).map fun rd => .ldc rd 0
    | _ => none
  else if name = "ldone".toList then
    match args with
    | [a] => (parseReg a).map fun rd => .ldc rd 1
    | _ => none
  else if name = "dbl".toList then
    match args with
    | [a, b] => do let rd ← parseReg a; let rs ← parseReg b; return .add rd rs rs
    | _ => none
  else if name = "clrcf".toList then
    match args with
    | [[]] => some (.cfop 0)
    | _ => none
  else if name = "setcf".toList then
    match args with
    | [[]] => some (.cfop 1)
    | _ => none
  else if name = "notcf".toList then
    match args with
    | [[]] => some (.cfop 2)
    | _ => none
  else if name = "recip".toList then
    match args with
    | [a, b] => do let rd ← parseReg a; let rs ← parseReg b; return .inv rd rs
    | _ => none
  else none

/-- One line of assembler text as a command, if it is one (`30_encoding.md` R95, R96). Mnemonics are
case-insensitive. -/
def assemble (line : String) : Option Instr :=
  let cs := trimBlanks line.toList
  let name := (cs.takeWhile fun c => !isBlank c).map Char.toLower
  let args := (splitCommas (cs.dropWhile fun c => !isBlank c)).map trimBlanks
  match Op.all.find? (fun o => (opName o).toList == name) with
  | some o =>
    match parseOperands o args with
    | some x => if o.immLegal x.imm then some (o.build x) else none
    | none => none
  | none => expandPseudo name args

/-- The immediate operand of a command as text. -/
def immText (o : Op) (imm : Imm) : String :=
  match o with
  | .ldu => widthNames.getD imm.toNat (toString imm.toNat)
  | .ldc => constNames.getD imm.toNat (toString imm.toNat)
  | .sqrt => signNames.getD imm.toNat (toString imm.toNat)
  | .cfop => flagOpNames.getD imm.toNat (toString imm.toNat)
  | _ => toString imm.toNat

/-- The operands of a command as text, destination first. -/
def operandTexts (o : Op) (x : Operands) : List String :=
  (if o.form.usesRd then [regName x.rd] else []) ++ (if o.form.usesRs1 then [regName x.rs1] else []) ++
    (if o.form.usesRs2 then [regName x.rs2] else []) ++ (if o.form.usesImm then [immText o x.imm] else [])

/-- A command as one line of assembler text (`30_encoding.md` R95). -/
def disassemble (i : Instr) : String := opName i.op ++ " " ++ ", ".intercalate (operandTexts i.op i.operands)

end Sys2Proof.Machine
end

