-- ==== Sys2Proof/Tests/Slice0.lean ====
section
/-! SUPPORT. Tests of the model against values of the spec (`95_test_vectors.md`, the examples of the command rules,
and words written out from `30_encoding.md`), and for every obligation with hypotheses a theorem that shows a state
and operands which meet them. The source of each expected value stands beside it. -/

namespace Sys2Proof.Tests

open Sys2Proof Sys2Proof.Machine

-- One theorem at a time: a thread for each kernel evaluation below would need too much memory.
set_option Elab.async false

/-! Helpers. -/

/-- The reset state with FR0, FR1, .. holding these integers. -/
def stateOf (xs : List Nat) : State :=
  { State.reset with fr := Vector.ofFn fun i => BitVec.ofNat 260 (xs.getD i.val 0) }

/-- The state after an outcome, or the reset state if there is none. -/
def after (o : Host.Outcome State Fault Refusal) : State :=
  match o with
  | .next t => t
  | .fault _ => State.reset
  | .refused _ => State.reset

/-- The outcome is a next state. -/
def isNext (o : Host.Outcome State Fault Refusal) : Bool :=
  match o with
  | .next _ => true
  | .fault _ => false
  | .refused _ => false

theorem exists_next {o : Host.Outcome State Fault Refusal} (h : isNext o = true) : ∃ t, o = .next t := by
  cases o with
  | next t => exact ⟨t, rfl⟩
  | fault r => cases h
  | refused r => cases h

/-- FR[r] after the command, if it answers a next state. -/
def regAfter (i : Instr) (s : State) (r : Reg) : Option Nat :=
  match exec i s with
  | .next t => some (t.x r)
  | .fault _ => none
  | .refused _ => none

/-- STATUS after the command, if it answers a next state. -/
def statusAfter (i : Instr) (s : State) : Option Nat :=
  match exec i s with
  | .next t => some (statusWord t).toNat
  | .fault _ => none
  | .refused _ => none

/-- The four 64-bit words of DBUF. -/
def dbufWords (m : Memory) : List Nat := [m.load 0 8, m.load 8 8, m.load 16 8, m.load 24 8]

/-- DBUF from its four words. -/
def dbufOf (w0 w1 w2 w3 : Nat) : Memory := Memory.store [] 0 32 (w0 + 2 ^ 64 * (w1 + 2 ^ 64 * (w2 + 2 ^ 64 * w3)))

/-- The reset state with these words in DBUF. -/
def stateDbuf (w0 w1 w2 w3 : Nat) : State := { State.reset with dbuf := dbufOf w0 w1 w2 w3 }

/-- The reset state with FR0, FR1, .. and CF set. -/
def stateCf (xs : List Nat) : State := { stateOf xs with cf := true }

/-- The operand A of `95_test_vectors.md` section 1. -/
def opA : Nat := limbVal [0, 0, 0, 2, 0]

/-- The operand B of `95_test_vectors.md` section 1. -/
def opB : Nat :=
  limbVal [2766226127823335, 4237835465749098, 4503599626623787, 4503599627370493, 2199023255551]

/-- SQRT(17, 1), S7. -/
def root17 : Nat := limbVal [4241781353880182, 446376444288682, 1611704926541382, 666649792406303, 2941500811873]

/-! WellFormed: an ill-formed term for each check, beside the last term each check accepts. -/

theorem test_wf_ldu : (Instr.ldu 0 5).wellFormed = false ∧ (Instr.ldu 0 4).wellFormed = true := by decide

theorem test_wf_ldc : (Instr.ldc 0 9).wellFormed = false ∧ (Instr.ldc 0 8).wellFormed = true := by decide

theorem test_wf_cfop : (Instr.cfop 3).wellFormed = false ∧ (Instr.cfop 2).wellFormed = true := by decide

theorem test_wf_sqrt : (Instr.sqrt 0 0 2).wellFormed = false ∧ (Instr.sqrt 0 0 1).wellFormed = true := by decide

theorem test_wf_twopow : (Instr.twopow 0 4095).wellFormed = true := by decide

/-! Decoding. Each word is imm (3 hex digits), rs2, rs1, rd (one each), op (2), written out from `30_encoding.md` R80
and R82; the fields have different values, so that a swap shows. -/

theorem test_decode_movement :
    decode 0x00000301 = .ok (.ldb 3) ∧ decode 0x00002002 = .ok (.stb 2) ∧ decode 0x00300103 = .ok (.ldu 1 3) ∧
    decode 0xabc00704 = .ok (.ldi 7 0xabc) ∧ decode 0x00800f05 = .ok (.ldc 15 8) ∧ decode 0x00009a06 = .ok (.mov 10 9) ∧
    decode 0x000cba07 = .ok (.csel 10 11 12) ∧ decode 0x0000e508 = .ok (.cneg 5 14) ∧ decode 0x00100009 = .ok (.cfop 1) := by
  decide

theorem test_decode_linear :
    decode 0x00010210 = .ok (.add 2 0 1) ∧ decode 0x00065411 = .ok (.sub 4 5 6) ∧ decode 0x00001412 = .ok (.neg 4 1) ∧
    decode 0x0000d213 = .ok (.halfw 2 13) ∧ decode 0x00003814 = .ok (.half 8 3) ∧ decode 0x0000f015 = .ok (.iseven 15) ∧
    decode 0x00007016 = .ok (.ispos 7) ∧ decode 0x00021017 = .ok (.eq 1 2) := by decide

theorem test_decode_multiplicative :
    decode 0x00010420 = .ok (.mul 4 0 1) ∧ decode 0x0000a921 = .ok (.sqr 9 10) ∧ decode 0x00040522 = .ok (.mmul 5 0 4) ∧
    decode 0x0000cb23 = .ok (.msqr 11 12) ∧ decode 0x00001224 = .ok (.tomont 2 1) ∧ decode 0x00002325 = .ok (.frommont 3 2) ∧
    decode 0x000fed26 = .ok (.pow 13 14 15) := by decide

theorem test_decode_inversion : decode 0x00001230 = .ok (.inv 2 1) ∧ decode 0x00002331 = .ok (.div 3 2 0) := by decide

theorem test_decode_roots :
    decode 0x00008040 = .ok (.leg 8) ∧ decode 0x00100141 = .ok (.sqrt 1 0 1) ∧ decode 0x00043542 = .ok (.sqrtr 5 3 4) ∧
    decode 0x09d00143 = .ok (.twopow 1 157) ∧ decode 0xfff00143 = .ok (.twopow 1 4095) := by decide

/-- The illegal values of `95_test_vectors.md` section 2, with the first of R84's conditions that each meets. -/
theorem test_decode_illegal :
    decode 0x00000000 = .illegal .opcode ∧ decode 0x0000000a = .illegal .opcode ∧ decode 0x000000ff = .illegal .opcode ∧
    decode 0x0000000100000001 = .illegal .highBits ∧ decode 0x00001001 = .illegal .unusedField ∧
    decode 0x00100010 = .illegal .unusedField ∧ decode 0x00500003 = .illegal .immediate ∧
    decode 0x00900005 = .illegal .immediate ∧ decode 0x00300009 = .illegal .immediate ∧
    decode 0x00200041 = .illegal .immediate ∧ decode 0x00021117 = .illegal .unusedField := by decide

theorem test_encode :
    encode (.sqrtr 2 0 1) = 0x00010242 ∧ encode (.ldc 5 4) = 0x00400505 ∧ encode (.cfop 2) = 0x00200009 ∧
    encode (.mul 2 1 1) = 0x00011220 ∧ encode (.csel 6 2 5) = 0x00052607 := by decide

theorem test_table_word : decodeTableWord 32 0x00010242 = some (.sqrtr 2 0 1) ∧ decodeTableWord 32 0x00021117 = none := by
  decide

/-! The assembler (`30_encoding.md` R95, R96, the examples of `95_test_vectors.md` section 2). -/

theorem test_assemble :
    assemble "twopow f1, 157" = some (.twopow 1 157) ∧ assemble "LDU f1, 64" = some (.ldu 1 3) ∧
    assemble "ldc f5, RR" = some (.ldc 5 4) ∧ assemble "sqrt f1, f0, pos" = some (.sqrt 1 0 1) ∧
    assemble "cfop not" = some (.cfop 2) ∧ assemble "ldi f3, 0x44" = some (.ldi 3 68) := by decide +kernel

theorem test_assemble_pseudo :
    assemble "clr f7" = some (.ldc 7 0) ∧ assemble "dbl f2, f1" = some (.add 2 1 1) ∧
    assemble "recip f2, f1" = some (.inv 2 1) ∧ assemble "ldone f4" = some (.ldc 4 1) ∧
    assemble "notcf" = some (.cfop 2) ∧ assemble "add f16, f0, f0" = none := by decide +kernel

/-! The constant ROM's limbs as `10_state.md` R33 and R34 give them. -/

theorem test_rom_limbs :
    K.minusOne = limbVal [671914833335276, 3916664325105025, 1367801, 0, 17592186044416] ∧
    K.rr = limbVal [2764609938444603, 3768881411696287, 1616719297148420, 1087343033131391, 10175238647962] ∧
    K.inv2 = limbVal [2587757230352887, 4210131976237760, 683900, 0, 8796093022208] ∧
    K.halfBound = limbVal [2587757230352886, 4210131976237760, 683900, 0, 8796093022208] ∧
    K.montOne = limbVal [4302102966953709, 1049714374468698, 4503599278581019, 4503599627370495, 17592186044415] ∧
    K.tsQ = limbVal [1293878615176443, 2105065988118880, 341950, 0, 4398046511104] := by decide +kernel

theorem test_sqrtM1_limbs :
    K.sqrtM1Pos = limbVal [3075585030474777, 2451921961843096, 1194333869305507, 2218299809671669, 7376823328646] ∧
    K.sqrtM1Neg = limbVal [2099929430230996, 1464742363261928, 3309265759432790, 2285299817698826, 10215362715769] ∧
    K.lFactor = 0x51da312547e1b := by decide +kernel

theorem test_modulus_words : wordsVal modulusWords = L := by decide +kernel

/-! Codec and data movement (`95_test_vectors.md` section 3). -/

theorem test_ldb :
    regAfter (.ldb 3) (stateDbuf 0x26a9d3de35b7a1e7 0xf49b2bf0e49f58d7 0xffffffffdfffffff 0x01ffffffffffffff) 3 =
      some opB := by decide +kernel

theorem test_ldb_ones :
    regAfter (.ldb 0) (stateDbuf (2 ^ 64 - 1) (2 ^ 64 - 1) (2 ^ 64 - 1) (2 ^ 64 - 1)) 0 = some (2 ^ 253 - 1) := by
  decide +kernel

theorem test_stb :
    dbufWords (after (exec (.stb 1) (stateOf [0, root17]))).dbuf =
      [0xeaaf11e0aed01a76, 0xa11646195fa1d65d, 0x08010e31f5b9d64b, 0x02acdf1c6a6125e5] := by decide +kernel

theorem test_stb_drops_high_bits :
    dbufWords (after (exec (.stb 1) (stateOf [0, 2 ^ 260 - 1]))).dbuf =
      [2 ^ 64 - 1, 2 ^ 64 - 1, 2 ^ 64 - 1, 2 ^ 64 - 1] := by decide +kernel

theorem test_ldu_64 : regAfter (.ldu 2 3) (stateDbuf 0x0807060504030201 0x100f0e0d0c0b0a09 0 0) 2 = some 0x0807060504030201 := by
  decide +kernel

theorem test_ldu_8 :
    regAfter (.ldu 2 0) (stateDbuf 0xffffffffffffffab (2 ^ 64 - 1) (2 ^ 64 - 1) (2 ^ 64 - 1)) 2 = some 171 := by
  decide +kernel

theorem test_ldi : regAfter (.ldi 4 4095) State.reset 4 = some 4095 := by decide +kernel

theorem test_ldc_montOne :
    regAfter (.ldc 1 8) State.reset 1 =
      some 7237005577332262213973186563042994233755083008372585100823854863819240236781 := by decide +kernel

theorem test_mov : regAfter (.mov 2 1) (stateOf [0, 17]) 2 = some 17 := by decide +kernel

theorem test_csel_set : regAfter (.csel 3 1 2) (stateCf [0, 5, 9]) 3 = some 9 := by decide +kernel

theorem test_csel_clear : regAfter (.csel 3 1 2) (stateOf [0, 5, 9]) 3 = some 5 := by decide +kernel

theorem test_cneg :
    regAfter (.cneg 1 0) (stateCf [17]) 1 =
      some 7237005577332262213973186563042994240857116359379907606001950938285454250972 ∧
    regAfter (.cneg 1 0) (stateOf [17]) 1 = some 17 := by decide +kernel

theorem test_cfop : (after (exec (.cfop 2) State.reset)).cf = true ∧ (after (exec (.cfop 0) (stateCf []))).cf = false := by
  decide +kernel

/-! The linear unit (`95_test_vectors.md` sections 1 and 4). -/

theorem test_add :
    regAfter (.add 2 0 1) (stateOf [opA, opB]) 2 =
      some (limbVal [2766226127823335, 4237835465749098, 4503599626623787, 4503599627370495, 2199023255551]) := by
  decide +kernel

theorem test_add_wraps :
    regAfter (.add 0 0 0) (stateOf [2 ^ 260 - 1]) 0 =
      some 1845436422219726864563162573575963531411462638290869117025319393188324619987985 := by decide +kernel

theorem test_sub :
    regAfter (.sub 2 0 1) (stateOf [opA, opB]) 2 =
      some (limbVal [2409288332882438, 4182428486726422, 2114509, 4, 15393162788864]) := by decide +kernel

theorem test_sub_borrow : regAfter (.sub 0 0 1) (stateOf [0, 2 ^ 260 - 1]) 0 = some (L + 1) := by decide +kernel

theorem test_neg :
    regAfter (.neg 4 1) (stateOf [0, 17]) 4 =
      some 7237005577332262213973186563042994240857116359379907606001950938285454250972 := by decide +kernel

theorem test_neg_above_L : regAfter (.neg 4 1) (stateOf [0, 2 ^ 260 - 1]) 4 = some (L + 1) := by decide +kernel

theorem test_halfw : regAfter (.halfw 1 0) (stateOf [17]) 1 = some 8 := by decide +kernel

theorem test_half :
    regAfter (.half 1 0) (stateOf [17]) 1 =
      some 3618502788666131106986593281521497120428558179689953803000975469142727125503 := by decide +kernel

theorem test_iseven :
    (after (exec (.iseven 0) (stateOf [0]))).cf = true ∧ (after (exec (.iseven 0) (stateCf [L]))).cf = false := by
  decide +kernel

theorem test_ispos :
    (after (exec (.ispos 0) (stateOf [K.halfBound]))).cf = true ∧
    (after (exec (.ispos 0) (stateCf [K.halfBound + 1]))).cf = false := by decide +kernel

/-- STATUS 0x42 with CF unchanged (`95_test_vectors.md` section 8). -/
theorem test_ispos_noncanonical :
    statusAfter (.ispos 0) (stateOf [L]) = some 0x42 ∧ statusAfter (.ispos 0) (stateCf [L]) = some 0x142 := by decide +kernel

theorem test_eq :
    (after (exec (.eq 0 1) (stateOf [17, 17]))).cf = true ∧ (after (exec (.eq 0 1) (stateCf [0, L]))).cf = false := by
  decide +kernel

/-! The multiplicative core (`95_test_vectors.md` sections 1 and 5). -/

theorem test_mul :
    regAfter (.mul 2 0 1) (stateOf [opA, opB]) 2 =
      some (limbVal [2201910185007838, 1263014888683320, 1977367609994094, 4238575041099341, 2233595300724]) := by
  decide +kernel

theorem test_mul_max :
    regAfter (.mul 0 0 0) (stateOf [2 ^ 260 - 1]) 0 =
      some 4185850391763183796333492317919282521804520839930088228565649065538978753340 := by decide +kernel

theorem test_sqr : regAfter (.sqr 1 0) (stateOf [K.sqrtM1Pos]) 1 = some (L - 1) := by decide +kernel

theorem test_mmul :
    regAfter (.mmul 2 0 1) (stateOf [opA, opB]) 2 =
      some 558188190836586668920239910174168451129079246100512069200466650204643237539 := by decide +kernel

theorem test_mmul_max :
    regAfter (.mmul 2 0 0) (stateOf [2 ^ 260 - 1]) 2 =
      some 1851142832873332435445620368635265417131083268881759569808357793749434099071957 := by decide +kernel

theorem test_msqr :
    regAfter (.msqr 1 0) (stateOf [17]) 1 =
      some 6352412837586462458389422327485280295796827188101827735654899169841340293405 := by decide +kernel

theorem test_tomont :
    regAfter (.tomont 1 0) (stateOf [17]) 1 =
      some 7237005577332262213973186563042994120122549392255425017974317672359816009453 := by decide +kernel

theorem test_frommont :
    regAfter (.frommont 1 0) (stateOf [17]) 1 =
      some 2927908605975296220131090688573132102408207373198898433627447341150239164667 := by decide +kernel

theorem test_pow :
    regAfter (.pow 2 0 1) (stateOf [2, 253]) 2 =
      some 7237005577332262213973186563042994240801631723825162898930247062703686954003 := by decide +kernel

theorem test_pow_zero : regAfter (.pow 2 0 1) (stateOf [0, 0]) 2 = some 1 := by decide +kernel

/-! Inversion (`95_test_vectors.md` sections 1, 6 and 8). -/

theorem test_inv :
    regAfter (.inv 5 0) (stateOf [opA]) 5 =
      some (limbVal [1289905446467013, 1277206401232501, 2632844239031511, 61125669693438, 17393375336657]) := by
  decide +kernel

theorem test_inv_faults :
    statusAfter (.inv 1 0) (stateOf [0, 7]) = some 0x22 ∧ regAfter (.inv 1 0) (stateOf [0, 7]) 1 = some 7 ∧
    statusAfter (.inv 1 0) (stateOf [L]) = some 0x42 := by decide +kernel

theorem test_div :
    regAfter (.div 3 2 0) (stateOf [2, 0, 5]) 3 =
      some 3618502788666131106986593281521497120428558179689953803000975469142727125497 := by decide +kernel

theorem test_div_checks_divisor_only :
    regAfter (.div 2 0 1) (stateOf [L, 5, 9]) 2 = some 0 ∧ statusAfter (.div 2 0 1) (stateOf [5, L]) = some 0x42 := by
  decide +kernel

/-! Residues and roots (`95_test_vectors.md` sections 1, 7 and 8). -/

theorem test_leg :
    (after (exec (.leg 0) (stateOf [17]))).cf = true ∧ (after (exec (.leg 0) (stateCf [opA]))).cf = false ∧
    (after (exec (.leg 0) (stateCf [L]))).cf = false := by decide +kernel

theorem test_sqrt :
    regAfter (.sqrt 1 0 1) (stateOf [17]) 1 = some root17 ∧ statusAfter (.sqrt 1 0 1) (stateOf [17]) = some 0x200 ∧
    regAfter (.sqrt 1 0 0) (stateOf [17]) 1 =
      some (limbVal [933733106825591, 3470287880816342, 2891894702196915, 3836949834964192, 14650685232542]) := by
  decide +kernel

theorem test_sqrt_no_value :
    regAfter (.sqrt 1 0 1) (stateOf [2, 9]) 1 = some 0 ∧ statusAfter (.sqrt 1 0 1) (stateOf [2, 9]) = some 0 ∧
    statusAfter (.sqrt 1 0 1) (stateOf [L]) = some 0x42 := by decide +kernel

theorem test_sqrtr :
    regAfter (.sqrtr 5 3 4) (stateOf [0, 0, 0, 68, 4]) 5 = some root17 ∧
    statusAfter (.sqrtr 5 3 4) (stateOf [0, 0, 0, 68, 4]) = some 0x100 ∧
    regAfter (.sqrtr 5 3 4) (stateOf [0, 0, 0, 3, 0, 8]) 5 = some 0 := by decide +kernel

/-- SQRTR(2, 1) for both values of sqrt_m1. -/
theorem test_sqrtr_not_square :
    sqrtRatio 2 1 = (false, if Config.sqrtM1Nonneg then K.sqrtM1Pos + 1 else K.sqrtM1Pos - 1) := by
  have pos : rootF (mulF K.sqrtM1Pos 2) = K.sqrtM1Pos + 1 := by decide +kernel
  have neg : rootF (mulF K.sqrtM1Neg 2) = K.sqrtM1Pos - 1 := by decide +kernel
  have w : mulF 2 (invL 1) = 2 := by decide +kernel
  have q : isQR 2 = false := by decide +kernel
  cases h : Config.sqrtM1Nonneg <;> simp [sqrtRatio, w, q, K.sqrtM1, h, pos, neg]

theorem test_twopow :
    regAfter (.twopow 1 157) State.reset 1 = some opA ∧ statusAfter (.twopow 1 253) State.reset = some 0x32 := by
  decide +kernel

/-! The step and the port (`95_test_vectors.md` section 8; the port's registers at their window offsets). -/

/-- The illegal word 0 at completion: STATUS = 0x12. -/
theorem test_step_illegal : (statusWord (after (step (State.reset.withFetchWord 32 0)))).toNat = 0x12 := by decide +kernel

/-- `inv f1, f0` with x[0] = 0 at completion: STATUS = 0x22, CMDCNT unchanged. -/
theorem test_step_inv_zero :
    (statusWord (after (step (State.reset.withFetchWord 32 0x00000130)))).toNat = 0x22 ∧
    (after (step (State.reset.withFetchWord 32 0x00000130))).cmdcnt = 0 := by decide +kernel

/-- `ldi f0, 17` at completion, then a read of FRVIEW 0.0. -/
theorem test_step_ldi :
    (readAt 64 0x100 (after (step (State.reset.withFetchWord 32 0x01100004)))).env.resp = .data 17 := by decide +kernel

/-- FRVIEW 1.4 of MINUS_ONE. -/
theorem test_frview : (readAt 64 0x160 (stateOf [0, L - 1])).env.resp = .data 17592186044416 := by decide +kernel

theorem test_read_registers :
    (readAt 64 0x000 State.reset).env.resp = .data 1 ∧ (readAt 64 0x008 State.reset).env.resp = .data 0 ∧
    (readAt 64 0x028 State.reset).env.resp = .data 0 ∧
    (readAt 64 0x048 (stateDbuf 1 0x0102030405060708 3 4)).env.resp = .data 0x0102030405060708 := by decide +kernel

/-- A 32-bit read at 0x010 and a 64-bit read at 0x014 are bus errors. -/
theorem test_bus_errors :
    readAt 32 0x010 State.reset = State.reset.answer .busError ∧
    readAt 64 0x014 State.reset = State.reset.answer .busError ∧
    writeAt 32 0x040 5 State.reset = State.reset.answer .busError := by decide +kernel

theorem test_write_dbuf : dbufWords (writeAt 64 0x050 0x0000000020000000 (stateDbuf 1 2 3 4)).dbuf = [1, 2, 0x20000000, 4] := by
  decide +kernel

/-- A CMD write while BUSY, a DBUF write while BUSY, and a CMD write while FAULT are dropped. -/
theorem test_dropped_writes :
    writeAt 64 0x008 5 { State.reset with busy := true } = ({ State.reset with busy := true, ovr := true }).answer .done ∧
    writeAt 64 0x040 5 { State.reset with busy := true } = ({ State.reset with busy := true, ovr := true }).answer .done ∧
    writeAt 64 0x008 5 { State.reset with fault := true, fcode := 2 } =
      ({ State.reset with fault := true, fcode := 2, ovr := true }).answer .done := by decide +kernel

/-- CTRL <- 3 is a soft reset; CTRL <- 2 clears the fault and keeps the rest. -/
theorem test_ctrl :
    writePort (portReg 0x018) 3 { stateCf [7] with busy := true } = State.reset ∧
    writePort (portReg 0x018) 2 { stateCf [7] with fault := true, fcode := 3, ovr := true } = stateCf [7] := by decide +kernel

/-- `withFetchWord` places the command so that the next step runs it. -/
theorem test_withFetchWord : step (State.reset.withFetchWord 32 0x00010242) = exec (.sqrtr 2 0 1) (State.reset.withFetchWord 32 0x00010242) := by
  rfl

/-! The informative datapaths on a concrete operand (`95_test_vectors.md` sections 1, 4 and 6). -/

theorem test_datapath_add : wordsVal (addWords (limbWords (BitVec.ofNat 260 (L - 1))) (limbWords 1)) = 0 := by decide +kernel

theorem test_datapath_sub : wordsVal (subWords (limbWords 0) (limbWords (BitVec.ofNat 260 (2 ^ 260 - 1)))) = L + 1 := by
  decide +kernel

theorem test_datapath_mmul :
    wordsVal (mmulWords (BitVec.ofNat 260 opA) (BitVec.ofNat 260 opB)) =
      558188190836586668920239910174168451129079246100512069200466650204643237539 := by decide +kernel

theorem test_datapath_inverse :
    gcdInverse 17 = 851412420862619083996845478005058145983190159927047953647288345680641676587 := by decide +kernel

/-! Witnesses. For every obligation with hypotheses: a concrete state and operands that meet them together, for each
clause at the boundaries of its range. -/

/-- The reset state with one event to come. -/
def portState (e : HostEvent) : State := { State.reset with env := { Env.initial with inputs := [e] } }

/-- A running command with one turn of latency left and one event to come. -/
def busyState (e : HostEvent) : State :=
  { State.reset with busy := true, env := { Env.initial with inputs := [e], latLeft := 1 } }

/-- The fault state with one event to come. -/
def faultState (e : HostEvent) : State :=
  { State.reset with fault := true, fcode := 2, env := { Env.initial with inputs := [e] } }

/-- 2 is no square: Euler's criterion, evaluated. -/
theorem two_not_square : ¬ IsFieldSquare 2 := fun h =>
  absurd ((isQR_iff_square (by decide) (by decide +kernel)).mpr h) (by decide +kernel)

theorem witness_DecodeOfEncodeIsTheCommand :
    (Instr.ldu 15 4).wellFormed = true ∧ (Instr.ldc 0 8).wellFormed = true ∧ (Instr.cfop 2).wellFormed = true ∧
    (Instr.sqrt 15 0 1).wellFormed = true ∧ (Instr.twopow 0 4095).wellFormed = true := by decide

theorem witness_DecodedValueIsTheOnlyEncoding : decode 0xfff00f43 = .ok (.twopow 15 4095) := by decide

/-- Each of R84's four conditions, at the completion of a CMD value that meets it. -/
theorem witness_IllegalCommandFaultsWithIllegal :
    (State.reset.withFetchWord 64 0x0000000100000001).busy = true ∧
    (State.reset.withFetchWord 64 0x0000000100000001).env.latLeft = 0 ∧
    (State.reset.withFetchWord 64 0x0000000100000001).pend.toNat / 2 ^ 32 ≠ 0 ∧
    (State.reset.withFetchWord 64 0x44).pend.toNat % 256 = 0x44 ∧
    (State.reset.withFetchWord 64 0x00021117).pend.toNat / 2 ^ 8 % 16 ≠ 0 ∧
    (State.reset.withFetchWord 64 0x00001001).pend.toNat / 2 ^ 12 % 16 ≠ 0 ∧
    (State.reset.withFetchWord 64 0x00010012).pend.toNat / 2 ^ 16 % 16 ≠ 0 ∧
    (State.reset.withFetchWord 64 0x00100010).pend.toNat / 2 ^ 20 % 4096 ≠ 0 ∧
    4 < (State.reset.withFetchWord 64 0x00500003).pend.toNat / 2 ^ 20 % 4096 ∧
    8 < (State.reset.withFetchWord 64 0x00900005).pend.toNat / 2 ^ 20 % 4096 ∧
    2 < (State.reset.withFetchWord 64 0x00300009).pend.toNat / 2 ^ 20 % 4096 ∧
    1 < (State.reset.withFetchWord 64 0x00200041).pend.toNat / 2 ^ 20 % 4096 := by decide

theorem witness_TwopowFaultClause :
    253 ≤ (253#12).toNat ∧ (State.reset.withFetchWord 64 0x0fd00143).busy = true ∧
    (State.reset.withFetchWord 64 0x0fd00143).env.latLeft = 0 ∧
    (State.reset.withFetchWord 64 0x0fd00143).pend = cmdValue (commandWord 0x43 1 0 0 253) := by decide

theorem witness_StepRunsTheDecodedCommand :
    (State.reset.withFetchWord 32 0x00010242).busy = true ∧ (State.reset.withFetchWord 32 0x00010242).env.latLeft = 0 ∧
    decode (State.reset.withFetchWord 32 0x00010242).pend = .ok (.sqrtr 2 0 1) := by decide

theorem witness_CmdWriteIsAccepted :
    (portState (.write (Config.base + 0x008) 64 0x301)).busy = false ∧
    (portState (.write (Config.base + 0x008) 64 0x301)).fault = false ∧
    (portState (.write (Config.base + 0x008) 64 0x301)).env.inputs = .write (Config.base + 0x008) 64 0x301 :: [] :=
  ⟨rfl, rfl, rfl⟩

theorem witness_DroppedWritesOnlySetOverrun (off : Nat) (v : Word) :
    ((busyState (.write (Config.base + off) 64 v)).ready = false ∧ (busyState (.write (Config.base + off) 64 v)).busy = true ∧
      (busyState (.write (Config.base + off) 64 v)).env.inputs = .write (Config.base + off) 64 v :: []) ∧
    ((faultState (.write (Config.base + off) 64 v)).ready = false ∧ (faultState (.write (Config.base + off) 64 v)).fault = true ∧
      (faultState (.write (Config.base + off) 64 v)).env.inputs = .write (Config.base + off) 64 v :: []) ∧
    0x040 ∈ [0x040, 0x048, 0x050, 0x058] ∧ 0x058 ∈ [0x040, 0x048, 0x050, 0x058] :=
  ⟨⟨rfl, rfl, rfl⟩, ⟨rfl, rfl, rfl⟩, by decide, by decide⟩

theorem witness_IgnoredWritesChangeNothing :
    (portState (.write (Config.base + 0xff8) 64 5)).ready = false ∧ 0xff8 < 0x1000 ∧ 0xff8 % 8 = 0 ∧
    0xff8 ∉ [0x008, 0x018, 0x040, 0x048, 0x050, 0x058] ∧ 0x000 ∉ [0x008, 0x018, 0x040, 0x048, 0x050, 0x058] ∧
    (portState (.write (Config.base + 0xff8) 64 5)).env.inputs = .write (Config.base + 0xff8) 64 5 :: [] :=
  ⟨rfl, by decide, by decide, by decide, by decide, rfl⟩

theorem witness_BusErrorsChangeNothing :
    (portState (.read (Config.base + 0x010) 32)).ready = false ∧ ((32 : Nat) ≠ 64 ∨ 0x010 % 8 ≠ 0) ∧
    (portState (.read (Config.base + 0x010) 32)).env.inputs = .read (Config.base + 0x010) 32 :: [] ∧
    (portState (.write (Config.base + 0xfff) 64 5)).ready = false ∧ ((64 : Nat) ≠ 64 ∨ 0xfff % 8 ≠ 0) ∧
    (portState (.write (Config.base + 0xfff) 64 5)).env.inputs = .write (Config.base + 0xfff) 64 5 :: [] :=
  ⟨rfl, by decide, rfl, rfl, by decide, rfl⟩

/-- Every offset of the register map, read in the reset state and while a command runs. -/
theorem witness_PortReadsReturnTheRegisterMap (off : Nat) :
    (portState (.read (Config.base + off) 64)).ready = false ∧
    (portState (.read (Config.base + off) 64)).env.inputs = .read (Config.base + off) 64 :: [] ∧
    (busyState (.read (Config.base + off) 64)).ready = false ∧
    (busyState (.read (Config.base + off) 64)).env.inputs = .read (Config.base + off) 64 :: [] := ⟨rfl, rfl, rfl, rfl⟩

/-- The first and the last offset of every range of the map is below 0x1000 and a multiple of 8. -/
theorem witness_PortReadsOffsets :
    ∀ off ∈ [0x000, 0x008, 0x010, 0x018, 0x020, 0x028, 0x038, 0x040, 0x040 + 8 * 3, 0x060, 0x0f8, 0x100 + 0x40 * 0 + 8 * 0,
      0x100 + 0x40 * 15 + 8 * 4, 0x100 + 0x40 * 0 + 8 * 5, 0x100 + 0x40 * 15 + 8 * 7, 0x500, 0xff8],
      off < 0x1000 ∧ off % 8 = 0 := by decide

theorem witness_DbufWriteStoresEightBytes (v : Word) :
    (portState (.write (Config.base + (0x040 + 8 * 3)) 64 v)).busy = false ∧
    (portState (.write (Config.base + (0x040 + 8 * 3)) 64 v)).dbuf.wf = true ∧
    (portState (.write (Config.base + (0x040 + 8 * 3)) 64 v)).env.inputs =
      .write (Config.base + (0x040 + 8 * 3)) 64 v :: [] := ⟨rfl, rfl, rfl⟩

/-- A soft reset of a running command by CTRL <- 1 and CTRL <- 3, and the platform's reset. -/
theorem witness_SoftResetGivesTheResetState :
    (busyState (.write (Config.base + 0x018) 64 3)).ready = false ∧
    (busyState (.write (Config.base + 0x018) 64 3)).env.inputs = .write (Config.base + 0x018) 64 3 :: [] ∧
    (3 : Word).getLsbD 0 = true ∧ (1 : Word).getLsbD 0 = true ∧ (busyState .powerOnReset).ready = false ∧
    (busyState .powerOnReset).env.inputs = .powerOnReset :: [] := ⟨rfl, rfl, by decide, by decide, rfl, rfl⟩

theorem witness_FaultClearChangesOnlyFaultFields (v : Word) :
    (faultState (.write (Config.base + 0x018) 64 v)).ready = false ∧
    (faultState (.write (Config.base + 0x018) 64 v)).env.inputs = .write (Config.base + 0x018) 64 v :: [] ∧
    (2 : Word).getLsbD 0 = false ∧ (2 : Word).getLsbD 1 = true ∧ (0 : Word).getLsbD 0 = false ∧
    (0 : Word).getLsbD 1 = false := ⟨rfl, rfl, by decide, by decide, by decide, by decide⟩

/-- An idle turn while a command runs, and one of the idle block. -/
theorem witness_OutsideEventsNeverTouchResults :
    (busyState .idle).ready = false ∧ (busyState .idle).busy = true ∧ isNext (step (busyState .idle)) = true ∧
    (portState .powerOnReset).ready = false ∧ isNext (step (portState .powerOnReset)) = true := ⟨rfl, rfl, rfl, rfl, rfl⟩

theorem witness_RunningCommandCompletesInBoundedSteps :
    ({ State.reset.withFetchWord 32 0x301 with env := { Env.initial with latLeft := 3 } } : State).busy = true ∧
    ({ State.reset.withFetchWord 32 0x301 with env := { Env.initial with latLeft := 3 } } : State).env.inputs = [] ∧
    State.reset.busy = false ∧ State.reset.env.inputs = [] ∧ State.reset.env.latLeft = 0 := ⟨rfl, rfl, rfl, rfl, rfl⟩

theorem witness_AccessOutsideTheWindowStops :
    (portState (.read (Config.base + 4096) 64)).ready = false ∧
    ¬ (Config.base ≤ Config.base + 4096 ∧ Config.base + 4096 < Config.base + 4096) ∧
    (portState (.read (Config.base + 4096) 64)).env.inputs = .read (Config.base + 4096) 64 :: [] ∧
    (portState (.write (Config.base + 4096) 64 1)).env.inputs = .write (Config.base + 4096) 64 1 :: [] :=
  ⟨rfl, by omega, rfl, rfl⟩

/-- A completion, a fault and an accepted write, each from a state of the invariant. -/
theorem witness_EveryStepKeepsTheInvariant :
    (State.reset.withFetchWord 32 0x00010242).Inv ∧ isNext (step (State.reset.withFetchWord 32 0x00010242)) = true ∧
    (State.reset.withFetchWord 32 0x00000130).Inv ∧ isNext (step (State.reset.withFetchWord 32 0x00000130)) = true ∧
    (faultState .idle).Inv ∧ isNext (step (faultState .idle)) = true := by decide +kernel

theorem witness_CanonicalRegistersStayCanonical :
    (∀ rd, Instr.add 2 0 1 ≠ .ldb rd) ∧ (∀ rd, Instr.add 2 0 1 ≠ .ldc rd 3) ∧ (stateOf [L - 1, L - 1]).AllCanonical ∧
    isNext (exec (.add 2 0 1) (stateOf [L - 1, L - 1])) = true := by decide +kernel

theorem witness_OnlyTheStatedCommandsWriteEachPart : ∃ t, exec (.sqrt 1 0 1) (stateOf [17]) = .next t :=
  exists_next (by decide +kernel)

theorem witness_StbStoresTheLow256Bits : (stateDbuf 1 2 3 4).dbuf.wf = true := by decide +kernel

/-- The ends of the legal and the illegal immediates of LDU, LDC, CFOP, SQRT and TWOPOW. -/
theorem witness_immediates :
    (0#12).toNat ≤ 4 ∧ (4#12).toNat ≤ 4 ∧ 4 < (5#12).toNat ∧ (0#12).toNat = 0 ∧ (8#12).toNat ≤ 8 ∧ 8 < (9#12).toNat ∧
    (2#12).toNat ≤ 2 ∧ 2 < (3#12).toNat ∧ (1#12).toNat ≤ 1 ∧ 1 < (2#12).toNat ∧ (252#12).toNat < 253 ∧
    253 ≤ (253#12).toNat ∧ 253 ≤ (4095#12).toNat := by decide

/-- Canonical operands at both ends of their range, for ADD, SUB and NEG. -/
theorem witness_canonicalOperands :
    (stateOf [L - 1, 0]).x 0 < L ∧ (stateOf [L - 1, 0]).x 1 < L ∧ (stateOf [0]).x 0 < L := by decide +kernel

theorem witness_IsposTestsCanonicalOperandsOnly : (stateOf [L - 1]).x 0 < L ∧ L ≤ (stateOf [L]).x 0 := by decide +kernel

/-- The largest canonical pair, and R190's bound of 2^253. -/
theorem witness_MontgomeryProducts :
    (stateOf [2 ^ 260 - 1, L - 1]).x 0 * (stateOf [2 ^ 260 - 1, L - 1]).x 1 < L * 2 ^ 260 ∧
    (stateOf [L - 1]).x 0 * (stateOf [L - 1]).x 0 < L * 2 ^ 260 := by decide +kernel

theorem witness_MultiplicativeLawsHold :
    (2 ^ 260 - 1 < 2 ^ 260 ∧ 0 < 2 ^ 260) ∧ (∃ t, exec (.mul 2 0 1) (stateOf [2 ^ 260 - 1, L]) = .next t) ∧
    (∃ t, exec (.sqr 2 0) (stateOf [2 ^ 260 - 1]) = .next t) ∧
    (stateOf [2 ^ 253 - 1, 0]).x 0 < 2 ^ 253 ∧ (stateOf [2 ^ 253 - 1, 0]).x 1 < 2 ^ 253 ∧
    (∃ t, exec (.mmul 2 0 1) (stateOf [2 ^ 253 - 1, 0]) = .next t) ∧
    (∃ t, exec (.msqr 2 0) (stateOf [2 ^ 253 - 1]) = .next t) ∧ 0 < L - 1 ∧ L - 1 < L :=
  ⟨by decide +kernel, exists_next (by decide +kernel), exists_next (by decide +kernel), by decide +kernel,
    by decide +kernel, exists_next (by decide +kernel), exists_next (by decide +kernel), by decide +kernel, by decide +kernel⟩

/-- The operands of INV and the divisor of DIV: 1 and L - 1, L, and 0. -/
theorem witness_InvAndDiv :
    0 < (stateOf [1]).x 0 ∧ (stateOf [1]).x 0 < L ∧ 0 < (stateOf [L - 1]).x 0 ∧ (stateOf [L - 1]).x 0 < L ∧
    L ≤ (stateOf [L]).x 0 ∧ (stateOf [0]).x 0 = 0 := by decide +kernel

theorem witness_LegSetsTheChoiceFlagToResidue :
    (stateOf [17]).x 0 % L ≠ 0 ∧ (stateOf [L]).x 0 % L = 0 ∧ (stateOf [0]).x 0 % L = 0 := by decide +kernel

/-- SQRT's operands 0, 1 (a square), 2 (none), L - 1 (a square) and L, at both legal immediates. -/
theorem witness_SqrtWritesTheRequestedRootOrNoValue :
    (stateOf [0]).x 0 = 0 ∧ (0 < (stateOf [2]).x 0 ∧ (stateOf [2]).x 0 < L ∧ ¬ IsFieldSquare ((stateOf [2]).x 0)) ∧
    (0 < (stateOf [1]).x 0 ∧ (stateOf [1]).x 0 < L ∧ IsFieldSquare ((stateOf [1]).x 0)) ∧
    (0 < (stateOf [L - 1]).x 0 ∧ (stateOf [L - 1]).x 0 < L ∧ IsFieldSquare ((stateOf [L - 1]).x 0)) ∧
    L ≤ (stateOf [L]).x 0 := by
  have two : (stateOf [2]).x 0 = 2 := by decide +kernel
  refine ⟨by decide +kernel, ⟨by decide +kernel, by decide +kernel, two ▸ two_not_square⟩,
    ⟨by decide +kernel, by decide +kernel, 1, by decide +kernel⟩,
    ⟨by decide +kernel, by decide +kernel, K.sqrtM1Pos, by decide +kernel⟩, by decide +kernel⟩

/-- SQRTR's operands: u = 0; v = 0; w = 68 / 4 = 17 and w = 2 / 1; and one operand not canonical. -/
theorem witness_SqrtrWritesTheRatioRoot :
    ((stateOf [0, L - 1]).x 0 < L ∧ (stateOf [0, L - 1]).x 1 < L ∧ (stateOf [0, L - 1]).x 0 = 0) ∧
    ((stateOf [3, 0]).x 0 < L ∧ (stateOf [3, 0]).x 1 < L ∧ (stateOf [3, 0]).x 0 ≠ 0 ∧ (stateOf [3, 0]).x 1 = 0) ∧
    ((stateOf [68, 4]).x 0 < L ∧ (stateOf [68, 4]).x 1 < L ∧ (stateOf [68, 4]).x 0 ≠ 0 ∧ (stateOf [68, 4]).x 1 ≠ 0 ∧
      17 < L ∧ 17 * (stateOf [68, 4]).x 1 % L = (stateOf [68, 4]).x 0) ∧
    ((stateOf [2, 1]).x 0 < L ∧ (stateOf [2, 1]).x 1 < L ∧ (stateOf [2, 1]).x 0 ≠ 0 ∧ (stateOf [2, 1]).x 1 ≠ 0 ∧
      2 < L ∧ 2 * (stateOf [2, 1]).x 1 % L = (stateOf [2, 1]).x 0) ∧
    L ≤ (stateOf [L, 1]).x 0 ∧ L ≤ (stateOf [1, L]).x 1 := by decide +kernel

/-- R255's first clause: an operand with a root. -/
theorem witness_ResidueAndRootLaws_root :
    (stateOf [17]).x 0 < L ∧ (stateOf [17]).x 0 ≠ 0 ∧ (∃ l, exec (.leg 0) (stateOf [17]) = .next l) ∧
    (∃ p, exec (.sqrt 1 0 1) (stateOf [17]) = .next p ∧ p.vf = true) ∧
    (∃ n, exec (.sqrt 1 0 0) (stateOf [17]) = .next n ∧ n.vf = true) := by
  have vf : ∀ i : Instr, isNext (exec i (stateOf [17])) = true → (after (exec i (stateOf [17]))).vf = true →
      ∃ p, exec i (stateOf [17]) = .next p ∧ p.vf = true := by
    intro i h hv
    obtain ⟨t, ht⟩ := exists_next h
    rw [ht] at hv
    exact ⟨t, ht, hv⟩
  exact ⟨by decide +kernel, by decide +kernel, exists_next (by decide +kernel), vf _ (by decide +kernel) (by decide +kernel),
    vf _ (by decide +kernel) (by decide +kernel)⟩

/-- R255's second clause: the ratios 68 / 4 (a square) and 0 / 5 (u = 0). -/
theorem witness_ResidueAndRootLaws_ratio :
    ((stateOf [68, 4]).x 0 < L ∧ 0 < (stateOf [68, 4]).x 1 ∧ (stateOf [68, 4]).x 1 < L ∧
      ∃ t, exec (.sqrtr 2 0 1) (stateOf [68, 4]) = .next t) ∧
    ((stateOf [0, 5]).x 0 = 0 ∧ (stateOf [0, 5]).x 0 < L ∧ 0 < (stateOf [0, 5]).x 1 ∧ (stateOf [0, 5]).x 1 < L ∧
      ∃ t, exec (.sqrtr 2 0 1) (stateOf [0, 5]) = .next t) :=
  ⟨⟨by decide +kernel, by decide +kernel, by decide +kernel, exists_next (by decide +kernel)⟩,
    ⟨by decide +kernel, by decide +kernel, by decide +kernel, by decide +kernel, exists_next (by decide +kernel)⟩⟩

/-- R255's last clause, at both ends of TWOPOW's range: k = 252 and k = 0. -/
theorem witness_ResidueAndRootLaws_twopow :
    ((252#12).toNat < 253 ∧ (stateOf [2, 252]).x 0 = 2 ∧ (stateOf [2, 252]).x 1 = (252#12).toNat ∧
      (∃ t, exec (.twopow 3 252) (stateOf [2, 252]) = .next t) ∧ ∃ t, exec (.pow 3 0 1) (stateOf [2, 252]) = .next t) ∧
    ((0#12).toNat < 253 ∧ (stateOf [2, 0]).x 0 = 2 ∧ (stateOf [2, 0]).x 1 = (0#12).toNat ∧
      (∃ t, exec (.twopow 3 0) (stateOf [2, 0]) = .next t) ∧ ∃ t, exec (.pow 3 0 1) (stateOf [2, 0]) = .next t) :=
  ⟨⟨by decide, by decide +kernel, by decide +kernel, exists_next (by decide +kernel), exists_next (by decide +kernel)⟩,
    ⟨by decide, by decide +kernel, by decide +kernel, exists_next (by decide +kernel), exists_next (by decide +kernel)⟩⟩

/-- R255's clause for a ratio that is no square: u = 2, v = 1 gives CF = 0. -/
theorem witness_ResidueAndRootLaws_nonsquare :
    ∃ t, exec (.sqrtr 2 0 1) (stateOf [2, 1]) = .next t ∧ t.cf = false ∧ (stateOf [2, 1]).x 0 ≠ 0 := by
  have h0 : (stateOf [2, 1]).x 0 = 2 := by decide +kernel
  have h1 : (stateOf [2, 1]).x 1 = 1 := by decide +kernel
  have c : (canonical 2 && canonical 1) = true := by decide +kernel
  refine ⟨(((stateOf [2, 1]).setCf (sqrtRatio 2 1).1).setX 2 (sqrtRatio 2 1).2).commit, ?_, ?_, by rw [h0]; decide⟩
  · simp only [exec, execSqrtr, h0, h1, c, if_true, writeBack]
  · simp only [State.commit, State.setX, State.setCf, test_sqrtr_not_square]

theorem witness_PowUnitComputesThePower : 2 ^ 260 - 1 < 2 ^ 260 ∧ 0 < 2 ^ 260 := by decide +kernel

theorem witness_BinaryGcdUnitComputesTheInverse : (0 < 1 ∧ 1 < L) ∧ 0 < L - 1 ∧ L - 1 < L := by decide +kernel

end Sys2Proof.Tests
end

section
/-! The writes of the commands, said once: `exec_effect` names the part of the state each command writes, and the facts
about what a command leaves unchanged and about canonical registers follow from it by cases on the kind of write. -/

namespace Sys2Proof.Machine

/-- The commands that write no field register, so that their encodings have no rd (`30_encoding.md` R82, R83). -/
def noDestOps : List Op := [.stb, .cfop, .iseven, .ispos, .eq, .leg]

/-- The commands whose one write is CF (`10_state.md` R23). -/
def choiceOps : List Op := [.iseven, .ispos, .eq, .leg, .cfop]

/-- The commands for which `10_state.md` R21 claims a canonical result: LDB loads any 253 bits, and LDC's selector 3
loads L itself. -/
def KeepsCanonical (i : Instr) : Prop := (∀ rd, i ≠ .ldb rd) ∧ ∀ rd, i ≠ .ldc rd 3

/-- `v` is a result of command `i` at `s` that breaks no canonical form (`10_state.md` R21). -/
def ResultFits (i : Instr) (s : State) (v : Nat) : Prop := KeepsCanonical i → s.AllCanonical → v < L

/-- How a command can end: with a fault, or completed with the writes of its row of `30_encoding.md` R82. -/
inductive Effect (i : Instr) (s : State) : Host.Outcome State Fault Refusal → Prop where
  | fault (c : FaultCode) : Effect i s (.next (s.takeFault c))
  | reg {v : Nat} (hop : i.op ∉ noDestOps) (hv : ResultFits i s v) : Effect i s (.next (s.setX i.operands.rd v).commit)
  | regCf {v : Nat} (b : Bool) (hop : i.op = .sqrtr) (hv : ResultFits i s v) :
      Effect i s (.next ((s.setCf b).setX i.operands.rd v).commit)
  | regVf {v : Nat} (b : Bool) (hop : i.op = .sqrt) (hv : ResultFits i s v) :
      Effect i s (.next ((s.setVf b).setX i.operands.rd v).commit)
  | choice (b : Bool) (hop : i.op ∈ choiceOps) : Effect i s (.next (s.setCf b).commit)
  | buffer (v : Nat) (hop : i.op = .stb) : Effect i s (.next (s.setDbuf v).commit)

/-! The range of a result, where `Laws/Arith.lean` and `Laws/Results.lean` do not state it already. -/

theorem addF_lt_L {a b : Nat} (ha : a < L) (hb : b < L) : addF a b < L := by
  rw [addF_canonical ha hb]; exact Nat.mod_lt _ L_pos

theorem subF_lt_L {a b : Nat} (ha : a < L) (hb : b < L) : subF a b < L := by
  rw [subF_canonical ha hb]; exact Nat.mod_lt _ L_pos

theorem ldiValue_lt_L (imm : Imm) : ldiValue imm < L :=
  lt_trans imm.isLt (by decide +kernel)

theorem mod_lduWidth_lt_L {imm : Imm} {w : Nat} (h : lduWidth imm = some w) (n : Nat) : n % 2 ^ w < L :=
  calc n % 2 ^ w < 2 ^ w := Nat.mod_lt _ (Nat.two_pow_pos w)
    _ ≤ 2 ^ 128 := Nat.pow_le_pow_right two_pos (lduWidth_le h)
    _ < L := by decide +kernel

/-- Every constant of LDC but selector 3's, which is L, is canonical (`10_state.md` R33). -/
theorem ldcValue_lt_L {imm : Imm} {v : Nat} (h : ldcValue imm = some v) (h3 : imm ≠ 3) : v < L := by
  unfold ldcValue at h
  split at h
  case h_1 => cases h; exact L_pos
  case h_2 => cases h; exact one_lt_L
  case h_3 => cases h; exact minusOne_lt
  case h_4 he => exact absurd (BitVec.eq_of_toNat_eq he) h3
  case h_5 => cases h; exact rr_lt
  case h_6 => cases h; exact inv2_lt
  case h_7 => cases h; exact halfBound_lt
  case h_8 => cases h; exact sqrtM1_lt
  case h_9 => cases h; exact montOne_lt
  case h_10 => cases h

/-- The canonical check passes exactly below L (`00_scope.md` R7). -/
theorem canonical_iff {v : Nat} : canonical v = true ↔ v < L := decide_eq_true_iff

/-! The effects of the shared endings and of the commands that have more than one ending. -/

section Effects

variable {i : Instr} {s : State}

theorem Effect.of_raise (c : FaultCode) : Effect i s (raise c s) := .fault c

/-- The premises on the opcode and on rd hold by evaluation for each command. -/
theorem Effect.of_writeBack {rd : Reg} {v : Nat} (hop : noDestOps.contains i.op = false) (hrd : i.operands.rd = rd)
    (hv : ResultFits i s v) : Effect i s (writeBack rd v s) := by
  subst hrd; exact .reg (by simpa using hop) hv

theorem Effect.of_writeChoice (b : Bool) (hop : choiceOps.contains i.op = true) : Effect i s (writeChoice b s) :=
  .choice b (by simpa using hop)

theorem execLdu_effect (rd : Reg) (imm : Imm) : Effect (.ldu rd imm) s (execLdu rd imm s) := by
  unfold execLdu
  split
  · rename_i hw; exact .of_writeBack rfl rfl fun _ _ => mod_lduWidth_lt_L hw _
  · exact .of_raise _

theorem execLdc_effect (rd : Reg) (imm : Imm) : Effect (.ldc rd imm) s (execLdc rd imm s) := by
  unfold execLdc
  split
  · rename_i hv
    exact .of_writeBack rfl rfl fun ⟨_, hldc⟩ _ => ldcValue_lt_L hv fun h3 => hldc rd (by rw [h3])
  · exact .of_raise _

theorem execCfop_effect (imm : Imm) : Effect (.cfop imm) s (execCfop imm s) := by
  unfold execCfop
  split
  · exact .of_writeChoice _ rfl
  · exact .of_raise _

theorem execIspos_effect (rs1 : Reg) : Effect (.ispos rs1) s (execIspos rs1 s) := by
  unfold execIspos
  split
  · exact .of_writeChoice _ rfl
  · exact .of_raise _

theorem execInv_effect (rd rs1 : Reg) : Effect (.inv rd rs1) s (execInv rd rs1 s) := by
  unfold execInv
  split
  · exact .of_raise _
  split
  · exact .of_raise _
  · exact .of_writeBack rfl rfl fun _ _ => invL_lt _

theorem execDiv_effect (rd rs1 rs2 : Reg) : Effect (.div rd rs1 rs2) s (execDiv rd rs1 rs2 s) := by
  unfold execDiv
  split
  · exact .of_raise _
  split
  · exact .of_raise _
  · exact .of_writeBack rfl rfl fun _ _ => mulF_lt (s.x_lt rs1) ((invL_lt _).trans L_lt_R)

theorem execSqrt_effect (rd rs1 : Reg) (imm : Imm) : Effect (.sqrt rd rs1 imm) s (execSqrt rd rs1 imm s) := by
  unfold execSqrt
  split
  · exact .of_raise _
  split
  · exact .of_raise _
  · exact .regVf _ rfl fun _ hc => sqrtResult_lt (hc rs1) _

theorem execSqrtr_effect (rd rs1 rs2 : Reg) : Effect (.sqrtr rd rs1 rs2) s (execSqrtr rd rs1 rs2 s) := by
  unfold execSqrtr
  split
  · exact .regCf _ rfl fun _ hc => (sqrtRatio_le (hc rs1) (hc rs2)).trans_lt halfBound_lt
  · exact .of_raise _

theorem execTwopow_effect (rd : Reg) (imm : Imm) : Effect (.twopow rd imm) s (execTwopow rd imm s) := by
  unfold execTwopow
  split
  · exact .of_raise _
  · rename_i hk; exact .of_writeBack rfl rfl fun _ _ => twopow_lt hk

end Effects

/-- Every command in every state ends with a fault or with the writes of its row (`30_encoding.md` R82), and a result
of canonical operands is canonical (`10_state.md` R21). -/
theorem exec_effect (i : Instr) (s : State) : Effect i s (exec i s) := by
  cases i with
  | ldb rd => exact .of_writeBack rfl rfl fun ⟨hldb, _⟩ _ => absurd rfl (hldb rd)
  | stb rs1 => exact .buffer _ rfl
  | ldu rd imm => exact execLdu_effect rd imm
  | ldi rd imm => exact .of_writeBack rfl rfl fun _ _ => ldiValue_lt_L imm
  | ldc rd imm => exact execLdc_effect rd imm
  | mov rd rs1 => exact .of_writeBack rfl rfl fun _ hc => hc rs1
  | csel rd rs1 rs2 =>
    refine .of_writeBack rfl rfl fun _ hc => ?_
    split
    · exact hc rs2
    · exact hc rs1
  | cneg rd rs1 =>
    refine .of_writeBack rfl rfl fun _ hc => ?_
    split
    · exact negF_canonical (hc rs1)
    · exact hc rs1
  | cfop imm => exact execCfop_effect imm
  | add rd rs1 rs2 => exact .of_writeBack rfl rfl fun _ hc => addF_lt_L (hc rs1) (hc rs2)
  | sub rd rs1 rs2 => exact .of_writeBack rfl rfl fun _ hc => subF_lt_L (hc rs1) (hc rs2)
  | neg rd rs1 => exact .of_writeBack rfl rfl fun _ hc => negF_canonical (hc rs1)
  | halfw rd rs1 => exact .of_writeBack rfl rfl fun _ hc => (Nat.div_le_self _ 2).trans_lt (hc rs1)
  | half rd rs1 => exact .of_writeBack rfl rfl fun _ _ => mulF_lt (s.x_lt rs1) (inv2_lt.trans L_lt_R)
  | iseven rs1 => exact .of_writeChoice _ rfl
  | ispos rs1 => exact execIspos_effect rs1
  | eq rs1 rs2 => exact .of_writeChoice _ rfl
  | mul rd rs1 rs2 => exact .of_writeBack rfl rfl fun _ _ => mulF_lt (s.x_lt rs1) (s.x_lt rs2)
  | sqr rd rs1 => exact .of_writeBack rfl rfl fun _ _ => mulF_lt (s.x_lt rs1) (s.x_lt rs1)
  | mmul rd rs1 rs2 =>
    exact .of_writeBack rfl rfl fun _ hc => mred_lt_L (mul_lt_LR (s.x_lt rs1) (hc rs2))
  | msqr rd rs1 => exact .of_writeBack rfl rfl fun _ hc => mred_lt_L (mul_lt_LR (s.x_lt rs1) (hc rs1))
  | tomont rd rs1 => exact .of_writeBack rfl rfl fun _ _ => mred_lt_L (mul_lt_LR (s.x_lt rs1) rr_lt)
  | frommont rd rs1 => exact .of_writeBack rfl rfl fun _ _ => mred_lt_of_lt_R (s.x_lt rs1)
  | pow rd rs1 rs2 => exact .of_writeBack rfl rfl fun _ _ => powF_lt _ _
  | inv rd rs1 => exact execInv_effect rd rs1
  | div rd rs1 rs2 => exact execDiv_effect rd rs1 rs2
  | leg rs1 => exact .of_writeChoice _ rfl
  | sqrt rd rs1 imm => exact execSqrt_effect rd rs1 imm
  | sqrtr rd rs1 rs2 => exact execSqrtr_effect rd rs1 rs2
  | twopow rd imm => exact execTwopow_effect rd imm

/-! What a command with an effect leaves unchanged, one part of the state at a time. -/

section Frames

variable {i : Instr} {s t : State}

/-- `10_state.md` R22: only FR[rd] changes, and only for a command that has an rd. -/
theorem Effect.x_eq (h : Effect i s (.next t)) {r : Reg} (hr : r ≠ i.operands.rd ∨ i.op ∈ noDestOps) :
    t.x r = s.x r := by
  cases h with
  | fault | choice | buffer => rfl
  | reg hop => exact State.x_setX_ne s _ (hr.resolve_right hop)
  | regCf b hop => exact State.x_setX_ne (s.setCf b) _ (hr.resolve_right (by rw [hop]; decide))
  | regVf b hop => exact State.x_setX_ne (s.setVf b) _ (hr.resolve_right (by rw [hop]; decide))

/-- `10_state.md` R23: the commands that write CF are the predicates, CFOP and SQRTR. -/
theorem Effect.cf_eq (h : Effect i s (.next t)) (hc : i.op ∉ choiceOps) (hr : i.op ≠ .sqrtr) : t.cf = s.cf := by
  cases h with
  | fault | reg | regVf | buffer => rfl
  | regCf b hop => exact absurd hop hr
  | choice b hop => exact absurd hop hc

/-- `10_state.md` R24: only SQRT writes VF. -/
theorem Effect.vf_eq (h : Effect i s (.next t)) (hi : i.op ≠ .sqrt) : t.vf = s.vf := by
  cases h with
  | fault | reg | regCf | choice | buffer => rfl
  | regVf b hop => exact absurd hop hi

/-- Only STB writes DBUF (`30_encoding.md` R82). -/
theorem Effect.dbuf_eq (h : Effect i s (.next t)) (hi : i.op ≠ .stb) : t.dbuf = s.dbuf := by
  cases h with
  | fault | reg | regCf | regVf | choice => rfl
  | buffer v hop => exact absurd hop hi

/-- A write of a value below L keeps all registers canonical. -/
theorem allCanonical_setX (hs : s.AllCanonical) (rd : Reg) {v : Nat} (hv : v < L) : (s.setX rd v).AllCanonical := by
  intro r
  by_cases h : r = rd
  · rw [h, State.x_setX_self s rd (hv.trans L_lt_R)]; exact hv
  · rw [State.x_setX_ne s v h]; exact hs r

theorem Effect.allCanonical (h : Effect i s (.next t)) (hi : KeepsCanonical i) (hs : s.AllCanonical) :
    t.AllCanonical := by
  cases h with
  | fault | choice | buffer => exact hs
  | reg hop hv => exact allCanonical_setX hs _ (hv hi hs)
  | regCf b hop hv => exact allCanonical_setX (s := s.setCf b) hs _ (hv hi hs)
  | regVf b hop hv => exact allCanonical_setX (s := s.setVf b) hs _ (hv hi hs)

end Frames

/-! The family's statements (`10_state.md`). -/

/-- Settles O22: `exec_effect` bounds every result that goes to a register. -/
theorem canonicalRegistersStayCanonical : Obligations.CanonicalRegistersStayCanonical := by
  intro i s t hldb hldc hs ht
  have he : Effect i s (.next t) := ht ▸ exec_effect i s
  exact he.allCanonical ⟨hldb, hldc⟩ hs

/-- Settles O24, one frame of `exec_effect` for each part of the state. -/
theorem onlyTheStatedCommandsWriteEachPart : Obligations.OnlyTheStatedCommandsWriteEachPart := by
  intro i s t ht
  have he : Effect i s (.next t) := ht ▸ exec_effect i s
  refine ⟨fun r hr => he.x_eq hr, fun hc => he.cf_eq ?_ ?_, he.vf_eq, fun hi k => by rw [he.dbuf_eq hi]⟩
  · exact fun hm => hc ((by decide : choiceOps ⊆ [.iseven, .ispos, .eq, .leg, .sqrtr, .cfop]) hm)
  · exact fun hm => hc (by rw [hm]; decide)

/-- Every architectural field of `State.reset` (`10_state.md` R38). -/
theorem isReset_reset : IsReset State.reset where
  regs := State.reset_x
  cf := rfl
  vf := rfl
  bytes := Memory.read_nil
  busy := rfl
  pend := rfl
  fault := rfl
  fcode := rfl
  ovr := rfl
  cmdcnt := rfl

/-- The two roots that SQRT_M1 can be (`10_state.md` R34). -/
theorem sqrtM1_cases : K.sqrtM1 = K.sqrtM1Pos ∨ K.sqrtM1 = K.sqrtM1Neg := by
  unfold K.sqrtM1
  split
  · exact .inl rfl
  · exact .inr rfl

theorem sqrtM1Neg_eq :
    K.sqrtM1Neg = 4202356475871964119699734399548423449193549369991576068503119564443318355924 := by decide +kernel

/-- Settles O19: the reset fields by `isReset_reset`, the ROM's constants by evaluating their formulas. -/
theorem resetStateIsTheStatedOne : Obligations.ResetStateIsTheStatedOne := by
  refine ⟨isReset_reset, rfl, ?minusOne, ?modulus, ?rr, ?inv2, ?halfBound, ?sqrtM1, ?montOne, rfl, rfl, rfl, ?tsQ⟩
  case sqrtM1 => exact sqrtM1_cases.imp_right fun h => h.trans sqrtM1Neg_eq
  all_goals decide +kernel

/-- Settles O20. -/
theorem resetMeetsTheInvariant : Obligations.ResetMeetsTheInvariant := by
  have hcode : State.reset.fcode.toNat ≤ 4 := by simp
  have hfault : State.reset.fault = true ↔ State.reset.fcode ≠ 0 := by simp
  exact ⟨reset_dbuf_wf, hcode, hfault, fun _ => State.reset_fault, fun _ => rfl⟩

end Sys2Proof.Machine
end

section
/-! The host port (`20_memory.md`), in the order of its parts: the address map said once per range of offsets, what a
read of each register returns, an aligned 64-bit access as a step, and what a turn of the outside world can do to a
command's results. The family's statements follow from these. -/

namespace Sys2Proof.Machine

/-! The address map of `20_memory.md` R51. -/

/-- A register whose value a host write can reach: CMD, CTRL and the DBUF registers (`20_memory.md` R52). -/
def PortReg.takesWrites : PortReg → Bool
  | .cmd | .ctrl | .dbuf _ => true
  | .id | .status | .cmdcnt | .frview _ _ | .reserved => false

theorem writePort_of_not_takesWrites {p : PortReg} (h : p.takesWrites = false) (v : Word) (s : State) :
    writePort p v s = s := by
  cases p with
  | cmd | ctrl | dbuf => cases h
  | id | status | cmdcnt | frview | reserved => rfl

/-- The offsets of CMD, CTRL and DBUF0 to DBUF3 are the only aligned ones that take writes (`20_memory.md` R52,
R54). -/
theorem takesWrites_portReg {off : Nat} (hal : off % 8 = 0)
    (hoff : off ∉ [0x008, 0x018, 0x040, 0x048, 0x050, 0x058]) : (portReg off).takesWrites = false := by
  simp only [List.mem_cons, List.not_mem_nil, or_false, not_or] at hoff
  have hdbuf : ¬ (0x040 ≤ off ∧ off < 0x060) := by omega
  obtain ⟨hcmd, hctrl, -⟩ := hoff
  rw [portReg, if_neg hcmd, if_neg hctrl, if_neg hdbuf]
  repeat' split
  all_goals rfl

theorem portReg_dbuf {i : Nat} (hi : i < 4) : portReg (0x040 + 8 * i) = .dbuf i := by
  have hrange : 0x040 ≤ 0x040 + 8 * i ∧ 0x040 + 8 * i < 0x060 := by omega
  have hindex : (0x040 + 8 * i - 0x040) / 8 = i := by omega
  unfold portReg
  iterate 5 rw [if_neg (by omega)]
  rw [if_pos hrange, hindex]

/-- Above DBUF the map has nothing but the FRVIEW blocks and reserved offsets. -/
theorem portReg_of_le {off : Nat} (h : 0x060 ≤ off) :
    portReg off =
      if hb : 0x100 ≤ off ∧ off < 0x500 then
        if (off - 0x100) % 0x40 < 0x28 then .frview ⟨(off - 0x100) / 0x40, by omega⟩ ((off - 0x100) % 0x40 / 8)
        else .reserved
      else .reserved := by
  unfold portReg
  iterate 6 rw [if_neg (by omega)]

theorem portReg_frview (n : Reg) {j : Nat} (hj : j < 5) : portReg (0x100 + 0x40 * n.val + 8 * j) = .frview n j := by
  have hn := n.isLt
  have hlimb : (0x100 + 0x40 * n.val + 8 * j - 0x100) % 0x40 = 8 * j := by omega
  have hreg : (0x100 + 0x40 * n.val + 8 * j - 0x100) / 0x40 = n.val := by omega
  have hindex : 8 * j / 8 = j := by omega
  rw [portReg_of_le (by omega), dif_pos (by omega)]
  simp only [hlimb, hreg, hindex]
  rw [if_pos (by omega)]

/-- The three unused words at the end of each FRVIEW block (`20_memory.md` R54). -/
theorem portReg_frview_gap {n j : Nat} (hn : n < 16) (hlo : 5 ≤ j) (hhi : j < 8) :
    portReg (0x100 + 0x40 * n + 8 * j) = .reserved := by
  rw [portReg_of_le (by omega), dif_pos (by omega), if_neg (by omega)]

/-- The offsets between CMDCNT and DBUF0 (`20_memory.md` R54). -/
theorem portReg_gap_cmdcnt {off : Nat} (hlo : 0x028 ≤ off) (hhi : off < 0x040) : portReg off = .reserved := by
  unfold portReg
  iterate 6 rw [if_neg (by omega)]
  rw [dif_neg (by omega)]

/-- The offsets between DBUF3 and FRVIEW, and those after FRVIEW (`20_memory.md` R54). -/
theorem portReg_gap_frviews {off : Nat} (hlo : 0x060 ≤ off) (h : off < 0x100 ∨ 0x500 ≤ off) :
    portReg off = .reserved := by
  rw [portReg_of_le hlo, dif_neg (by omega)]

/-! What a read returns. -/

/-- No register shows the model's own fields, so a turn that passes does not change what a read returns. -/
theorem readPort_turn (p : PortReg) (s : State) (rest : List HostEvent) :
    readPort p (s.tick.setInputs rest) = readPort p s := by
  cases p <;> rfl

theorem toNat_bit (b : Bool) : (bit b).toNat = b.toNat := BitVec.toNat_ofBool b

/-- STATUS as the sum of its fields (`10_state.md` R27). -/
theorem toNat_statusWord (s : State) :
    (statusWord s).toNat = s.busy.toNat + 2 * s.fault.toNat + 4 * s.ovr.toNat + 16 * s.fcode.toNat +
      256 * s.cf.toNat + 512 * s.vf.toNat := by
  simp only [statusWord, toNat_append, toNat_bit, BitVec.toNat_zero]
  omega

/-- DBUFi as the little-endian sum of its eight bytes (`20_memory.md` R55). -/
theorem toNat_readPort_dbuf (i : Nat) (s : State) : (readPort (.dbuf i) s).toNat = dbufSum s (8 * i) 8 := by
  have hlt : s.dbuf.load (8 * i) 8 < 2 ^ 64 := s.dbuf.load_lt 8 (8 * i)
  rw [readPort, BitVec.toNat_ofNat, Nat.mod_eq_of_lt hlt, load_eq_dbufSum]

/-- FRVIEW n.j as limb j of FRn (`00_scope.md` R6, `10_state.md` R32). -/
theorem toNat_readPort_frview (n : Reg) (j : Nat) (s : State) :
    (readPort (.frview n j) s).toNat = s.x n / 2 ^ (52 * j) % 2 ^ 52 := by
  have hlimb : (limb s.fr[n] j).toNat = s.x n / 2 ^ (52 * j) % 2 ^ 52 := by
    rw [limb, BitVec.extractLsb'_toNat, Nat.shiftRight_eq_div_pow, State.x]
  rw [readPort, BitVec.toNat_setWidth_of_le (by decide), hlimb]

/-! An access as a step. -/

theorem writeDbuf_of_idle (i : Nat) (v : Word) {s : State} (h : s.busy = false) :
    writeDbuf i v s = { s with dbuf := s.dbuf.store (8 * i) 8 v.toNat } := by
  rw [writeDbuf, h, if_neg Bool.false_ne_true]

theorem accessOk_iff {bits off : Nat} : accessOk bits off = true ↔ bits = 64 ∧ off % 8 = 0 := by
  simp only [accessOk, Bool.and_eq_true, decide_eq_true_eq]

theorem step_write_aligned {s : State} {off : Nat} {v : Word} {rest : List HostEvent} (hr : s.ready = false)
    (ho : off < 0x1000) (hal : off % 8 = 0) (hi : s.env.inputs = .write (Config.base + off) 64 v :: rest) :
    step s = .next ((writePort (portReg off) v (s.tick.setInputs rest)).answer .done) := by
  rw [step_write hr ho hi, writeAt, if_pos (accessOk_iff.2 ⟨rfl, hal⟩)]

theorem step_read_aligned {s : State} {off : Nat} {rest : List HostEvent} (hr : s.ready = false)
    (ho : off < 0x1000) (hal : off % 8 = 0) (hi : s.env.inputs = .read (Config.base + off) 64 :: rest) :
    step s = .next ((s.tick.setInputs rest).answer (.data (readPort (portReg off) s))) := by
  rw [step_read hr ho hi, readAt, if_pos (accessOk_iff.2 ⟨rfl, hal⟩), readPort_turn]

/-- `20_memory.md` R53, for a read and for a write. -/
theorem step_bad_access {s : State} {off bits : Nat} {v : Word} {rest : List HostEvent} (hr : s.ready = false)
    (ho : off < 0x1000) (hbad : accessOk bits off = false)
    (hi : s.env.inputs = .read (Config.base + off) bits :: rest ∨
      s.env.inputs = .write (Config.base + off) bits v :: rest) :
    step s = .next ((s.tick.setInputs rest).answer .busError) := by
  have hneg : ¬ accessOk bits off = true := Bool.eq_false_iff.1 hbad
  cases hi with
  | inl hread => rw [step_read hr ho hread, readAt, if_neg hneg]
  | inr hwrite => rw [step_write hr ho hwrite, writeAt, if_neg hneg]

theorem windowOffset_eq_none {addr : Nat} (h : ¬ (Config.base ≤ addr ∧ addr < Config.base + 0x1000)) :
    windowOffset addr = none := if_neg h

/-- The byte of a word that a little-endian store puts at place `k` (`20_memory.md` R55). -/
theorem ofNat_div_eq_extract (v : Word) (k : Nat) : BitVec.ofNat 8 (v.toNat / 256 ^ k) = v.extractLsb' (8 * k) 8 := by
  have hpow : 256 ^ k = 2 ^ (8 * k) := (pow_mul 2 8 k).symm
  rw [BitVec.extractLsb', Nat.shiftRight_eq_div_pow, hpow]

/-! What a turn of the outside world can do to results. -/

/-- The results of commands read as before, and a command that runs goes on as it was accepted (`20_memory.md` R52,
R61, R64). -/
def KeepsResults (s t : State) : Prop :=
  SameRegs s t ∧ t.cf = s.cf ∧ t.vf = s.vf ∧ t.cmdcnt = s.cmdcnt ∧
    (s.busy = true → t.busy = true ∧ t.pend = s.pend ∧ SameBytes s t)

theorem KeepsResults.refl (s : State) : KeepsResults s s :=
  ⟨fun _ => rfl, rfl, rfl, rfl, fun hb => ⟨hb, rfl, fun _ => rfl⟩⟩

/-- While no command runs, PEND, BUSY and DBUF are free to change. -/
theorem KeepsResults.of_idle {s t : State} (hidle : s.busy = false) (hregs : SameRegs s t) (hcf : t.cf = s.cf)
    (hvf : t.vf = s.vf) (hcnt : t.cmdcnt = s.cmdcnt) : KeepsResults s t :=
  ⟨hregs, hcf, hvf, hcnt, fun hb => absurd (hb.symm.trans hidle) (by decide)⟩

/-- The answer, the latency and the events to come are no part of the results (logs 3, 4 and 6). -/
theorem keepsResults_answer {s t : State} {r : PortAnswer} : KeepsResults s (t.answer r) ↔ KeepsResults s t := Iff.rfl

theorem keepsResults_tick {s : State} : KeepsResults s s.tick := KeepsResults.refl s

theorem keepsResults_turn {s t : State} {rest : List HostEvent} :
    KeepsResults (s.tick.setInputs rest) t ↔ KeepsResults s t := Iff.rfl

theorem keepsResults_dropWrite (s : State) : KeepsResults s s.dropWrite := KeepsResults.refl s

theorem keepsResults_clearFault (s : State) : KeepsResults s s.clearFault := KeepsResults.refl s

/-- A reset gives every architectural field its reset value, whatever the outside world's fields are
(`70_reset_and_hazards.md` R340). -/
theorem isReset_toReset (s : State) : IsReset s.toReset :=
  ⟨isReset_reset.regs, rfl, rfl, isReset_reset.bytes, rfl, rfl, rfl, rfl, rfl, rfl⟩

theorem IsReset.answer {t : State} (h : IsReset t) (r : PortAnswer) : IsReset (t.answer r) :=
  ⟨h.regs, h.cf, h.vf, h.bytes, h.busy, h.pend, h.fault, h.fcode, h.ovr, h.cmdcnt⟩

/-- A write to the port resets the block or leaves every result: it accepts a command, or stores to DBUF, only while
none runs (`70_reset_and_hazards.md` R351, R353). -/
theorem writePort_reset_or_keepsResults (p : PortReg) (v : Word) (s : State) :
    IsReset (writePort p v s) ∨ KeepsResults s (writePort p v s) := by
  rcases writePort_cases p v s with hsame | hdrop | ⟨hidle, _, _, haccept⟩ | hreset | hclear | ⟨hidle, i, _, hstore⟩
  · rw [hsame]; exact .inr (.refl s)
  · rw [hdrop]; exact .inr (keepsResults_dropWrite s)
  · rw [haccept]; exact .inr (.of_idle hidle (fun _ => rfl) rfl rfl rfl)
  · rw [hreset]; exact .inl (isReset_toReset s)
  · rw [hclear]; exact .inr (keepsResults_clearFault s)
  · rw [hstore]; exact .inr (.of_idle hidle (fun _ => rfl) rfl rfl rfl)

theorem writeAt_reset_or_keepsResults (bits off : Nat) (v : Word) (s : State) :
    IsReset (writeAt bits off v s) ∨ KeepsResults s (writeAt bits off v s) := by
  rcases writeAt_cases bits off v s with hbad | ⟨_, hok⟩
  · rw [hbad]; exact .inr (keepsResults_answer.2 (.refl s))
  · rw [hok, keepsResults_answer]
    exact (writePort_reset_or_keepsResults _ v s).imp_left fun h => h.answer _

theorem portEvent_reset_or_keepsResults {e : HostEvent} {s t : State} (h : portEvent e s = .next t) :
    IsReset t ∨ KeepsResults s t := by
  rcases portEvent_cases h with
    ⟨_, rfl⟩ | ⟨_, bits, off, _, _, rfl⟩ | ⟨_, bits, off, v, _, _, rfl⟩ | ⟨_, rfl⟩
  · exact .inr (.refl _)
  · obtain ⟨r, hr⟩ := readAt_eq bits off s
    rw [hr]; exact .inr (keepsResults_answer.2 (.refl s))
  · exact writeAt_reset_or_keepsResults bits off v s
  · exact .inl (isReset_toReset s)

/-! The family's statements (`20_memory.md`). -/

/-- Settles O10: no aligned offset but those of CMD, CTRL and DBUF names a register that takes writes. -/
theorem ignoredWritesChangeNothing : Obligations.IgnoredWritesChangeNothing := by
  intro s off v rest hr ho hal hoff hi
  have hstep := step_write_aligned hr ho hal hi
  rw [writePort_of_not_takesWrites (takesWrites_portReg hal hoff)] at hstep
  exact ⟨_, hstep, sameArch_answer s rest _, rfl⟩

/-- Settles O11. -/
theorem busErrorsChangeNothing : Obligations.BusErrorsChangeNothing := by
  intro s off bits v rest hr ho hbad hi
  have hok : accessOk bits off = false := by
    rw [Bool.eq_false_iff, Ne, accessOk_iff]
    omega
  exact ⟨_, step_bad_access hr ho hok hi, sameArch_answer s rest _, rfl, rfl⟩

/-- Settles O12: for each range of offsets the map names the register, and the register's read gives the value. -/
theorem portReadsReturnTheRegisterMap : Obligations.PortReadsReturnTheRegisterMap := by
  intro s off rest hr ho hal hi
  refine ⟨_, readPort (portReg off) s, step_read_aligned hr ho hal hi, sameArch_answer s rest _, rfl, rfl,
    ?id, ?cmd, ?status, ?ctrl, ?cmdcnt, ?gapCmdcnt, ?dbuf, ?gapDbuf, ?frview, ?gapFrview, ?gapEnd⟩
  case id => rintro rfl; rfl
  case cmd => rintro rfl; rfl
  case status => rintro rfl; exact toNat_statusWord s
  case ctrl => rintro rfl; rfl
  case cmdcnt => rintro rfl; rfl
  case gapCmdcnt => rintro ⟨hlo, hhi⟩; rw [portReg_gap_cmdcnt hlo hhi]; rfl
  case dbuf => rintro i hlt rfl; rw [portReg_dbuf hlt]; exact toNat_readPort_dbuf i s
  case gapDbuf => rintro ⟨hlo, hhi⟩; rw [portReg_gap_frviews hlo (.inl hhi)]; rfl
  case frview => rintro n j hj rfl; rw [portReg_frview n hj]; exact toNat_readPort_frview n j s
  case gapFrview => rintro n j hn hlo hhi rfl; rw [portReg_frview_gap hn hlo hhi]; rfl
  case gapEnd => intro hlo; rw [portReg_gap_frviews (by omega) (.inr hlo)]; rfl

/-- Settles O13: the write is one little-endian store of eight bytes, and the laws of `Memory.store` say the rest. -/
theorem dbufWriteStoresEightBytes : Obligations.DbufWriteStoresEightBytes := by
  intro s i v rest hidle hwf hlt hi
  have hstep := step_write_aligned (not_ready_of_idle hidle) (by omega) (by omega) hi
  have hturn : (s.tick.setInputs rest).busy = false := hidle
  rw [portReg_dbuf hlt, writePort, writeDbuf_of_idle i v hturn] at hstep
  refine ⟨_, hstep, fun k hk => ?_, fun a ha => Memory.read_store_outside ha, Memory.wf_store hwf (by omega),
    sameArch_answer { s with dbuf := s.dbuf.store (8 * i) 8 v.toNat } rest _, rfl⟩
  calc (s.dbuf.store (8 * i) 8 v.toNat).read (8 * i + k)
      = BitVec.ofNat 8 (v.toNat / 256 ^ k) := Memory.read_store_inside hwf (by omega) hk
    _ = v.extractLsb' (8 * k) 8 := ofNat_div_eq_extract v k

/-- Settles O16: a turn of the outside world passes time, which no result sees, and then its event at most resets the
block. -/
theorem outsideEventsNeverTouchResults : Obligations.OutsideEventsNeverTouchResults := by
  intro s t hr ht
  rw [step_not_ready hr] at ht
  rcases hostTurn_cases ht with ⟨_, rfl⟩ | ⟨e, rest, _, he⟩
  · exact .inr keepsResults_tick
  · exact (portEvent_reset_or_keepsResults he).imp_right keepsResults_turn.1

/-- Settles O18. -/
theorem accessOutsideTheWindowStops : Obligations.AccessOutsideTheWindowStops := by
  intro s addr bits v rest hr hout hi
  have hnone : windowOffset addr = none := windowOffset_eq_none hout
  cases hi with
  | inl hread => rw [step_not_ready hr, hostTurn, hread]; simp only [portEvent, hnone]
  | inr hwrite => rw [step_not_ready hr, hostTurn, hwrite]; simp only [portEvent, hnone]

end Sys2Proof.Machine
end

section
/-! The encoding (`30_encoding.md`), in the order of its parts: what the decoder answers, said once as an inversion; the
commands an opcode and operand fields make, and their words; the opcode lists of R82 and R83 as facts about the forms.
The family's statements follow from these. -/

namespace Sys2Proof

/-! The decoder and the encoder, each the inverse of the other. -/

section
open Laws

/-- The family `EncodedFields` over every constructor. -/
theorem encodedFields : ∀ i : Instr, EncodedFields.Statement i
  | .ldb rd => EncodedFields.ldb rd
  | .stb rs1 => EncodedFields.stb rs1
  | .ldu rd imm => EncodedFields.ldu rd imm
  | .ldi rd imm => EncodedFields.ldi rd imm
  | .ldc rd imm => EncodedFields.ldc rd imm
  | .mov rd rs1 => EncodedFields.mov rd rs1
  | .csel rd rs1 rs2 => EncodedFields.csel rd rs1 rs2
  | .cneg rd rs1 => EncodedFields.cneg rd rs1
  | .cfop imm => EncodedFields.cfop imm
  | .add rd rs1 rs2 => EncodedFields.add rd rs1 rs2
  | .sub rd rs1 rs2 => EncodedFields.sub rd rs1 rs2
  | .neg rd rs1 => EncodedFields.neg rd rs1
  | .halfw rd rs1 => EncodedFields.halfw rd rs1
  | .half rd rs1 => EncodedFields.half rd rs1
  | .iseven rs1 => EncodedFields.iseven rs1
  | .ispos rs1 => EncodedFields.ispos rs1
  | .eq rs1 rs2 => EncodedFields.eq rs1 rs2
  | .mul rd rs1 rs2 => EncodedFields.mul rd rs1 rs2
  | .sqr rd rs1 => EncodedFields.sqr rd rs1
  | .mmul rd rs1 rs2 => EncodedFields.mmul rd rs1 rs2
  | .msqr rd rs1 => EncodedFields.msqr rd rs1
  | .tomont rd rs1 => EncodedFields.tomont rd rs1
  | .frommont rd rs1 => EncodedFields.frommont rd rs1
  | .pow rd rs1 rs2 => EncodedFields.pow rd rs1 rs2
  | .inv rd rs1 => EncodedFields.inv rd rs1
  | .div rd rs1 rs2 => EncodedFields.div rd rs1 rs2
  | .leg rs1 => EncodedFields.leg rs1
  | .sqrt rd rs1 imm => EncodedFields.sqrt rd rs1 imm
  | .sqrtr rd rs1 rs2 => EncodedFields.sqrtr rd rs1 rs2
  | .twopow rd imm => EncodedFields.twopow rd imm

end

/-- The fields with zero in each one the form does not use (`30_encoding.md` R83). -/
def Form.kept (f : Form) (x : Operands) : Operands :=
  { rd := if f.usesRd then x.rd else 0
    rs1 := if f.usesRs1 then x.rs1 else 0
    rs2 := if f.usesRs2 then x.rs2 else 0
    imm := if f.usesImm then x.imm else 0 }

theorem Form.unusedZero_iff {f : Form} {x : Operands} :
    f.unusedZero x = true ↔ (f.usesRd = false → x.rd = 0) ∧ (f.usesRs1 = false → x.rs1 = 0) ∧
      (f.usesRs2 = false → x.rs2 = 0) ∧ (f.usesImm = false → x.imm = 0) := by
  simp only [Form.unusedZero, Bool.and_eq_true, Bool.or_eq_true, beq_iff_eq, and_assoc, ← Bool.not_eq_true,
    ← or_iff_not_imp_left]

/-- The decoder's check is that dropping the unused fields loses nothing. -/
theorem Form.kept_eq_self_iff {f : Form} {x : Operands} : f.kept x = x ↔ f.unusedZero x = true := by
  cases x
  simp only [Form.kept, Operands.mk.injEq, Form.unusedZero_iff, ite_eq_left_iff, Bool.not_eq_true, @eq_comm Reg 0,
    @eq_comm Imm 0]

theorem Op.op_build (o : Op) (x : Operands) : (o.build x).op = o := by cases o <;> rfl

theorem Op.operands_build (o : Op) (x : Operands) : (o.build x).operands = o.form.kept x := by cases o <;> rfl

/-- The decoder's answer when the opcode is assigned (`30_encoding.md` R87). -/
theorem decode_of_ofCode {w : Word} {o : Op} (hh : highField w = 0) (ho : Op.ofCode (opField w) = some o) :
    decode w =
      if o.form.unusedZero (operandFields w) then
        if o.immLegal (immField w) then .ok (o.build (operandFields w)) else .illegal .immediate
      else .illegal .unusedField := by
  rw [decode, if_neg (not_not_intro hh), ho]

/-- The decoder answers a command only past all four checks (`30_encoding.md` R84, R87). -/
theorem checks_of_decode_eq_ok {w : Word} {i : Instr} (h : decode w = .ok i) :
    highField w = 0 ∧ ∃ o : Op, o.code = opField w ∧ o.form.unusedZero (operandFields w) = true ∧
      o.immLegal (immField w) = true ∧ o.build (operandFields w) = i := by
  by_cases hh : highField w = 0
  case neg => rw [decode, if_pos hh] at h; cases h
  cases ho : Op.ofCode (opField w) with
  | none => rw [decode, if_neg (not_not_intro hh), ho] at h; cases h
  | some o =>
    rw [decode_of_ofCode hh ho] at h
    split at h
    case isFalse => cases h
    split at h
    case isFalse => cases h
    rename_i hz hl
    injection h with hi
    exact ⟨hh, o, code_of_ofCode ho, hz, hl, hi⟩

/-- Decoding and encoding are inverse to each other between the CMD values that mean a command and the well-formed
commands (`30_encoding.md` R85, R87). -/
theorem decode_eq_ok_iff {w : Word} {i : Instr} : decode w = .ok i ↔ cmdValue (encode i) = w ∧ i.wellFormed = true := by
  constructor
  · intro h
    obtain ⟨hh, o, hc, hz, hl, rfl⟩ := checks_of_decode_eq_ok h
    have hop := o.op_build (operandFields w)
    have hargs : (o.build (operandFields w)).operands = operandFields w := by
      rw [o.operands_build, Form.kept_eq_self_iff.2 hz]
    obtain ⟨-, -, -, -, -, hw⟩ := encodedFields (o.build (operandFields w))
    rw [hop, hargs] at hw
    rw [encode, hop, hargs, hc]
    exact ⟨cmdValue_of_fields w hh, hw.symm.trans hl⟩
  · rintro ⟨rfl, hwf⟩
    obtain ⟨-, -, -, hz, hb, hw⟩ := encodedFields i
    rw [encode, Machine.decode_commandWord, if_pos hz, if_pos (hw.trans hwf)]
    exact congrArg Decoded.ok hb

/-! The word's fields as numbers (`30_encoding.md` R80). -/

theorem or_shiftLeft_eq_add {a : Nat} (n : Nat) (h : a < 2 ^ n) (b : Nat) : a ||| b <<< n = a + 2 ^ n * b := by
  rw [Nat.or_comm, ← Nat.shiftLeft_add_eq_or_of_lt h, Nat.shiftLeft_eq, Nat.mul_comm, Nat.add_comm]

/-- The fields do not overlap, so R80's combination is their sum. -/
theorem or_fields_eq_add (op : BitVec 8) (rd rs1 rs2 : Reg) (imm : Imm) :
    (op.toNat ||| (rd.val <<< 8) ||| (rs1.val <<< 12) ||| (rs2.val <<< 16) ||| (imm.toNat <<< 20)) =
      op.toNat + 2 ^ 8 * rd.val + 2 ^ 12 * rs1.val + 2 ^ 16 * rs2.val + 2 ^ 20 * imm.toNat := by
  have hop := op.isLt
  have hrd := rd.isLt
  have hrs1 := rs1.isLt
  have hrs2 := rs2.isLt
  rw [or_shiftLeft_eq_add 8 hop, or_shiftLeft_eq_add 12 (by omega), or_shiftLeft_eq_add 16 (by omega),
    or_shiftLeft_eq_add 20 (by omega)]

theorem highField_ne_zero_iff (w : Word) : highField w ≠ 0 ↔ w.toNat / 2 ^ 32 ≠ 0 := by
  have hlt := w.isLt
  rw [highField, Ne, ← BitVec.toNat_inj, toNat_extract]
  show ¬ w.toNat / 2 ^ 32 % 2 ^ 32 = 0 ↔ _
  omega

theorem toNat_opField (w : Word) : (opField w).toNat = w.toNat % 256 := by
  rw [opField, toNat_extract, pow_zero, Nat.div_one]; rfl

/-- A 4-bit field names register 0 iff its bits are zero. -/
theorem regOfField_extract_ne_zero_iff (w : Word) (k : Nat) :
    regOfField (w.extractLsb' k 4) ≠ 0 ↔ w.toNat / 2 ^ k % 16 ≠ 0 := by
  have hval : (regOfField (w.extractLsb' k 4)).val = w.toNat / 2 ^ k % 16 := toNat_extract w k 4
  rw [← hval, Ne, Fin.ext_iff]; rfl

theorem toNat_immField (w : Word) : (immField w).toNat = w.toNat / 2 ^ 20 % 4096 := toNat_extract w 20 12

theorem immField_ne_zero_iff (w : Word) : immField w ≠ 0 ↔ w.toNat / 2 ^ 20 % 4096 ≠ 0 := by
  rw [← toNat_immField, Ne, ← BitVec.toNat_inj]; rfl

/-! The opcode lists of `30_encoding.md` R82 and R83 against the model's tables. -/

theorem Op.mem_all (o : Op) : o ∈ Op.all := by cases o <;> decide

theorem ofCode_eq_none_iff {c : BitVec 8} : Op.ofCode c = none ↔ ∀ o : Op, o.code ≠ c := by
  simp only [Op.ofCode, List.find?_eq_none, beq_iff_eq, Op.mem_all, forall_const, Ne]

/-- The thirty assigned opcodes (`30_encoding.md` R82). -/
theorem ofCode_eq_none_iff_notMem (c : BitVec 8) :
    Op.ofCode c = none ↔
      c.toNat ∉ [0x01, 0x02, 0x03, 0x04, 0x05, 0x06, 0x07, 0x08, 0x09, 0x10, 0x11, 0x12, 0x13, 0x14, 0x15, 0x16, 0x17,
        0x20, 0x21, 0x22, 0x23, 0x24, 0x25, 0x26, 0x30, 0x31, 0x40, 0x41, 0x42, 0x43] := by
  show _ ↔ c.toNat ∉ Op.all.map fun o => o.code.toNat
  simp only [ofCode_eq_none_iff, List.mem_map, Op.mem_all, true_and, not_exists, BitVec.toNat_inj, Ne]

theorem Op.usesRd_eq_false_iff (o : Op) :
    o.form.usesRd = false ↔ o.code.toNat ∈ [0x02, 0x09, 0x15, 0x16, 0x17, 0x40] := by
  cases o <;> decide

theorem Op.usesRs1_eq_false_iff (o : Op) :
    o.form.usesRs1 = false ↔ o.code.toNat ∈ [0x01, 0x03, 0x04, 0x05, 0x09, 0x43] := by
  cases o <;> decide

theorem Op.usesRs2_eq_false_iff (o : Op) :
    o.form.usesRs2 = false ↔ o.code.toNat ∉ [0x07, 0x10, 0x11, 0x17, 0x20, 0x22, 0x26, 0x31, 0x42] := by
  cases o <;> decide

theorem Op.usesImm_eq_false_iff (o : Op) :
    o.form.usesImm = false ↔ o.code.toNat ∉ [0x03, 0x04, 0x05, 0x09, 0x41, 0x43] := by
  cases o <;> decide

/-- The immediate ranges of `30_encoding.md` R81, by opcode number. -/
theorem Op.immLegal_eq_false_iff (o : Op) (imm : Imm) :
    o.immLegal imm = false ↔
      (o.code.toNat = 0x03 ∧ 4 < imm.toNat) ∨ (o.code.toNat = 0x05 ∧ 8 < imm.toNat) ∨
      (o.code.toNat = 0x09 ∧ 2 < imm.toNat) ∨ (o.code.toNat = 0x41 ∧ 1 < imm.toNat) := by
  cases o <;> simp [Op.immLegal, Op.code]

theorem Form.unusedZero_eq_false_iff {f : Form} {x : Operands} :
    f.unusedZero x = false ↔ (x.rd ≠ 0 ∧ f.usesRd = false) ∨ (x.rs1 ≠ 0 ∧ f.usesRs1 = false) ∨
      (x.rs2 ≠ 0 ∧ f.usesRs2 = false) ∨ (x.imm ≠ 0 ∧ f.usesImm = false) := by
  rw [← Bool.not_eq_true, Form.unusedZero_iff]
  simp only [not_and_or, Classical.not_imp, @and_comm (_ = false), Ne]

/-! When the decoder rejects (`30_encoding.md` R84). -/

theorem decode_illegal_of_highField {w : Word} (h : highField w ≠ 0) : decode w = .illegal .highBits := if_pos h

theorem decode_illegal_of_ofCode {w : Word} (h : Op.ofCode (opField w) = none) : ∃ why, decode w = .illegal why := by
  by_cases hh : highField w = 0
  · exact ⟨.opcode, by rw [decode, if_neg (not_not_intro hh), h]⟩
  · exact ⟨.highBits, decode_illegal_of_highField hh⟩

theorem decode_illegal_iff_of_ofCode {w : Word} {o : Op} (ho : Op.ofCode (opField w) = some o) :
    (∃ why, decode w = .illegal why) ↔
      highField w ≠ 0 ∨ o.form.unusedZero (operandFields w) = false ∨ o.immLegal (immField w) = false := by
  by_cases hh : highField w = 0
  case neg => exact iff_of_true ⟨_, decode_illegal_of_highField hh⟩ (.inl hh)
  rw [decode_of_ofCode hh ho]
  cases o.form.unusedZero (operandFields w) with
  | false => exact iff_of_true ⟨_, rfl⟩ (.inr (.inl rfl))
  | true =>
    cases o.immLegal (immField w) with
    | false => exact iff_of_true ⟨_, rfl⟩ (.inr (.inr rfl))
    | true => simp [hh]

/-! The family's statements (`30_encoding.md`). -/

/-- Settles O1: a well-formed command is decoded from its encoding. -/
theorem decodeOfEncodeIsTheCommand : Obligations.DecodeOfEncodeIsTheCommand :=
  fun _ hwf => decode_eq_ok_iff.2 ⟨rfl, hwf⟩

/-- Settles O2: the same inverse, read from the CMD value. -/
theorem decodedValueIsTheOnlyEncoding : Obligations.DecodedValueIsTheOnlyEncoding :=
  fun _ _ h => decode_eq_ok_iff.1 h

/-- Settles O3: the word as a sum of its fields, and each field's read. -/
theorem commandWordHasTheStatedFields : Obligations.CommandWordHasTheStatedFields := by
  intro op rd rs1 rs2 imm
  refine ⟨?_, highField_cmdValue _, opField_commandWord .., rdField_commandWord .., rs1Field_commandWord ..,
    rs2Field_commandWord .., immField_commandWord ..⟩
  rw [toNat_cmdValue, toNat_commandWord, or_fields_eq_add]

/-- Settles O4: an opcode that is not assigned decides both sides, and for an assigned one each clause is one check of
the decoder. -/
theorem illegalExactlyWhenStated : Obligations.IllegalExactlyWhenStated := by
  intro w
  cases ho : Op.ofCode (opField w) with
  | none =>
    have hnot := (ofCode_eq_none_iff_notMem (opField w)).1 ho
    rw [toNat_opField] at hnot
    exact iff_of_true (decode_illegal_of_ofCode ho) (.inr (.inl hnot))
  | some o =>
    have hassigned := mt (ofCode_eq_none_iff_notMem (opField w)).2 (by rw [ho]; exact Option.some_ne_none o)
    have hcode : w.toNat % 256 = o.code.toNat := by rw [code_of_ofCode ho, toNat_opField]
    rw [toNat_opField, hcode] at hassigned
    rw [decode_illegal_iff_of_ofCode ho, Form.unusedZero_eq_false_iff, Op.immLegal_eq_false_iff, hcode,
      Op.usesRd_eq_false_iff, Op.usesRs1_eq_false_iff, Op.usesRs2_eq_false_iff, Op.usesImm_eq_false_iff,
      toNat_immField, highField_ne_zero_iff, or_iff_right hassigned]
    simp only [operandFields, rdField, rs1Field, rs2Field, regOfField_extract_ne_zero_iff, immField_ne_zero_iff,
      or_assoc]

/-- Settles O6: the words are the encodings of the commands. -/
theorem assemblerExampleWordsDecode : Obligations.AssemblerExampleWordsDecode := by
  refine ⟨?_, ?_, ?_, ?_, ?_, ?_, ?_, ?_, ?_, ?_⟩
  all_goals exact decode_eq_ok_iff.2 (by decide)

end Sys2Proof

namespace Sys2Proof.Machine

theorem step_due {s : State} (hb : s.busy = true) (hl : s.env.latLeft = 0) : step s = completePending s :=
  step_ready (State.ready_iff.2 ⟨hb, hl⟩)

theorem execTwopow_of_ge {rd : Reg} {imm : Imm} (h : 253 ≤ imm.toNat) (s : State) :
    execTwopow rd imm s = raise .kRange s := if_pos h

/-- Settles O5: the completion of a value that O4 rejects raises E_ILLEGAL; TWOPOW's value decodes by O1, and its
meaning checks the exponent. -/
theorem illegalCommandFaultsWithIllegal : Obligations.IllegalCommandFaultsWithIllegal := by
  constructor
  · rintro s w hb hl rfl hstated
    obtain ⟨why, hd⟩ := (illegalExactlyWhenStated s.pend).2 hstated
    rw [step_due hb hl, completePending_illegal hd]
    exact raise_spec s .illegal
  · intro s rd imm hk
    have hd : EncodedAs 0x43 rd 0 0 imm (.twopow rd imm) := decodeOfEncodeIsTheCommand (.twopow rd imm) rfl
    refine ⟨hd, fun hb hl hp => ?_⟩
    have hpend : decode s.pend = .ok (.twopow rd imm) := by rw [hp]; exact hd
    rw [step_due hb hl, completePending_ok hpend, exec, execTwopow_of_ge hk]
    exact raise_spec s .kRange

end Sys2Proof.Machine
end

section
/-! Data movement (`40_data_movement.md`), in the order of its parts: the encodings that every family's statements ask
for, what each command writes, and the values it writes. The family's statements follow from these. -/

namespace Sys2Proof.Machine

/-! Encodings, legal and illegal. -/

/-- A well-formed command is what its own fields encode (`30_encoding.md` R80, R87). -/
theorem encodedAs_of_wellFormed {i : Instr} (h : i.wellFormed = true) :
    EncodedAs i.op.code i.operands.rd i.operands.rs1 i.operands.rs2 i.operands.imm i :=
  decodeOfEncodeIsTheCommand i h

/-- An immediate outside its command's range makes no command, whatever the other fields are (`30_encoding.md` R84). -/
theorem decode_illegal_of_immLegal {o : Op} {imm : Imm} (h : o.immLegal imm = false) (rd rs1 rs2 : Reg) :
    ∃ why, decode (cmdValue (commandWord o.code rd rs1 rs2 imm)) = .illegal why := by
  have hop : Op.ofCode (opField (cmdValue (commandWord o.code rd rs1 rs2 imm))) = some o := by
    rw [opField_commandWord, ofCode_code]
  rw [decode_illegal_iff_of_ofCode hop, immField_commandWord]
  exact .inr (.inr h)

/-! The commands as their shared endings. -/

/-- DBUF_int as the sum of DBUF's bytes (`00_scope.md` R8). -/
theorem dbufInt_eq_dbufSum (s : State) : s.dbufInt = dbufSum s 0 32 := load_eq_dbufSum s 32 0

theorem exec_ldb (rd : Reg) (s : State) : exec (.ldb rd) s = writeBack rd (dbufSum s 0 32 % 2 ^ 253) s := by
  rw [exec, execLdb, dbufInt_eq_dbufSum]

theorem exec_stb (rs1 : Reg) (s : State) : exec (.stb rs1) s = .next (s.setDbuf (s.x rs1)).commit := rfl

theorem exec_ldu_of_le {imm : Imm} (h : imm.toNat ≤ 4) (rd : Reg) (s : State) :
    exec (.ldu rd imm) s = writeBack rd (dbufSum s 0 32 % 2 ^ (8 * 2 ^ imm.toNat)) s := by
  have hw : lduWidth imm = some (8 * 2 ^ imm.toNat) := if_pos h
  simp only [exec, execLdu, hw, dbufInt_eq_dbufSum]

theorem exec_ldi (rd : Reg) (imm : Imm) (s : State) : exec (.ldi rd imm) s = writeBack rd imm.toNat s := rfl

theorem exec_ldc_of_some {imm : Imm} {v : Nat} (h : ldcValue imm = some v) (rd : Reg) (s : State) :
    exec (.ldc rd imm) s = writeBack rd v s := by
  simp only [exec, execLdc, h]

theorem exec_mov (rd rs1 : Reg) (s : State) : exec (.mov rd rs1) s = writeBack rd (s.x rs1) s := rfl

theorem exec_csel (rd rs1 rs2 : Reg) (s : State) :
    exec (.csel rd rs1 rs2) s = writeBack rd (if s.cf then s.x rs2 else s.x rs1) s := rfl

theorem exec_cneg (rd rs1 : Reg) (s : State) :
    exec (.cneg rd rs1) s = writeBack rd (if s.cf then negF (s.x rs1) else s.x rs1) s := rfl

theorem exec_cfop_of_some {imm : Imm} {b : Bool} {s : State} (h : cfopFlag imm s.cf = some b) :
    exec (.cfop imm) s = writeChoice b s := by
  simp only [exec, execCfop, h]

/-! The values they write. -/

/-- The low bits of a number, at most a register's 260 of them, fit a register. -/
theorem mod_two_pow_lt_R {k : Nat} (hk : k ≤ 260) (n : Nat) : n % 2 ^ k < R := by
  rw [R_eq]
  exact (Nat.mod_lt n (Nat.two_pow_pos k)).trans_le (pow_le_pow_right₀ one_le_two hk)

/-- Byte `k` of a stored value is its bits 8k+7 to 8k (`20_memory.md` R55). -/
theorem toNat_ofNat_div_pow (v k : Nat) : (BitVec.ofNat 8 (v / 256 ^ k)).toNat = v / 2 ^ (8 * k) % 256 := by
  have hpow : 256 ^ k = 2 ^ (8 * k) := (pow_mul 2 8 k).symm
  rw [hpow]
  exact BitVec.toNat_ofNat _ 8

/-- The constants LDC can load, by selector, as `40_data_movement.md` R104 lists them. -/
def romTable : List Nat :=
  [0, 1, K.minusOne, L, K.rr, K.inv2, K.halfBound, K.sqrtM1, K.montOne]

/-- A selector past the table's end, like LDC's above 8, names no constant. -/
theorem ldcValue_eq_romTable (imm : Imm) : ldcValue imm = romTable[imm.toNat]? := by
  unfold ldcValue
  generalize imm.toNat = n
  match n with
  | 0 | 1 | 2 | 3 | 4 | 5 | 6 | 7 | 8 => rfl
  | n + 9 => rfl

theorem ldcValue_isSome_of_le {imm : Imm} (h : imm.toNat ≤ 8) : ∃ v, ldcValue imm = some v :=
  ⟨_, (ldcValue_eq_romTable imm).trans (List.getElem?_eq_getElem (Nat.lt_succ_of_le h))⟩

theorem rr_eq : K.rr = 2 ^ 520 % L := by rw [K.rr, R_eq, ← pow_add]

theorem montOne_eq : K.montOne = 2 ^ 260 % L := by rw [K.montOne, R_eq]

/-- NEG's closed form over all register values (`41_linear.md` R142). -/
theorem negF_eq {a : Nat} (ha : a < R) :
    negF a = if a = 0 then 0 else if a ≤ L then L - a else 2 ^ 260 + L - a := by
  split
  case isTrue h0 => rw [h0, negF_zero]
  case isFalse h0 =>
    split
    case isTrue hle => exact negF_of_le (Nat.pos_of_ne_zero h0) hle
    case isFalse hgt => rw [negF_of_gt (Nat.lt_of_not_le hgt) ha, R_eq]

theorem cfopFlag_of_le {imm : Imm} (h : imm.toNat ≤ 2) (cf : Bool) :
    cfopFlag imm cf = some (if imm.toNat = 0 then false else if imm.toNat = 1 then true else !cf) := by
  unfold cfopFlag
  generalize imm.toNat = n at h
  match n, h with
  | 0, _ | 1, _ | 2, _ => rfl

/-! The family's statements (`40_data_movement.md`). -/

/-- Settles O25: 253 bits fit a register, so the write-back keeps them all. -/
theorem ldbLoadsTheLow253Bits : Obligations.LdbLoadsTheLow253Bits := by
  intro s rd
  refine ⟨encodedAs_of_wellFormed (i := .ldb rd) rfl, ?_⟩
  rw [exec_ldb]
  exact writeBack_spec s rd (mod_two_pow_lt_R (by decide) _)

/-- Settles O26: STB is one little-endian store of 32 bytes, and the laws of `Memory.store` say the rest. -/
theorem stbStoresTheLow256Bits : Obligations.StbStoresTheLow256Bits := by
  intro s rs1 hwf
  refine ⟨encodedAs_of_wellFormed (i := .stb rs1) rfl, _, exec_stb rs1 s, .of_commit _ _ rfl rfl rfl rfl rfl rfl,
    fun k hk => ?_, fun k hk => Memory.read_store_outside (.inr (by omega)), Memory.wf_store hwf (le_refl _),
    fun _ => rfl, rfl, rfl⟩
  have hbyte := Memory.read_store_inside (k := 0) (v := s.x rs1) hwf (le_refl 32) hk
  rw [Nat.zero_add] at hbyte
  exact (congrArg BitVec.toNat hbyte).trans (toNat_ofNat_div_pow _ k)

/-- Settles O27: the width's bits fit a register, and a code above 4 fails the decoder's check. -/
theorem lduLoadsTheLowWBits : Obligations.LduLoadsTheLowWBits := by
  intro s rd imm
  constructor
  · intro hle
    have hwidth : 8 * 2 ^ imm.toNat ≤ 128 := lduWidth_le (if_pos hle)
    refine ⟨encodedAs_of_wellFormed (i := .ldu rd imm) (decide_eq_true hle), ?_⟩
    rw [exec_ldu_of_le hle]
    exact writeBack_spec s rd (mod_two_pow_lt_R (by omega) _)
  · intro hgt
    exact decode_illegal_of_immLegal (o := .ldu) (decide_eq_false (Nat.not_le_of_lt hgt)) rd 0 0

/-- Settles O28. -/
theorem ldiLoadsTheImmediate : Obligations.LdiLoadsTheImmediate := by
  intro s rd imm
  refine ⟨encodedAs_of_wellFormed (i := .ldi rd imm) rfl, ?_⟩
  rw [exec_ldi]
  exact writeBack_spec s rd ((ldiValue_lt_L imm).trans L_lt_R)

/-- Settles O29: the value is the entry of `romTable` that the selector names. -/
theorem ldcLoadsTheSelectedConstant : Obligations.LdcLoadsTheSelectedConstant := by
  intro s rd imm
  constructor
  · intro hle
    obtain ⟨v, hv⟩ := ldcValue_isSome_of_le hle
    obtain ⟨t, ht, hwrites⟩ := writeBack_spec s rd (ldcValue_lt hv)
    have entry : ∀ {n c : Nat}, romTable[n]? = some c → imm.toNat = n → v = c := by
      rintro n c hc rfl
      exact Option.some.inj (hv.symm.trans ((ldcValue_eq_romTable imm).trans hc))
    refine ⟨encodedAs_of_wellFormed (i := .ldc rd imm) (decide_eq_true hle), t, v,
      (exec_ldc_of_some hv rd s).trans ht, hwrites, entry rfl, entry rfl, entry rfl, entry rfl,
      fun h => (entry rfl h).trans rr_eq, entry rfl, entry rfl, fun h => ?_, fun h => (entry rfl h).trans montOne_eq⟩
    obtain rfl : v = K.sqrtM1 := entry rfl h
    exact ⟨sqrtM1_cases, rfl, sqrtM1_sq⟩
  · intro hgt
    exact decode_illegal_of_immLegal (o := .ldc) (decide_eq_false (Nat.not_le_of_lt hgt)) rd 0 0

/-- Settles O30. -/
theorem movCopiesTheRegister : Obligations.MovCopiesTheRegister := by
  intro s rd rs1
  refine ⟨encodedAs_of_wellFormed (i := .mov rd rs1) rfl, ?_⟩
  rw [exec_mov]
  exact writeBack_spec s rd (s.x_lt rs1)

/-- Settles O31: CSEL writes one of two register values, CNEG a register value or NEG's closed form of it. -/
theorem conditionalCommandsFollowTheChoiceFlag : Obligations.ConditionalCommandsFollowTheChoiceFlag := by
  intro s rd rs1 rs2
  refine ⟨⟨encodedAs_of_wellFormed (i := .csel rd rs1 rs2) rfl, ?csel⟩,
    encodedAs_of_wellFormed (i := .cneg rd rs1) rfl, ?cneg⟩
  case csel =>
    have hfits : (if s.cf = true then s.x rs2 else s.x rs1) < R := by
      split
      · exact s.x_lt rs2
      · exact s.x_lt rs1
    rw [exec_csel]
    exact writeBack_spec s rd hfits
  case cneg =>
    have hfits : (if s.cf = true then negF (s.x rs1) else s.x rs1) < R := by
      split
      · exact negF_lt
      · exact s.x_lt rs1
    rw [exec_cneg, ← negF_eq (s.x_lt rs1)]
    exact writeBack_spec s rd hfits

/-- Settles O32: `cfopFlag` on the three immediates; the example word is CFOP 2's encoding. -/
theorem cfopClearsSetsOrInvertsTheFlag : Obligations.CfopClearsSetsOrInvertsTheFlag := by
  refine ⟨fun s imm => ⟨fun hle => ?legal, fun hgt => ?illegal⟩, decode_eq_ok_iff.2 (by decide)⟩
  case legal =>
    refine ⟨encodedAs_of_wellFormed (i := .cfop imm) (decide_eq_true hle), ?_⟩
    rw [exec_cfop_of_some (cfopFlag_of_le hle s.cf)]
    exact writeChoice_spec s _
  case illegal => exact decode_illegal_of_immLegal (o := .cfop) (decide_eq_false (Nat.not_le_of_lt hgt)) 0 0 0

end Sys2Proof.Machine
end

section
/-! The linear commands (`41_linear.md` R140 to R147, R153), in the order of their parts: the commands as their shared
endings, their closed forms in the words of the rules, and from these the family's statements about the commands. -/

namespace Sys2Proof.Machine

/-! The commands as their shared endings. -/

theorem exec_add (rd rs1 rs2 : Reg) (s : State) :
    exec (.add rd rs1 rs2) s = writeBack rd (addF (s.x rs1) (s.x rs2)) s := rfl

theorem exec_sub (rd rs1 rs2 : Reg) (s : State) :
    exec (.sub rd rs1 rs2) s = writeBack rd (subF (s.x rs1) (s.x rs2)) s := rfl

theorem exec_neg (rd rs1 : Reg) (s : State) : exec (.neg rd rs1) s = writeBack rd (negF (s.x rs1)) s := rfl

theorem exec_halfw (rd rs1 : Reg) (s : State) : exec (.halfw rd rs1) s = writeBack rd (s.x rs1 >>> 1) s := rfl

theorem exec_half (rd rs1 : Reg) (s : State) : exec (.half rd rs1) s = writeBack rd (halfF (s.x rs1)) s := rfl

theorem exec_iseven (rs1 : Reg) (s : State) :
    exec (.iseven rs1) s = writeChoice (decide (s.x rs1 % 2 = 0)) s := rfl

theorem exec_eq (rs1 rs2 : Reg) (s : State) :
    exec (.eq rs1 rs2) s = writeChoice (decide (s.x rs1 = s.x rs2)) s := rfl

theorem exec_ispos_of_lt {rs1 : Reg} {s : State} (h : s.x rs1 < L) :
    exec (.ispos rs1) s = writeChoice (decide (s.x rs1 ≤ (L - 1) / 2)) s :=
  if_pos (canonical_iff.2 h)

theorem exec_ispos_of_ge {rs1 : Reg} {s : State} (h : L ≤ s.x rs1) : exec (.ispos rs1) s = raise .nonCanon s :=
  if_neg fun hc => Nat.not_lt_of_le h (canonical_iff.1 hc)

/-! The closed forms. -/

theorem addF_eq (a b : Nat) :
    addF a b = if L ≤ (a + b) % 2 ^ 260 then (a + b) % 2 ^ 260 - L else (a + b) % 2 ^ 260 := by
  rw [addF, R_eq]

theorem subF_eq (a b : Nat) : subF a b = if b ≤ a then a - b else (a + L + 2 ^ 260 - b) % 2 ^ 260 := by
  rw [subF, R_eq]

/-- SUB's correction after a borrow, over the integers: the model adds one more 2^260 to stay in the naturals. -/
theorem subF_of_lt {a b : Nat} (h : a < b) (hb : b < R) :
    subF a b = (((a : Int) - (b : Int) + (L : Int)) % (2 ^ 260 : Int)).toNat := by
  have hR : (2 ^ 260 : Int) = (R : Int) := by rw [R_eq]; exact (Nat.cast_pow 2 260).symm
  have hsum : (a : Int) - b + L + R = ((a + L + R - b : Nat) : Int) := by omega
  rw [hR, ← Int.add_emod_right, hsum, subF, if_neg (Nat.not_le_of_lt h)]
  exact (Int.toNat_natCast _).symm

/-- SUB on canonical operands is subtraction modulo L over the integers (`41_linear.md` R153). -/
theorem cast_subF_canonical {a b : Nat} (ha : a < L) (hb : b < L) :
    (subF a b : Int) = ((a : Int) - (b : Int)) % (L : Int) := by
  have hsum : ((a + (L - b) : Nat) : Int) = a - b + L := by omega
  rw [subF_canonical ha hb, Int.natCast_emod, hsum, Int.add_emod_right]

/-- A canonical value and its negation cancel (`41_linear.md` R142). -/
theorem add_negF_mod {a : Nat} (ha : a < L) : (a + negF a) % L = 0 := by
  rcases Nat.eq_zero_or_pos a with rfl | hpos
  · rw [negF_zero, Nat.zero_mod]
  · rw [negF_of_le hpos ha.le, Nat.add_sub_of_le ha.le, Nat.mod_self]

/-- INV2 is the inverse of 2 (`10_state.md` R33). -/
theorem two_mul_inv2 : 2 * K.inv2 = L + 1 := by
  have := L_odd
  unfold K.inv2
  omega

theorem halfF_lt_L {a : Nat} (ha : a < R) : halfF a < L := mulF_lt ha (inv2_lt.trans L_lt_R)

/-- HALF is halving modulo L, for every register value (`41_linear.md` R144). -/
theorem two_mul_halfF_mod {a : Nat} (ha : a < R) : 2 * halfF a % L = a % L :=
  calc 2 * halfF a % L = 2 * (a * K.inv2) % L := by rw [halfF_eq ha, Nat.mul_mod_mod]
    _ = (a + a * L) % L := by rw [Nat.mul_left_comm, two_mul_inv2, Nat.mul_succ, Nat.add_comm]
    _ = a % L := Nat.add_mul_mod_self_right a a L

/-! The family's statements about the commands (`41_linear.md`). -/

/-- Settles O33: the closed form is `addF`, which on canonical operands is addition modulo L. -/
theorem addWritesTheConditionallyReducedSum : Obligations.AddWritesTheConditionallyReducedSum := by
  intro s rd rs1 rs2
  obtain ⟨t, ht, hwrites⟩ := writeBack_spec s rd (v := addF (s.x rs1) (s.x rs2)) addF_lt
  rw [exec_add, ← addF_eq]
  exact ⟨encodedAs_of_wellFormed (i := .add rd rs1 rs2) rfl, t, ht, hwrites,
    fun h1 h2 => hwrites.result.trans (addF_canonical h1 h2)⟩

/-- Settles O34: the closed form is `subF`, read over the integers after a borrow. -/
theorem subWritesTheBorrowCorrectedDifference : Obligations.SubWritesTheBorrowCorrectedDifference := by
  intro s rd rs1 rs2
  obtain ⟨t, ht, hwrites⟩ := writeBack_spec s rd (v := subF (s.x rs1) (s.x rs2)) (subF_lt (s.x_lt rs1))
  rw [exec_sub]
  refine ⟨encodedAs_of_wellFormed (i := .sub rd rs1 rs2) rfl, t, ht, ?form, fun h1 h2 => ?canonical⟩
  case form =>
    split
    case isTrue hle => rwa [subF, if_pos hle] at hwrites
    case isFalse hgt => rwa [subF_of_lt (Nat.lt_of_not_le hgt) (s.x_lt rs2)] at hwrites
  case canonical => rw [hwrites.result, cast_subF_canonical h1 h2]

/-- Settles O35: the closed form is `negF`; a canonical operand and its negation cancel. -/
theorem negWritesTheNegation : Obligations.NegWritesTheNegation := by
  intro s rd rs1
  obtain ⟨t, ht, hwrites⟩ := writeBack_spec s rd (v := negF (s.x rs1)) negF_lt
  rw [exec_neg, ← negF_eq (s.x_lt rs1)]
  refine ⟨encodedAs_of_wellFormed (i := .neg rd rs1) rfl, t, ht, hwrites, fun hc => ?_⟩
  rw [hwrites.result]
  exact ⟨negF_canonical hc, add_negF_mod hc⟩

/-- Settles O36: the shift keeps a register value in range, and the product with INV2 is an exact half modulo L. -/
theorem halvingCommandsHalve : Obligations.HalvingCommandsHalve := by
  intro s rd rs1
  refine ⟨⟨encodedAs_of_wellFormed (i := .halfw rd rs1) rfl, ?halfw⟩,
    encodedAs_of_wellFormed (i := .half rd rs1) rfl, ?half⟩
  case halfw =>
    have hfits : s.x rs1 >>> 1 < R := (Nat.shiftRight_le _ 1).trans_lt (s.x_lt rs1)
    rw [exec_halfw]
    exact writeBack_spec s rd hfits
  case half =>
    have hlt : halfF (s.x rs1) < L := halfF_lt_L (s.x_lt rs1)
    obtain ⟨t, ht, hwrites⟩ := writeBack_spec s rd (hlt.trans L_lt_R)
    have hres : t.x rd = halfF (s.x rs1) := hwrites.result
    rw [halfF_eq (s.x_lt rs1)] at hwrites
    rw [exec_half]
    exact ⟨t, ht, hwrites, hres ▸ hlt, hres ▸ two_mul_halfF_mod (s.x_lt rs1)⟩

/-- Settles O37. -/
theorem evennessAndEqualitySetTheChoiceFlag : Obligations.EvennessAndEqualitySetTheChoiceFlag := by
  intro s rs1 rs2
  rw [exec_iseven, exec_eq]
  exact ⟨⟨encodedAs_of_wellFormed (i := .iseven rs1) rfl, writeChoice_spec s _⟩,
    encodedAs_of_wellFormed (i := .eq rs1 rs2) rfl, writeChoice_spec s _⟩

/-- Settles O38: the canonical check decides between the flag and the fault. -/
theorem isposTestsCanonicalOperandsOnly : Obligations.IsposTestsCanonicalOperandsOnly := by
  intro s rs1
  refine ⟨encodedAs_of_wellFormed (i := .ispos rs1) rfl, fun hlt => ?canonical, fun hge => ?nonCanonical⟩
  case canonical =>
    rw [exec_ispos_of_lt hlt]
    exact writeChoice_spec s _
  case nonCanonical =>
    rw [exec_ispos_of_ge hge]
    exact raise_spec s .nonCanon

end Sys2Proof.Machine
end

section
/-! The limb datapaths of the linear commands (`41_linear.md` R150 to R152), in the order of their parts: limb words
and the integers they represent, one limb of each chain, the chains by induction on the limbs, and from these the
family's statements about the datapaths. -/

namespace Sys2Proof.Machine

/-! Limb words and the integers they represent. -/

/-- Every word of the list is a limb: its bits 63:52 are zero (`10_state.md` R20). -/
def IsLimbs (ws : List Word) : Prop := ∀ w ∈ ws, w.toNat < 2 ^ 52

theorem isLimbs_cons {w : Word} {ws : List Word} : IsLimbs (w :: ws) ↔ w.toNat < 2 ^ 52 ∧ IsLimbs ws :=
  List.forall_mem_cons

theorem isLimbs_reverse {ws : List Word} : IsLimbs ws.reverse ↔ IsLimbs ws := by
  simp only [IsLimbs, List.mem_reverse]

/-- A limb list is a number in base 2^52, least significant digit first. -/
theorem limbVal_eq_ofDigits (l : List Nat) : limbVal l = Nat.ofDigits (2 ^ 52) l := by
  induction l with
  | nil => rfl
  | cons d l ih => rw [limbVal, ih, Nat.ofDigits_cons]

@[simp] theorem wordsVal_nil : wordsVal [] = 0 := rfl

@[simp] theorem wordsVal_cons (w : Word) (ws : List Word) :
    wordsVal (w :: ws) = w.toNat + 2 ^ 52 * wordsVal ws := rfl

/-- The most significant limb's share, when it is split off. -/
theorem wordsVal_reverse_cons (w : Word) (ws : List Word) :
    wordsVal (w :: ws).reverse = wordsVal ws.reverse + 2 ^ (52 * ws.length) * w.toNat := by
  simp only [wordsVal, limbVal_eq_ofDigits, List.map_reverse, List.map_cons, Nat.ofDigits_reverse_cons,
    List.length_map, pow_mul]

theorem wordsVal_lt {ws : List Word} (h : IsLimbs ws) : wordsVal ws < 2 ^ (52 * ws.length) := by
  have hdigits : ∀ d ∈ ws.map BitVec.toNat, d < 2 ^ 52 := List.forall_mem_map.2 h
  have hlt := Nat.ofDigits_lt_base_pow_length (by decide) hdigits
  rwa [← limbVal_eq_ofDigits, List.length_map, ← pow_mul] at hlt

/-- The 52-bit digits of a number, `n` of them, represent it modulo 2^(52n). -/
theorem limbVal_digits (n : Nat) : ∀ x : Nat,
    limbVal ((List.range n).map fun j => x / 2 ^ (52 * j) % 2 ^ 52) = x % 2 ^ (52 * n) := by
  induction n with
  | zero => intro x; rw [Nat.mul_zero, pow_zero, Nat.mod_one]; rfl
  | succ n ih =>
    intro x
    have hshift : ∀ j, x / 2 ^ (52 * (j + 1)) = x / 2 ^ 52 / 2 ^ (52 * j) := fun j => by
      rw [Nat.div_div_eq_div_mul, ← pow_add, Nat.mul_succ, Nat.add_comm]
    rw [List.range_succ_eq_map, List.map_cons, List.map_map, limbVal]
    simp only [Function.comp_def, Nat.succ_eq_add_one, hshift, ih]
    rw [Nat.mul_succ, Nat.add_comm (52 * n), pow_add, Nat.mod_mul, Nat.mul_zero, pow_zero, Nat.div_one]

theorem toNat_limb_setWidth (v : FieldReg) (j : Nat) :
    ((limb v j).setWidth 64).toNat = v.toNat / 2 ^ (52 * j) % 2 ^ 52 := by
  have hlt : (limb v j).toNat < 2 ^ 64 := (limb v j).isLt.trans (by decide)
  rw [BitVec.toNat_setWidth, Nat.mod_eq_of_lt hlt, limb, BitVec.extractLsb'_toNat, Nat.shiftRight_eq_div_pow]

theorem isLimbs_limbWords (v : FieldReg) : IsLimbs (limbWords v) := by
  refine List.forall_mem_map.2 fun j _ => ?_
  rw [toNat_limb_setWidth]
  exact Nat.mod_lt _ (by decide)

theorem length_limbWords (v : FieldReg) : (limbWords v).length = 5 := rfl

/-- Five limbs hold the 260 bits of a register (`00_scope.md` R4, R6). -/
theorem two_pow_five_limbs : 2 ^ (52 * 5) = R := by decide +kernel

/-- The limb words of a register represent its integer (`00_scope.md` R6). -/
theorem wordsVal_limbWords (v : FieldReg) : wordsVal (limbWords v) = v.toNat := by
  have hdigits : (limbWords v).map BitVec.toNat = (List.range 5).map fun j => v.toNat / 2 ^ (52 * j) % 2 ^ 52 := by
    have hrange : [0, 1, 2, 3, 4] = List.range 5 := rfl
    simp only [limbWords, hrange, List.map_map, Function.comp_def, toNat_limb_setWidth]
  have hlt : v.toNat < R := by simpa only [R_eq] using v.isLt
  rw [wordsVal, hdigits, limbVal_digits, two_pow_five_limbs, Nat.mod_eq_of_lt hlt]

theorem wordsVal_modulusWords : wordsVal modulusWords = L := by decide +kernel

theorem isLimbs_modulusWords : IsLimbs modulusWords := by simp [IsLimbs, modulusWords]

theorem length_modulusWords : modulusWords.length = 5 := rfl

/-! One limb of each chain. -/

/-- The mask keeps a word's low 52 bits. -/
theorem toNat_and_limbMask (w : Word) : (w &&& limbMask).toNat = w.toNat % 2 ^ 52 := by
  rw [BitVec.toNat_and]
  exact Nat.and_two_pow_sub_one_eq_mod _ 52

theorem toNat_and_limbMask_lt (w : Word) : (w &&& limbMask).toNat < 2 ^ 52 := by
  rw [toNat_and_limbMask]
  exact Nat.mod_lt _ (by decide)

/-- The carry that a chain's raw word hands on. -/
def carryOf (w : Word) : Nat := (w >>> 52).toNat

/-- The borrow that a chain's raw word hands on. -/
def borrowOf (w : Word) : Nat := (w >>> 63).toNat

theorem carryOf_eq (w : Word) : carryOf w = w.toNat / 2 ^ 52 := by
  rw [carryOf, BitVec.toNat_ushiftRight, Nat.shiftRight_eq_div_pow]

theorem borrowOf_eq (w : Word) : borrowOf w = w.toNat / 2 ^ 63 := by
  rw [borrowOf, BitVec.toNat_ushiftRight, Nat.shiftRight_eq_div_pow]

theorem borrowOf_le_one (w : Word) : borrowOf w ≤ 1 := by
  have := w.isLt
  rw [borrowOf_eq]
  omega

/-- Two limbs and a carry do not overflow a word. -/
theorem toNat_addLimb {a b : Word} (ha : a.toNat < 2 ^ 52) (hb : b.toNat < 2 ^ 52) (carry : Word) :
    (a + b + carry >>> 52).toNat = a.toNat + b.toNat + carryOf carry := by
  have hcarry := carryOf_eq carry
  have := carry.isLt
  rw [BitVec.toNat_add, BitVec.toNat_add, ← carryOf]
  omega

/-- The raw difference of two limbs borrows 2^52 from the next limb exactly when it is negative. -/
theorem subLimb_borrow {a b : Word} (ha : a.toNat < 2 ^ 52) (hb : b.toNat < 2 ^ 52) (borrow : Word) :
    a.toNat + 2 ^ 52 * borrowOf (a - (b + borrow >>> 63)) =
      ((a - (b + borrow >>> 63)) &&& limbMask).toNat + b.toNat + borrowOf borrow := by
  have hin := borrowOf_le_one borrow
  rw [toNat_and_limbMask, borrowOf_eq (a - _), BitVec.toNat_sub, BitVec.toNat_add, ← borrowOf]
  omega

/-! The chains. -/

/-- A sum cut at the lowest limb: its low 52 bits stay, and the rest is carried into the limbs above. -/
theorem mod_limb_add_carry_mod (x y n : Nat) :
    x % 2 ^ 52 + 2 ^ 52 * ((y + x / 2 ^ 52) % 2 ^ n) = (x + 2 ^ 52 * y) % 2 ^ (n + 52) := by
  rw [Nat.add_comm n, pow_add, Nat.mod_mul, Nat.add_mul_mod_self_left, Nat.add_mul_div_left _ _ (by decide),
    Nat.add_comm y]

/-- The carry chain adds modulo the limbs' range (`41_linear.md` R150). -/
theorem wordsVal_addChain : ∀ {as bs : List Word} (carry : Word), IsLimbs as → IsLimbs bs → as.length = bs.length →
    wordsVal (addChain carry as bs) = (wordsVal as + wordsVal bs + carryOf carry) % 2 ^ (52 * as.length)
  | [], [], carry, _, _, _ => by rw [List.length_nil, Nat.mul_zero, pow_zero, Nat.mod_one]; rfl
  | a :: as, b :: bs, carry, ha, hb, hlen => by
    obtain ⟨ha, has⟩ := isLimbs_cons.1 ha
    obtain ⟨hb, hbs⟩ := isLimbs_cons.1 hb
    have ih := wordsVal_addChain (a + b + carry >>> 52) has hbs (Nat.succ.inj hlen)
    rw [addChain, wordsVal_cons, ih, toNat_and_limbMask, carryOf_eq, mod_limb_add_carry_mod, toNat_addLimb ha hb,
      List.length_cons, Nat.mul_succ, wordsVal_cons, wordsVal_cons]
    congr 1
    ring

theorem isLimbs_addChain : ∀ (carry : Word) (as bs : List Word), IsLimbs (addChain carry as bs)
  | _, _ :: as, _ :: bs => isLimbs_cons.2 ⟨toNat_and_limbMask_lt _, isLimbs_addChain _ as bs⟩
  | _, [], _ => List.forall_mem_nil _
  | _, _ :: _, [] => List.forall_mem_nil _

theorem length_addChain : ∀ {as bs : List Word} (carry : Word), as.length = bs.length →
    (addChain carry as bs).length = as.length
  | [], _, _, _ => rfl
  | _ :: _, _ :: _, _, hlen => congrArg (· + 1) (length_addChain _ (Nat.succ.inj hlen))

/-- The borrow chain subtracts, and its last raw word tells whether it owes the limbs' range (`41_linear.md` R151). -/
theorem wordsVal_subChain : ∀ {as bs : List Word} (borrow : Word), IsLimbs as → IsLimbs bs → as.length = bs.length →
    wordsVal as + 2 ^ (52 * as.length) * borrowOf (subChain borrow as bs).2 =
      wordsVal (subChain borrow as bs).1 + wordsVal bs + borrowOf borrow
  | [], [], borrow, _, _, _ => by simp [subChain]
  | a :: as, b :: bs, borrow, ha, hb, hlen => by
    obtain ⟨ha, has⟩ := isLimbs_cons.1 ha
    obtain ⟨hb, hbs⟩ := isLimbs_cons.1 hb
    have ih := wordsVal_subChain (a - (b + borrow >>> 63)) has hbs (Nat.succ.inj hlen)
    have hlimb := subLimb_borrow ha hb borrow
    simp only [subChain, wordsVal_cons, List.length_cons, Nat.mul_succ, pow_add]
    linear_combination hlimb + 2 ^ 52 * ih

theorem isLimbs_subChain : ∀ (borrow : Word) (as bs : List Word), IsLimbs (subChain borrow as bs).1
  | _, _ :: as, _ :: bs => isLimbs_cons.2 ⟨toNat_and_limbMask_lt _, isLimbs_subChain _ as bs⟩
  | _, [], _ => List.forall_mem_nil _
  | _, _ :: _, [] => List.forall_mem_nil _

theorem length_subChain : ∀ {as bs : List Word} (borrow : Word), as.length = bs.length →
    (subChain borrow as bs).1.length = as.length
  | [], _, _, _ => rfl
  | _ :: _, _ :: _, _, hlen => congrArg (· + 1) (length_subChain _ (Nat.succ.inj hlen))

/-- The add-back is the carry chain on the masked limbs of L. -/
theorem addBack_eq_addChain (mask : Word) : ∀ (carry : Word) (ds ls : List Word),
    addBack mask carry ds ls = addChain carry ds (ls.map (· &&& mask))
  | carry, d :: ds, l :: ls => by
    have hsum : carry >>> 52 + d + (l &&& mask) = d + (l &&& mask) + carry >>> 52 := by
      rw [BitVec.add_assoc, BitVec.add_comm]
    rw [addBack, List.map_cons, addChain, hsum, addBack_eq_addChain mask _ ds ls]
  | _, [], _ => rfl
  | _, _ :: _, [] => rfl

/-! The datapaths of five limbs against the closed forms. -/

theorem wordsVal_addChain_five {as bs : List Word} (ha : IsLimbs as) (hb : IsLimbs bs) (hla : as.length = 5)
    (hlb : bs.length = 5) : wordsVal (addChain 0 as bs) = (wordsVal as + wordsVal bs) % R := by
  rw [wordsVal_addChain 0 ha hb (hla.trans hlb.symm), hla, two_pow_five_limbs]
  rfl

theorem wordsVal_addBack_allOnes {ds : List Word} (hd : IsLimbs ds) (hl : ds.length = 5) :
    wordsVal (addBack (BitVec.allOnes 64) 0 ds modulusWords) = (wordsVal ds + L) % R := by
  have hmask : modulusWords.map (· &&& BitVec.allOnes 64) = modulusWords := by decide
  rw [addBack_eq_addChain, hmask, wordsVal_addChain_five hd isLimbs_modulusWords hl length_modulusWords,
    wordsVal_modulusWords]

theorem wordsVal_addBack_zero {ds : List Word} (hd : IsLimbs ds) (hl : ds.length = 5) :
    wordsVal (addBack 0 0 ds modulusWords) = wordsVal ds % R := by
  have hmask : modulusWords.map (· &&& 0) = [0, 0, 0, 0, 0] := by decide
  have hzeros : IsLimbs [0, 0, 0, 0, 0] := by simp [IsLimbs]
  rw [addBack_eq_addChain, hmask, wordsVal_addChain_five hd hzeros hl rfl]
  rfl

theorem subWords_of_borrow {as bs : List Word} (h : borrowOf (subChain 0 as bs).2 = 1) :
    subWords as bs = addBack (BitVec.allOnes 64) 0 (subChain 0 as bs).1 modulusWords := by
  have hsign : (subChain 0 as bs).2 >>> 63 = 1 := BitVec.eq_of_toNat_eq h
  simp only [subWords, if_pos hsign]

theorem subWords_of_no_borrow {as bs : List Word} (h : borrowOf (subChain 0 as bs).2 = 0) :
    subWords as bs = addBack 0 0 (subChain 0 as bs).1 modulusWords := by
  have hsign : (subChain 0 as bs).2 >>> 63 ≠ 1 := fun h1 =>
    absurd (h.symm.trans (congrArg BitVec.toNat h1)) (by decide)
  simp only [subWords, if_neg hsign]

/-- The subtracter datapath computes SUB's closed form (`41_linear.md` R141, R151). -/
theorem wordsVal_subWords {as bs : List Word} (ha : IsLimbs as) (hb : IsLimbs bs) (hla : as.length = 5)
    (hlb : bs.length = 5) : wordsVal (subWords as bs) = subF (wordsVal as) (wordsVal bs) := by
  have hlen : as.length = bs.length := hla.trans hlb.symm
  have hd := isLimbs_subChain 0 as bs
  have hld : (subChain 0 as bs).1.length = 5 := (length_subChain 0 hlen).trans hla
  have hdlt := wordsVal_lt hd
  have hdiff := wordsVal_subChain 0 ha hb hlen
  rw [hld, two_pow_five_limbs] at hdlt
  rw [hla, two_pow_five_limbs] at hdiff
  have hin : borrowOf 0 = 0 := rfl
  rw [hin, Nat.add_zero] at hdiff
  rcases Nat.le_one_iff_eq_zero_or_eq_one.1 (borrowOf_le_one (subChain 0 as bs).2) with hzero | hone
  · rw [hzero, Nat.mul_zero, Nat.add_zero] at hdiff
    rw [subWords_of_no_borrow hzero, wordsVal_addBack_zero hd hld, Nat.mod_eq_of_lt hdlt, subF, hdiff,
      if_pos (Nat.le_add_left _ _), Nat.add_sub_cancel]
  · rw [hone, Nat.mul_one] at hdiff
    have hlt : wordsVal as < wordsVal bs := by omega
    have hsum : wordsVal as + L + R - wordsVal bs = wordsVal (subChain 0 as bs).1 + L := by omega
    rw [subWords_of_borrow hone, wordsVal_addBack_allOnes hd hld, subF, if_neg (Nat.not_le_of_lt hlt), hsum]

/-- ADD's closed form is the sum modulo 2^260, from which SUB's then takes L. -/
theorem addF_eq_subF (a b : Nat) : addF a b = subF ((a + b) % R) L := by
  have hlt : (a + b) % R < R := Nat.mod_lt _ R_pos
  rw [addF, subF]
  split
  case isTrue => rfl
  case isFalse => rw [Nat.add_right_comm, Nat.add_sub_cancel, Nat.add_mod_right, Nat.mod_eq_of_lt hlt]

/-- The adder datapath computes ADD's closed form (`41_linear.md` R140, R150). -/
theorem wordsVal_addWords {as bs : List Word} (ha : IsLimbs as) (hb : IsLimbs bs) (hla : as.length = 5)
    (hlb : bs.length = 5) : wordsVal (addWords as bs) = addF (wordsVal as) (wordsVal bs) := by
  have hlc : (addChain 0 as bs).length = 5 := (length_addChain 0 (hla.trans hlb.symm)).trans hla
  rw [addWords, wordsVal_subWords (isLimbs_addChain 0 as bs) isLimbs_modulusWords hlc length_modulusWords,
    wordsVal_addChain_five ha hb hla hlb, wordsVal_modulusWords, addF_eq_subF]

/-- Two digits in front of numbers below the base compare first (`41_linear.md` R152). -/
theorem add_mul_lt_add_mul_iff {p x y : Nat} (hx : x < p) (hy : y < p) (c d : Nat) :
    x + p * c < y + p * d ↔ c < d ∨ c = d ∧ x < y := by
  rcases lt_trichotomy c d with hlt | rfl | hgt
  · have hstep : p * (c + 1) ≤ p * d := Nat.mul_le_mul_left p hlt
    rw [Nat.mul_succ] at hstep
    omega
  · omega
  · have hstep : p * (d + 1) ≤ p * c := Nat.mul_le_mul_left p hgt
    rw [Nat.mul_succ] at hstep
    omega

/-- The comparison, most significant limb first, is the order of the integers (`41_linear.md` R152). -/
theorem limbLess_eq : ∀ {as bs : List Word}, IsLimbs as → IsLimbs bs → as.length = bs.length →
    limbLess as bs = decide (wordsVal as.reverse < wordsVal bs.reverse)
  | [], [], _, _, _ => rfl
  | a :: as, b :: bs, ha, hb, hlen => by
    obtain ⟨-, has⟩ := isLimbs_cons.1 ha
    obtain ⟨-, hbs⟩ := isLimbs_cons.1 hb
    have hlen : as.length = bs.length := Nat.succ.inj hlen
    have halt := wordsVal_lt (isLimbs_reverse.2 has)
    have hblt := wordsVal_lt (isLimbs_reverse.2 hbs)
    rw [List.length_reverse] at halt hblt
    rw [← hlen] at hblt
    rw [limbLess, limbLess_eq has hbs hlen, wordsVal_reverse_cons, wordsVal_reverse_cons, ← hlen]
    simp only [add_mul_lt_add_mul_iff halt hblt, BitVec.toNat_inj, Bool.decide_or, Bool.decide_and]

/-- The limb comparison of registers is the order of their integers. -/
theorem regLess_eq (a b : FieldReg) : regLess a b = decide (a.toNat < b.toNat) := by
  have hlen : (limbWords a).reverse.length = (limbWords b).reverse.length := by
    rw [List.length_reverse, List.length_reverse, length_limbWords, length_limbWords]
  rw [regLess, limbLess_eq (isLimbs_reverse.2 (isLimbs_limbWords a)) (isLimbs_reverse.2 (isLimbs_limbWords b)) hlen,
    List.reverse_reverse, List.reverse_reverse, wordsVal_limbWords, wordsVal_limbWords]

/-! The family's statements about the datapaths (`41_linear.md`). -/

/-- Settles O51: the limb words represent the operands, and the datapath computes `addF`. -/
theorem adderDatapathComputesAdd : Obligations.AdderDatapathComputesAdd := by
  intro a b
  rw [wordsVal_addWords (isLimbs_limbWords a) (isLimbs_limbWords b) (length_limbWords a) (length_limbWords b),
    wordsVal_limbWords, wordsVal_limbWords, addF_eq]

/-- Settles O52: the limb words represent the operands, and the datapath computes `subF`. -/
theorem subtracterDatapathComputesSub : Obligations.SubtracterDatapathComputesSub := by
  intro a b
  rw [wordsVal_subWords (isLimbs_limbWords a) (isLimbs_limbWords b) (length_limbWords a) (length_limbWords b),
    wordsVal_limbWords, wordsVal_limbWords, subF_eq]

/-- Settles O53. -/
theorem limbOrderingIsIntegerOrdering : Obligations.LimbOrderingIsIntegerOrdering :=
  fun a b => ⟨regLess_eq a b, wordsVal_limbWords a⟩

end Sys2Proof.Machine
end

section
/-! The multiplicative commands (`42_multiplicative.md` R182 to R190), in the order of their parts: the commands as
their shared endings, the reductions in the words of the rules, the exponentiation loop, and from these the family's
statements about the commands. -/

namespace Sys2Proof.Machine

/-! The commands as their shared endings. -/

theorem exec_mul (rd rs1 rs2 : Reg) (s : State) :
    exec (.mul rd rs1 rs2) s = writeBack rd (mulF (s.x rs1) (s.x rs2)) s := rfl

theorem exec_sqr (rd rs1 : Reg) (s : State) :
    exec (.sqr rd rs1) s = writeBack rd (mulF (s.x rs1) (s.x rs1)) s := rfl

theorem exec_mmul (rd rs1 rs2 : Reg) (s : State) :
    exec (.mmul rd rs1 rs2) s = writeBack rd (mred (s.x rs1 * s.x rs2)) s := rfl

theorem exec_msqr (rd rs1 : Reg) (s : State) :
    exec (.msqr rd rs1) s = writeBack rd (mred (s.x rs1 * s.x rs1)) s := rfl

theorem exec_tomont (rd rs1 : Reg) (s : State) :
    exec (.tomont rd rs1) s = writeBack rd (mred (s.x rs1 * K.rr)) s := rfl

theorem exec_frommont (rd rs1 : Reg) (s : State) :
    exec (.frommont rd rs1) s = writeBack rd (mred (s.x rs1)) s := rfl

theorem exec_pow (rd rs1 rs2 : Reg) (s : State) :
    exec (.pow rd rs1 rs2) s = writeBack rd (powF (s.x rs1) (s.x rs2)) s := rfl

/-- A write-back that completed left its value in the destination. -/
theorem x_of_writeBack {s t : State} {rd : Reg} {v : Nat} (h : writeBack rd v s = .next t) (hv : v < R) :
    t.x rd = v := by
  obtain ⟨t', ht', hwrites⟩ := writeBack_spec s rd hv
  obtain rfl : t = t' := Host.Outcome.next.inj (h.symm.trans ht')
  exact hwrites.result

/-! The reductions. -/

/-- R182's N is the only number below R that makes the division by R exact. -/
theorem eq_montN {T N : Nat} (hN : N < R) (hdvd : R ∣ T + N * L) : N = montN T := by
  have hsum : T + N * L ≡ T + montN T * L [MOD R] :=
    (Nat.modEq_zero_iff_dvd.2 hdvd).trans (Nat.modEq_zero_iff_dvd.2 (R_dvd_montSum T)).symm
  have hmul : N * L ≡ montN T * L [MOD R] := Nat.ModEq.add_left_cancel' T hsum
  exact (Nat.ModEq.cancel_right_of_coprime coprime_R_L hmul).eq_of_lt_of_lt hN (montN_lt T)

/-- MRED in R182's words, by any N that makes the division exact (`42_multiplicative.md` R182). -/
theorem mred_eq_of_dvd {T N : Nat} (hN : N < R) (hdvd : R ∣ T + N * L) :
    mred T = if L ≤ (T + N * L) / R then (T + N * L) / R - L else (T + N * L) / R := by
  rw [eq_montN hN hdvd, mred, montU]

/-- MRED in R182's words, with 2^260 written out. -/
theorem exists_mred_eq (T : Nat) : ∃ N, N < 2 ^ 260 ∧ (T + N * L) % 2 ^ 260 = 0 ∧
    mred T = if L ≤ (T + N * L) / 2 ^ 260 then (T + N * L) / 2 ^ 260 - L else (T + N * L) / 2 ^ 260 := by
  rw [← R_eq]
  exact ⟨montN T, montN_lt T, Nat.mod_eq_zero_of_dvd (R_dvd_montSum T), mred_eq_of_dvd (montN_lt T) (R_dvd_montSum T)⟩

/-- Operands below 2^253 keep the product in the range where one reduction is canonical (`42_multiplicative.md`
R190). -/
theorem mred_mul_lt_L {a b : Nat} (ha : a < 2 ^ 253) (hb : b < 2 ^ 253) : mred (a * b) < L := by
  have hrange : 2 ^ 253 * 2 ^ 253 < L * R := by decide +kernel
  exact mred_lt_L ((Nat.mul_lt_mul_of_lt_of_le ha hb.le (by decide)).trans hrange)

/-- What MMUL and MSQR write: one reduction of an exact product (`42_multiplicative.md` R185, R186). -/
theorem writeBack_mred_spec (s : State) (rd : Reg) {T : Nat} (hT : T < R * R) :
    ∃ t, writeBack rd (mred T) s = .next t ∧ ∃ N, N < 2 ^ 260 ∧ (T + N * L) % 2 ^ 260 = 0 ∧
      WritesReg s t rd (if L ≤ (T + N * L) / 2 ^ 260 then (T + N * L) / 2 ^ 260 - L else (T + N * L) / 2 ^ 260) ∧
      (T < L * 2 ^ 260 → t.x rd < L ∧ t.x rd * 2 ^ 260 % L = T % L) := by
  obtain ⟨t, ht, hwrites⟩ := writeBack_spec s rd (mred_lt_R hT)
  obtain ⟨N, hN, hexact, hmred⟩ := exists_mred_eq T
  refine ⟨t, ht, N, hN, hexact, hmred ▸ hwrites, fun hlt => ?_⟩
  rw [hwrites.result]
  rw [← R_eq] at hlt ⊢
  exact ⟨mred_lt_L hlt, mred_mul_R T⟩

/-! The exponentiation loop. -/

/-- Skipping the last squaring changes nothing: over register values the source's loop runs as the model's does
(`42_multiplicative.md` R189). -/
theorem powUnit_eq_powLoop : ∀ (fuel : Nat) {res base : Nat} (e : Nat), res < R → base < R →
    powUnit fuel res base e = powLoop L fuel res base e
  | 0, _, _, _, _, _ => rfl
  | fuel + 1, res, base, e, hres, hbase => by
    have hres' : (if e % 2 = 1 then res * base % L else res) < R := by
      split
      · exact (Nat.mod_lt _ L_pos).trans L_lt_R
      · exact hres
    have hsquare : base * base % L < R := (Nat.mod_lt _ L_pos).trans L_lt_R
    simp only [powUnit, powLoop, mulF_eq hres hbase, mulF_eq hbase hbase]
    by_cases hdone : e = 0
    · rw [if_pos hdone, if_pos hdone]
    rw [if_neg hdone, if_neg hdone]
    by_cases hlast : e / 2 = 0
    · rw [if_neg (not_not.2 hlast), powUnit_eq_powLoop fuel _ hres' hbase, hlast]
      cases fuel <;> rfl
    · rw [if_pos hlast]
      exact powUnit_eq_powLoop fuel _ hres' hsquare

theorem powUnit_eq_powF {a : Nat} (ha : a < R) (e : Nat) : powUnit 260 1 a e = powF a e :=
  powUnit_eq_powLoop 260 e (one_lt_L.trans L_lt_R) ha

/-- POW's closed form with its case for exponent 0 (`42_multiplicative.md` R189). -/
theorem powF_eq_ite {e : Nat} (he : e < R) (a : Nat) : powF a e = if e = 0 then 1 else a ^ e % L := by
  rw [powF_eq he]
  split
  case isTrue hzero => rw [hzero, pow_zero, Nat.mod_eq_of_lt one_lt_L]
  case isFalse => rfl

/-! The family's statements about the commands and the loop (`42_multiplicative.md`). -/

/-- Settles O39: two reductions give the product modulo L for every pair of register values. -/
theorem mulAndSqrWriteTheProductModL : Obligations.MulAndSqrWriteTheProductModL := by
  intro s rd rs1 rs2
  have hproduct : ∀ r : Reg, ∃ t, writeBack rd (mulF (s.x rs1) (s.x r)) s = .next t ∧
      WritesReg s t rd (s.x rs1 * s.x r % L) := fun r => by
    rw [← mulF_eq (s.x_lt rs1) (s.x_lt r)]
    exact writeBack_spec s rd ((mulF_lt (s.x_lt rs1) (s.x_lt r)).trans L_lt_R)
  rw [exec_mul, exec_sqr]
  exact ⟨⟨encodedAs_of_wellFormed (i := .mul rd rs1 rs2) rfl, hproduct rs2⟩,
    encodedAs_of_wellFormed (i := .sqr rd rs1) rfl, hproduct rs1⟩

/-- Settles O40. -/
theorem montgomeryProductsAreOneReduction : Obligations.MontgomeryProductsAreOneReduction := by
  intro s rd rs1 rs2
  rw [exec_mmul, exec_msqr]
  exact ⟨⟨encodedAs_of_wellFormed (i := .mmul rd rs1 rs2) rfl,
      writeBack_mred_spec s rd (mul_lt_RR (s.x_lt rs1) (s.x_lt rs2))⟩,
    encodedAs_of_wellFormed (i := .msqr rd rs1) rfl,
    writeBack_mred_spec s rd (mul_lt_RR (s.x_lt rs1) (s.x_lt rs1))⟩

/-- Settles O41: the factor 2^260 is invertible modulo L, so it determines FROMMONT's canonical value. -/
theorem montgomeryConversionsAreExact : Obligations.MontgomeryConversionsAreExact := by
  intro s rd rs1
  rw [exec_tomont, exec_frommont, ← R_eq]
  refine ⟨⟨encodedAs_of_wellFormed (i := .tomont rd rs1) rfl, ?tomont⟩,
    encodedAs_of_wellFormed (i := .frommont rd rs1) rfl, ?frommont⟩
  case tomont =>
    rw [mred_mul_rr (s.x_lt rs1)]
    exact writeBack_spec s rd ((Nat.mod_lt _ L_pos).trans L_lt_R)
  case frommont =>
    have hlt : mred (s.x rs1) < L := mred_lt_of_lt_R (s.x_lt rs1)
    have hvalue : mred (s.x rs1) * R ≡ s.x rs1 [MOD L] := mred_mul_R (s.x rs1)
    obtain ⟨t, ht, hwrites⟩ := writeBack_spec s rd (hlt.trans L_lt_R)
    exact ⟨t, _, ht, hwrites, hlt, hvalue,
      fun v hv hvR => eq_of_mul_R_modEq hv hlt (Nat.ModEq.trans hvR hvalue.symm)⟩

/-- Settles O42. -/
theorem powWritesThePowerModL : Obligations.PowWritesThePowerModL := by
  intro s rd rs1 rs2
  refine ⟨encodedAs_of_wellFormed (i := .pow rd rs1 rs2) rfl, ?_⟩
  rw [exec_pow, ← powF_eq_ite (s.x_lt rs2)]
  exact writeBack_spec s rd ((powF_lt _ _).trans L_lt_R)

/-- Settles O43: the bounds on the results of one and of two reductions, and `mulF_eq` on canonical operands. -/
theorem multiplicativeLawsHold : Obligations.MultiplicativeLawsHold := by
  refine ⟨fun a b ha hb => ?product, fun s t rd rs1 rs2 h => ?canonical, fun s t rd rs1 rs2 h1 h2 h => ?montgomery,
    fun x hx => ?laws⟩
  case product =>
    rw [← R_eq] at ha hb
    refine ⟨mulF_eq ha hb, ?_, mulF_lt ha hb⟩
    rw [mulF_eq ha hb, mulF_eq hb ha, Nat.mul_comm]
  case canonical =>
    have hresult : ∀ r : Reg, writeBack rd (mulF (s.x rs1) (s.x r)) s = .next t → t.x rd < L := fun r hw => by
      have hlt : mulF (s.x rs1) (s.x r) < L := mulF_lt (s.x_lt rs1) (s.x_lt r)
      rwa [x_of_writeBack hw (hlt.trans L_lt_R)]
    exact h.elim (hresult rs2) (hresult rs1)
  case montgomery =>
    have hresult : ∀ r : Reg, s.x r < 2 ^ 253 → writeBack rd (mred (s.x rs1 * s.x r)) s = .next t → t.x rd < L :=
      fun r hr hw => by
        have hlt : mred (s.x rs1 * s.x r) < L := mred_mul_lt_L h1 hr
        rwa [x_of_writeBack hw (hlt.trans L_lt_R)]
    exact h.elim (hresult rs2 h2) (hresult rs1 h1)
  case laws =>
    have hxR : x < R := hx.trans L_lt_R
    refine ⟨?_, ?_, fun hpos => ?_⟩
    · rw [mulF_eq hxR R_pos, Nat.mul_zero, Nat.zero_mod]
    · rw [mulF_eq hxR (one_lt_L.trans L_lt_R), Nat.mul_one, Nat.mod_eq_of_lt hx]
    · rw [mulF_eq hxR ((invL_lt x).trans L_lt_R), mul_invL hpos hx]

/-- Settles O56. -/
theorem powUnitComputesThePower : Obligations.PowUnitComputesThePower := by
  intro a e ha he
  rw [← R_eq] at ha he
  have hpow : powUnit 260 1 a e = powF a e := powUnit_eq_powF ha e
  exact ⟨hpow.trans (powF_eq_ite he a), hpow⟩

end Sys2Proof.Machine
end

section
/-! The product unit and the digit-serial Montgomery reduction (`42_multiplicative.md` R180 to R182), in the order of
their parts: the convolution by recursion on its first operand, the accumulators, the digit and carry steps with the
invariant each keeps, the final subtraction, and from these the family's statements about the datapaths. -/

namespace Sys2Proof.Machine

/-! The convolution. -/

theorem convolution_eq_sum (a b : List Nat) (k : Nat) :
    convolution a b k = ∑ i ∈ Finset.range (k + 1), a.getD i 0 * b.getD (k - i) 0 := rfl

theorem convolution_nil (b : List Nat) (k : Nat) : convolution [] b k = 0 := by
  simp [convolution_eq_sum]

theorem convolution_cons_zero (x : Nat) (a b : List Nat) : convolution (x :: a) b 0 = x * b.getD 0 0 := by
  simp [convolution_eq_sum]

theorem convolution_cons_succ (x : Nat) (a b : List Nat) (k : Nat) :
    convolution (x :: a) b (k + 1) = x * b.getD (k + 1) 0 + convolution a b k := by
  simp only [convolution_eq_sum, Finset.sum_range_succ' _ (k + 1), List.getD_cons_zero, List.getD_cons_succ,
    Nat.add_sub_add_right, Nat.sub_zero]
  exact Nat.add_comm _ _

/-- A new last digit of the first operand adds nothing before its own position, and there one product. -/
theorem convolution_append_singleton (p : Nat) (b : List Nat) : ∀ (a : List Nat) (k : Nat), k ≤ a.length →
    convolution (a ++ [p]) b k = convolution a b k + if k = a.length then p * b.getD 0 0 else 0
  | [], k, hk => by
    obtain rfl : k = 0 := Nat.le_zero.1 hk
    simp [convolution_nil, convolution_cons_zero]
  | x :: a, 0, _ => by simp [convolution_cons_zero]
  | x :: a, k + 1, hk => by
    rw [List.cons_append, convolution_cons_succ, convolution_cons_succ,
      convolution_append_singleton p b a k (Nat.le_of_succ_le_succ hk), List.length_cons, Nat.add_assoc]
    simp only [Nat.add_right_cancel_iff]

/-- A convolution has at most one product per limb of its first operand. -/
theorem convolution_le {m : Nat} {b : List Nat} (hb : ∀ y ∈ b, y ≤ m) : ∀ {a : List Nat} (k : Nat), (∀ x ∈ a, x ≤ m) →
    convolution a b k ≤ a.length * (m * m)
  | [], k, _ => by simp [convolution_nil]
  | x :: a, k, ha => by
    have hget : b.getD k 0 ≤ m := by
      rw [List.getD_eq_getElem?_getD]
      cases h : b[k]? with
      | none => exact Nat.zero_le m
      | some y => exact hb y (List.mem_of_getElem? h)
    have hfirst : x * b.getD k 0 ≤ m * m := Nat.mul_le_mul (ha x List.mem_cons_self) hget
    rw [List.length_cons, Nat.succ_mul]
    cases k with
    | zero => rw [convolution_cons_zero]; omega
    | succ k =>
      have hrest := convolution_le hb k fun y hy => ha y (List.mem_cons_of_mem x hy)
      rw [convolution_cons_succ]
      omega

/-! The values that limb lists and convolutions represent, as sums over positions. -/

/-- The weight of the limb at position `k` (`00_scope.md` R6). -/
def limbWeight (k : Nat) : Nat := 2 ^ (52 * k)

@[simp] theorem limbWeight_zero : limbWeight 0 = 1 := rfl

theorem limbWeight_succ (k : Nat) : limbWeight (k + 1) = 2 ^ 52 * limbWeight k := by
  rw [limbWeight, limbWeight, Nat.mul_succ, pow_add, Nat.mul_comm]

theorem limbWeight_five_add (k : Nat) : limbWeight (5 + k) = R * limbWeight k := by
  rw [limbWeight, limbWeight, Nat.mul_add, pow_add, two_pow_five_limbs]

theorem sum_mul_limbWeight_succ (f : Nat → Nat) (n : Nat) :
    ∑ k ∈ Finset.range n, f k * limbWeight (k + 1) = 2 ^ 52 * ∑ k ∈ Finset.range n, f k * limbWeight k := by
  rw [Finset.mul_sum]
  exact Finset.sum_congr rfl fun k _ => by rw [limbWeight_succ, Nat.mul_left_comm]

/-- The integer of a limb list, position by position; positions past the end count 0 (`00_scope.md` R6). -/
theorem sum_getD_eq_limbVal : ∀ {l : List Nat} {n : Nat}, l.length ≤ n →
    ∑ k ∈ Finset.range n, l.getD k 0 * limbWeight k = limbVal l
  | [], n, _ => by simp [limbVal]
  | x :: l, n + 1, h => by
    simp only [Finset.sum_range_succ', List.getD_cons_succ, List.getD_cons_zero]
    rw [sum_mul_limbWeight_succ, sum_getD_eq_limbVal (Nat.le_of_succ_le_succ h), limbWeight_zero, Nat.mul_one,
      Nat.add_comm, limbVal]

/-- The convolutions of two limb lists represent the product of their integers (`42_multiplicative.md` R180). -/
theorem sum_convolution : ∀ {a b : List Nat} {n : Nat}, a.length + b.length ≤ n + 1 →
    ∑ k ∈ Finset.range n, convolution a b k * limbWeight k = limbVal a * limbVal b
  | [], b, n, _ => by simp [convolution_nil, limbVal]
  | x :: a, b, 0, h => by
    have hb : b.length = 0 := by rw [List.length_cons] at h; omega
    rw [List.eq_nil_of_length_eq_zero hb, Finset.sum_range_zero, limbVal, limbVal, Nat.mul_zero]
  | x :: a, b, n + 1, h => by
    rw [List.length_cons] at h
    have hhead : ∑ k ∈ Finset.range (n + 1), x * b.getD k 0 * limbWeight k = x * limbVal b := by
      simp only [Nat.mul_assoc, ← Finset.mul_sum, sum_getD_eq_limbVal (show b.length ≤ n + 1 by omega)]
    have htail : ∑ k ∈ Finset.range n, convolution a b k * limbWeight (k + 1) = 2 ^ 52 * (limbVal a * limbVal b) := by
      rw [sum_mul_limbWeight_succ, sum_convolution (by omega)]
    rw [limbVal, Nat.add_mul, Nat.mul_assoc, ← hhead, ← htail, Finset.sum_range_succ', Finset.sum_range_succ',
      Nat.add_right_comm, ← Finset.sum_add_distrib]
    simp only [convolution_cons_succ, convolution_cons_zero, Nat.add_mul]

theorem limbVal_append (l l' : List Nat) : limbVal (l ++ l') = limbVal l + limbWeight l.length * limbVal l' := by
  rw [limbVal_eq_ofDigits, limbVal_eq_ofDigits, limbVal_eq_ofDigits, Nat.ofDigits_append, limbWeight, pow_mul]

theorem limbVal_append_singleton (l : List Nat) (x : Nat) :
    limbVal (l ++ [x]) = limbVal l + limbWeight l.length * x := by
  rw [limbVal_append, limbVal, limbVal, Nat.mul_zero, Nat.add_zero]

theorem limbVal_lt {l : List Nat} (h : ∀ x ∈ l, x < 2 ^ 52) : limbVal l < limbWeight l.length := by
  rw [limbVal_eq_ofDigits, limbWeight, pow_mul]
  exact Nat.ofDigits_lt_base_pow_length (by decide) h

theorem limbVal_map_range (f : Nat → Nat) : ∀ n : Nat,
    limbVal ((List.range n).map f) = ∑ k ∈ Finset.range n, f k * limbWeight k
  | 0 => rfl
  | n + 1 => by
    rw [List.range_succ, List.map_append, List.map_singleton, limbVal_append_singleton, limbVal_map_range f n,
      List.length_map, List.length_range, Finset.sum_range_succ, Nat.mul_comm (f n)]

/-! The accumulators. -/

theorem limbVal_limbNats (v : FieldReg) : limbVal (limbNats v) = v.toNat := wordsVal_limbWords v

theorem toNat_lt_R (v : FieldReg) : v.toNat < R := by
  simpa only [R_eq] using v.isLt

theorem length_limbNats (v : FieldReg) : (limbNats v).length = 5 := rfl

theorem limbNats_lt (v : FieldReg) : ∀ x ∈ limbNats v, x < 2 ^ 52 := List.forall_mem_map.2 (isLimbs_limbWords v)

/-- Nine accumulators are enough for five limbs by five (`42_multiplicative.md` R180). -/
theorem limbVal_productAcc {a b : List Nat} (ha : a.length = 5) (hb : b.length = 5) :
    limbVal (productAcc a b) = limbVal a * limbVal b := by
  rw [productAcc, limbVal_map_range, sum_convolution (by omega)]

theorem limbVal_productAcc_limbNats (a b : FieldReg) :
    limbVal (productAcc (limbNats a) (limbNats b)) = a.toNat * b.toNat := by
  rw [limbVal_productAcc (length_limbNats a) (length_limbNats b), limbVal_limbNats, limbVal_limbNats]

/-- An accumulator sums at most five products of limbs, so it fits 107 bits (`00_scope.md` R4). -/
theorem productAcc_lt {a b : List Nat} (ha : a.length = 5) (hla : ∀ x ∈ a, x < 2 ^ 52) (hlb : ∀ y ∈ b, y < 2 ^ 52) :
    ∀ z ∈ productAcc a b, z < 2 ^ 107 := by
  refine List.forall_mem_map.2 fun k _ => ?_
  have hle : convolution a b k ≤ 5 * ((2 ^ 52 - 1) * (2 ^ 52 - 1)) :=
    ha ▸ convolution_le (fun y hy => Nat.le_sub_one_of_lt (hlb y hy)) k fun x hx => Nat.le_sub_one_of_lt (hla x hx)
  exact hle.trans_lt (by decide)

theorem squareTerm_eq_sum (a : List Nat) (k : Nat) :
    squareTerm a k = ∑ i ∈ Finset.range (k + 1), if 2 * i < k then 2 * a.getD i 0 * a.getD (k - i) 0
      else if 2 * i = k then a.getD i 0 * a.getD i 0 else 0 := rfl

/-- The cross terms below the diagonal are those above it, read backwards (`42_multiplicative.md` R181). -/
theorem squareTerm_eq_convolution (a : List Nat) (k : Nat) : squareTerm a k = convolution a a k := by
  have hsplit : squareTerm a k =
      (∑ i ∈ Finset.range (k + 1), if 2 * i < k then a.getD i 0 * a.getD (k - i) 0 else 0) +
      ∑ i ∈ Finset.range (k + 1), if 2 * i ≤ k then a.getD i 0 * a.getD (k - i) 0 else 0 := by
    rw [squareTerm_eq_sum, ← Finset.sum_add_distrib]
    refine Finset.sum_congr rfl fun i _ => ?_
    rcases Nat.lt_trichotomy (2 * i) k with hlt | heq | hgt
    · rw [if_pos hlt, if_pos hlt, if_pos hlt.le, Nat.mul_assoc, Nat.two_mul]
    · have hmiddle : k - i = i := by omega
      rw [if_neg heq.ge.not_gt, if_pos heq, if_neg heq.ge.not_gt, if_pos heq.le, hmiddle, Nat.zero_add]
    · rw [if_neg hgt.not_gt, if_neg hgt.ne', if_neg hgt.not_gt, if_neg hgt.not_ge]
  rw [hsplit, ← Finset.sum_range_reflect (δ := Nat), ← Finset.sum_add_distrib, convolution_eq_sum]
  refine Finset.sum_congr rfl fun i hi => ?_
  have hik : i ≤ k := Nat.lt_succ_iff.1 (Finset.mem_range.1 hi)
  rw [Nat.add_sub_cancel, Nat.sub_sub_self hik]
  rcases Nat.lt_or_ge k (2 * i) with hlt | hge
  · rw [if_pos (by omega), if_neg hlt.not_ge, Nat.add_zero, Nat.mul_comm]
  · rw [if_neg (by omega), if_pos hge, Nat.zero_add]

theorem squareAcc_eq_productAcc (a : List Nat) : squareAcc a = productAcc a a :=
  List.map_congr_left fun k _ => squareTerm_eq_convolution a k

/-! The five digit steps. -/

/-- What the reduction adds up at position `k`: the accumulator and the convolution of N's digits with L. -/
def column (z ps : List Nat) (k : Nat) : Nat := z.getD k 0 + convolution ps modulusLimbs k

theorem limbVal_modulusLimbs : limbVal modulusLimbs = L := wordsVal_modulusWords

/-- A new digit adds nothing before its own position, and there its product with L's low limb. -/
theorem column_append_singleton {ps : List Nat} {k : Nat} (hk : k ≤ ps.length) (z : List Nat) (p : Nat) :
    column z (ps ++ [p]) k = column z ps k + if k = ps.length then p * modulusLimbs.getD 0 0 else 0 := by
  rw [column, column, convolution_append_singleton p _ ps k hk, Nat.add_assoc]

/-- The columns represent T + N * L, for the accumulators of T and the digits of N (`42_multiplicative.md` R182). -/
theorem sum_column {z ps : List Nat} (hz : z.length = 9) (hps : ps.length = 5) :
    ∑ k ∈ Finset.range 9, column z ps k * limbWeight k = limbVal z + limbVal ps * L := by
  have hlengths : ps.length + modulusLimbs.length ≤ 9 + 1 := by rw [hps]; decide
  simp only [column, Nat.add_mul, Finset.sum_add_distrib]
  rw [sum_getD_eq_limbVal hz.le, sum_convolution hlengths, limbVal_modulusLimbs]

/-- After the digit steps below `i`: one digit each, and a carry that holds the whole sum of the columns passed
(`42_multiplicative.md` R182). -/
structure DigitsFound (z : List Nat) (i : Nat) (st : Nat × List Nat) : Prop where
  length : st.2.length = i
  limbs : ∀ p ∈ st.2, p < 2 ^ 52
  value : ∑ k ∈ Finset.range i, column z st.2 k * limbWeight k = limbWeight i * st.1

/-- LFACTOR is -inv(L) modulo the limb base, so the digit clears the low limb of its column (`10_state.md` R35). -/
theorem two_pow_dvd_add_digit (s : Nat) : 2 ^ 52 ∣ s + s * K.lFactor % 2 ^ 52 * modulusLimbs.getD 0 0 := by
  have hfactor : 2 ^ 52 ∣ K.lFactor * modulusLimbs.getD 0 0 + 1 := by decide
  have hsum : s + s * K.lFactor % 2 ^ 52 * modulusLimbs.getD 0 0 ≡
      s + s * K.lFactor * modulusLimbs.getD 0 0 [MOD 2 ^ 52] :=
    ((Nat.mod_modEq _ _).mul_right _).add_left s
  rw [hsum.dvd_iff (dvd_refl _), Nat.mul_assoc, Nat.add_comm, ← Nat.mul_succ]
  exact hfactor.mul_left s

theorem digitStep_of_digit {z ps : List Nat} {carry i p : Nat} (hp : (carry + column z ps i) * K.lFactor % 2 ^ 52 = p) :
    digitStep z (carry, ps) i = ((carry + column z ps i + p * modulusLimbs.getD 0 0) / 2 ^ 52, ps ++ [p]) := by
  subst hp
  rw [column, ← Nat.add_assoc]
  rfl

theorem DigitsFound.step {z : List Nat} {i : Nat} {st : Nat × List Nat} (h : DigitsFound z i st) :
    DigitsFound z (i + 1) (digitStep z st i) := by
  obtain ⟨carry, ps⟩ := st
  obtain ⟨rfl, hlimbs, hvalue⟩ := h
  have hcarry := Nat.mul_div_cancel' (two_pow_dvd_add_digit (carry + column z ps ps.length))
  generalize hp : (carry + column z ps ps.length) * K.lFactor % 2 ^ 52 = p at hcarry
  have hpassed : ∀ k ∈ Finset.range ps.length, column z (ps ++ [p]) k * limbWeight k = column z ps k * limbWeight k :=
    fun k hk => by
      have hk := Finset.mem_range.1 hk
      rw [column_append_singleton hk.le, if_neg hk.ne, Nat.add_zero]
  rw [digitStep_of_digit hp]
  refine ⟨List.length_append, List.forall_mem_append.2 ⟨hlimbs, List.forall_mem_singleton.2 ?_⟩, ?_⟩
  · exact hp ▸ Nat.mod_lt _ (by decide)
  · rw [Finset.sum_range_succ, Finset.sum_congr rfl hpassed, hvalue, column_append_singleton le_rfl, if_pos rfl,
      limbWeight_succ, Nat.mul_right_comm, hcarry]
    ring

theorem digitsFound_foldl (z : List Nat) : ∀ n : Nat,
    DigitsFound z n ((List.range n).foldl (digitStep z) (0, []))
  | 0 => ⟨rfl, List.forall_mem_nil _, rfl⟩
  | n + 1 => by
    rw [List.range_succ, List.foldl_append]
    exact (digitsFound_foldl z n).step

/-! The four carry steps. -/

/-- After `i` carry steps: one limb each, and a carry that holds the rest of the sum of the columns passed; the five
columns of the digit steps left no limb (`42_multiplicative.md` R182). -/
structure LimbsFound (z ps : List Nat) (i : Nat) (st : Nat × List Nat) : Prop where
  length : st.2.length = i
  limbs : ∀ r ∈ st.2, r < 2 ^ 52
  value : ∑ k ∈ Finset.range (5 + i), column z ps k * limbWeight k = R * (limbVal st.2 + limbWeight i * st.1)

theorem carryStep_eq (z ps : List Nat) (carry : Nat) (rs : List Nat) (k : Nat) : carryStep z ps (carry, rs) k =
    ((carry + column z ps k) / 2 ^ 52, rs ++ [(carry + column z ps k) % 2 ^ 52]) := by
  rw [column, ← Nat.add_assoc]
  rfl

theorem LimbsFound.step {z ps : List Nat} {i : Nat} {st : Nat × List Nat} (h : LimbsFound z ps i st) :
    LimbsFound z ps (i + 1) (carryStep z ps st (5 + i)) := by
  obtain ⟨carry, rs⟩ := st
  obtain ⟨rfl, hlimbs, hvalue⟩ := h
  have hsplit := Nat.mod_add_div (carry + column z ps (5 + rs.length)) (2 ^ 52)
  rw [carryStep_eq]
  refine ⟨List.length_append, List.forall_mem_append.2 ⟨hlimbs, List.forall_mem_singleton.2 ?_⟩, ?_⟩
  · exact Nat.mod_lt _ (by decide)
  · rw [← Nat.add_assoc, Finset.sum_range_succ, hvalue, limbVal_append_singleton, limbWeight_succ, limbWeight_five_add,
      Nat.mul_comm (2 ^ 52), Nat.mul_assoc (limbWeight _), Nat.add_assoc (limbVal rs), ← Nat.mul_add, hsplit]
    ring

theorem limbsFound_foldl {z : List Nat} {st : Nat × List Nat} (h : DigitsFound z 5 st) : ∀ n : Nat,
    LimbsFound z st.2 n ((List.range n).foldl (fun r i => carryStep z st.2 r (5 + i)) (st.1, []))
  | 0 => by
    refine ⟨rfl, List.forall_mem_nil _, h.value.trans ?_⟩
    have hweight : limbWeight 5 = R := two_pow_five_limbs
    simp [hweight, limbVal]
  | n + 1 => by
    rw [List.range_succ, List.foldl_append]
    exact (limbsFound_foldl h n).step

theorem reduceDigits_eq_foldl (z : List Nat) {q r : Nat × List Nat}
    (hq : (List.range 5).foldl (digitStep z) (0, []) = q)
    (hr : (List.range 4).foldl (fun r i => carryStep z q.2 r (5 + i)) (q.1, []) = r) :
    reduceDigits z = r.2 ++ [r.1] := by
  subst hq hr
  rfl

/-- The reduction before the final subtraction: five digits of an N, and four limbs and a carry that represent the
exact quotient (T + N * L) / R (`42_multiplicative.md` R182). -/
theorem exists_reduceDigits {z : List Nat} (hz : z.length = 9) : ∃ N rs carry, N < R ∧
    reduceDigits z = rs ++ [carry] ∧ rs.length = 4 ∧ (∀ r ∈ rs, r < 2 ^ 52) ∧
    limbVal z + N * L = R * limbVal (rs ++ [carry]) := by
  have hdigits := digitsFound_foldl z 5
  generalize hq : (List.range 5).foldl (digitStep z) (0, []) = q at hdigits
  have hlimbs := limbsFound_foldl hdigits 4
  generalize hr : (List.range 4).foldl (fun r i => carryStep z q.2 r (5 + i)) (q.1, []) = r at hlimbs
  obtain ⟨hlen, hlt, hvalue⟩ := hlimbs
  have hN : limbVal q.2 < limbWeight 5 := hdigits.length ▸ limbVal_lt hdigits.limbs
  refine ⟨limbVal q.2, r.2, r.1, hN.trans_eq two_pow_five_limbs, reduceDigits_eq_foldl z hq hr, hlen, hlt, ?_⟩
  rw [← sum_column hz hdigits.length, limbVal_append_singleton, hlen]
  exact hvalue

/-! The final subtraction. -/

/-- Number limbs as words represent the same integer. -/
theorem wordsVal_map_ofNat {l : List Nat} (h : ∀ x ∈ l, x < 2 ^ 64) :
    wordsVal (l.map (BitVec.ofNat 64)) = limbVal l := by
  have hback : ∀ x ∈ l, (BitVec.toNat ∘ BitVec.ofNat 64) x = x := fun x hx => by
    rw [Function.comp_apply, BitVec.toNat_ofNat, Nat.mod_eq_of_lt (h x hx)]
  rw [wordsVal, List.map_map, List.map_congr_left hback, List.map_id']

theorem isLimbs_map_ofNat {l : List Nat} (h : ∀ x ∈ l, x < 2 ^ 52) : IsLimbs (l.map (BitVec.ofNat 64)) :=
  List.forall_mem_map.2 fun x hx => by
    rw [BitVec.toNat_ofNat]
    exact (Nat.mod_le _ _).trans_lt (h x hx)

theorem wordsVal_append_singleton (ws : List Word) (w : Word) :
    wordsVal (ws ++ [w]) = wordsVal ws + 2 ^ (52 * ws.length) * w.toNat := by
  rw [wordsVal, List.map_append, List.map_singleton, limbVal_append_singleton, List.length_map, wordsVal, limbWeight]

/-- The borrow chain runs through the lower limbs and hands its last raw word to the top limb. -/
theorem subChain_append_singleton (x y : Word) : ∀ {as bs : List Word} (borrow : Word), as.length = bs.length →
    subChain borrow (as ++ [x]) (bs ++ [y]) =
      ((subChain borrow as bs).1 ++ [(x - (y + (subChain borrow as bs).2 >>> 63)) &&& limbMask],
        x - (y + (subChain borrow as bs).2 >>> 63))
  | [], [], _, _ => rfl
  | a :: as, b :: bs, borrow, h => by
    simp only [List.cons_append, subChain, subChain_append_singleton x y _ (Nat.succ.inj h)]

/-- A minuend whose top word may exceed a limb: if the difference is a number of five limbs, the borrow chain computes
it and owes nothing. -/
theorem subChain_of_difference_fits {as bs : List Word} {x y : Word} (ha : IsLimbs as) (hb : IsLimbs bs)
    (hla : as.length = 4) (hlb : bs.length = 4) (hle : wordsVal (bs ++ [y]) ≤ wordsVal (as ++ [x]))
    (hlt : wordsVal (as ++ [x]) < wordsVal (bs ++ [y]) + R) :
    borrowOf (subChain 0 (as ++ [x]) (bs ++ [y])).2 = 0 ∧
      wordsVal (subChain 0 (as ++ [x]) (bs ++ [y])).1 = wordsVal (as ++ [x]) - wordsVal (bs ++ [y]) := by
  have hlen : as.length = bs.length := hla.trans hlb.symm
  have hld : (subChain 0 as bs).1.length = 4 := (length_subChain 0 hlen).trans hla
  have hdiff := wordsVal_subChain 0 ha hb hlen
  have hdlt := wordsVal_lt (isLimbs_subChain 0 as bs)
  have hin := borrowOf_le_one (subChain 0 as bs).2
  have hzero : borrowOf 0 = 0 := rfl
  have hR : R = 2 ^ 208 * 2 ^ 52 := by decide +kernel
  rw [subChain_append_singleton x y 0 hlen]
  simp only [wordsVal_append_singleton, toNat_and_limbMask, borrowOf_eq (x - _), hla, hlb, hld, hzero, hR]
    at hdiff hdlt hle hlt ⊢
  have htop : (x - (y + (subChain 0 as bs).2 >>> 63)).toNat + y.toNat + borrowOf (subChain 0 as bs).2 = x.toNat := by
    rw [BitVec.toNat_sub, BitVec.toNat_add, ← borrowOf]
    omega
  omega

/-- The final subtraction, where R182's quotient U may exceed a register but not by L (`42_multiplicative.md` R182). -/
theorem wordsVal_subWords_modulus {as : List Word} {x : Word} (ha : IsLimbs as) (hla : as.length = 4)
    (hlt : wordsVal (as ++ [x]) < L + R) : wordsVal (subWords (as ++ [x]) modulusWords) =
      if L ≤ wordsVal (as ++ [x]) then wordsVal (as ++ [x]) - L else wordsVal (as ++ [x]) := by
  have hlen : (as ++ [x]).length = 5 := by rw [List.length_append, hla, List.length_singleton]
  split
  case isTrue hle =>
    have hlow : IsLimbs (modulusWords.take 4) := fun w hw => isLimbs_modulusWords w (List.mem_of_mem_take hw)
    have hmodulus : wordsVal (modulusWords.take 4 ++ [17592186044416]) = L := wordsVal_modulusWords
    obtain ⟨hborrow, hvalue⟩ := subChain_of_difference_fits ha hlow hla rfl (hmodulus ▸ hle) (hmodulus ▸ hlt)
    rw [hmodulus] at hvalue
    have hld := (length_subChain 0 (hlen.trans length_modulusWords.symm)).trans hlen
    rw [subWords_of_no_borrow (bs := modulusWords) hborrow, wordsVal_addBack_zero (isLimbs_subChain 0 _ _) hld]
    exact (congrArg (· % R) hvalue).trans (Nat.mod_eq_of_lt (by omega))
  case isFalse hgt =>
    have hL : L < 2 ^ 208 * 2 ^ 52 := by decide +kernel
    have hxlimb : x.toNat < 2 ^ 52 := by
      rw [wordsVal_append_singleton, hla] at hgt
      omega
    have hlimbs : IsLimbs (as ++ [x]) := List.forall_mem_append.2 ⟨ha, List.forall_mem_singleton.2 hxlimb⟩
    rw [wordsVal_subWords hlimbs isLimbs_modulusWords hlen length_modulusWords, wordsVal_modulusWords, subF, if_neg hgt,
      Nat.add_right_comm, Nat.add_sub_cancel, Nat.add_mod_right, Nat.mod_eq_of_lt ((Nat.lt_of_not_le hgt).trans L_lt_R)]

/-- The reduction engine computes MRED of what its nine accumulators represent (`42_multiplicative.md` R182). -/
theorem wordsVal_reduceAcc {z : List Nat} (hz : z.length = 9) (hT : limbVal z < R * R) :
    wordsVal (reduceAcc z) = mred (limbVal z) := by
  obtain ⟨N, rs, carry, hN, hdigits, hlen, hrs, hsum⟩ := exists_reduceDigits hz
  have hquotient : (limbVal z + N * L) / R = limbVal (rs ++ [carry]) := by
    rw [hsum, Nat.mul_div_cancel_left _ R_pos]
  have hU : limbVal (rs ++ [carry]) < L + R := by
    refine Nat.lt_of_mul_lt_mul_left (a := R) ?_
    have hNL : N * L < R * L := Nat.mul_lt_mul_of_pos_right hN L_pos
    rw [← hsum, Nat.mul_add]
    omega
  have hcarry : carry < 2 ^ 64 := by
    have hweight : limbWeight 4 = 2 ^ 208 := rfl
    have hrange : L + R < 2 ^ 208 * 2 ^ 64 := by decide +kernel
    rw [limbVal_append_singleton, hlen, hweight] at hU
    omega
  have hwords : wordsVal (rs.map (BitVec.ofNat 64) ++ [BitVec.ofNat 64 carry]) = limbVal (rs ++ [carry]) := by
    have hfit : ∀ r ∈ rs ++ [carry], r < 2 ^ 64 :=
      List.forall_mem_append.2 ⟨fun r hr => (hrs r hr).trans (by decide), List.forall_mem_singleton.2 hcarry⟩
    rw [← wordsVal_map_ofNat hfit, List.map_append, List.map_singleton]
  rw [reduceAcc, hdigits, List.map_append, List.map_singleton,
    wordsVal_subWords_modulus (isLimbs_map_ofNat hrs) ((List.length_map _).trans hlen) (hwords ▸ hU), hwords,
    mred_eq_of_dvd hN (hsum ▸ Nat.dvd_mul_right R _), hquotient]

/-! The family's statements about the datapaths (`42_multiplicative.md`). -/

/-- Settles O54. -/
theorem productAccumulatorsRepresentTheProduct : Obligations.ProductAccumulatorsRepresentTheProduct :=
  fun a b => ⟨limbVal_productAcc_limbNats a b, productAcc_lt (length_limbNats a) (limbNats_lt a) (limbNats_lt b),
    squareAcc_eq_productAcc _⟩

/-- Settles O55: the engine computes `mred` of the product, and `exists_mred_eq` is R182's definition of it. -/
theorem digitSerialReductionComputesMred : Obligations.DigitSerialReductionComputesMred := by
  intro a b
  have hrange : limbVal (productAcc (limbNats a) (limbNats b)) < R * R := by
    rw [limbVal_productAcc_limbNats]
    exact mul_lt_RR (toNat_lt_R a) (toNat_lt_R b)
  rw [mmulWords, wordsVal_reduceAcc rfl hrange, limbVal_productAcc_limbNats]
  exact exists_mred_eq _

end Sys2Proof.Machine
end

section
/-! The inversion commands and the binary-GCD unit (`43_inversion.md` R220 to R224), in the order of their parts: what
one turn of Phase I can do, the invariant its turns keep and the product they halve, the loop, the correction after it,
Phase II, the commands as their shared ending, and from these the family's statements. -/

namespace Sys2Proof.Machine

/-! One turn of Phase I. -/

/-- The four turns of Phase I (`43_inversion.md` R222), with the halved value as the variable: a turn on two odd values
halves their even difference. -/
inductive GcdStep : GcdVars → GcdVars → Prop where
  | halveU (u v r s k : Nat) : GcdStep ⟨2 * u, v, r, s, k⟩ ⟨u, v, r, 2 * s, k + 1⟩
  | halveV (u v r s k : Nat) : GcdStep ⟨u, 2 * v, r, s, k⟩ ⟨u, v, 2 * r, s, k + 1⟩
  | reduceU (d v r s k : Nat) (hd : 0 < d) : GcdStep ⟨v + 2 * d, v, r, s, k⟩ ⟨d, v, r + s, 2 * s, k + 1⟩
  | reduceV (u d r s k : Nat) : GcdStep ⟨u, u + 2 * d, r, s, k⟩ ⟨u, d, 2 * r, s + r, k + 1⟩

/-- Every turn of the unit is one of the four. -/
theorem gcdTurn_step (g : GcdVars) : GcdStep g (gcdTurn g) := by
  obtain ⟨u, v, r, s, k⟩ := g
  simp only [gcdTurn]
  split
  case isTrue hu =>
    obtain ⟨u, rfl⟩ := Nat.dvd_of_mod_eq_zero hu
    rw [Nat.mul_div_cancel_left u two_pos]
    exact .halveU u v r s k
  case isFalse hu =>
  split
  case isTrue hv =>
    obtain ⟨v, rfl⟩ := Nat.dvd_of_mod_eq_zero hv
    rw [Nat.mul_div_cancel_left v two_pos]
    exact .halveV u v r s k
  case isFalse hv =>
  split
  case isTrue hlt =>
    obtain ⟨d, rfl⟩ : ∃ d, u = v + 2 * d := ⟨(u - v) / 2, by omega⟩
    rw [Nat.add_sub_cancel_left, Nat.mul_div_cancel_left d two_pos]
    exact .reduceU d v r s k (by omega)
  case isFalse hge =>
    obtain ⟨d, rfl⟩ : ∃ d, v = u + 2 * d := ⟨(v - u) / 2, by omega⟩
    rw [Nat.add_sub_cancel_left, Nat.mul_div_cancel_left d two_pos]
    exact .reduceV u d r s k

theorem GcdStep.k_eq {g g' : GcdVars} (h : GcdStep g g') : g'.k = g.k + 1 := by
  cases h <;> rfl

/-- Each turn at least halves the product u * v (`43_inversion.md` R224). -/
theorem GcdStep.two_mul_product_le {g g' : GcdVars} (h : GcdStep g g') : 2 * (g'.u * g'.v) ≤ g.u * g.v := by
  cases h with
  | halveU u v => exact (Nat.mul_assoc 2 u v).ge
  | halveV u v => exact (Nat.mul_left_comm 2 u v).le
  | reduceU d v =>
    rw [← Nat.mul_assoc]
    exact Nat.mul_le_mul_right v (Nat.le_add_left _ _)
  | reduceV u d =>
    rw [Nat.mul_left_comm]
    exact Nat.mul_le_mul_left u (Nat.le_add_left _ _)

/-- A turn at most doubles the sum of the cofactors; with `GcdInvariant.add_le` this keeps r in the range that one
correction by L can mend (`43_inversion.md` R222). -/
theorem GcdStep.r_le {g g' : GcdVars} (h : GcdStep g g') : g'.r ≤ 2 * (g.r + g.s) := by
  cases h <;> dsimp only <;> omega

/-- What Phase I keeps for the operand `a`: the cofactors r and s write L by u and v, and modulo L they carry u and v
themselves, scaled by 2^k, as multiples of a (`43_inversion.md` R222). -/
structure GcdInvariant (a : Nat) (g : GcdVars) : Prop where
  u_pos : 0 < g.u
  combination : g.u * g.s + g.v * g.r = L
  r_le : g.r ≤ 2 * L
  mul_r : (a : ZMod L) * g.r = -(g.u * 2 ^ g.k)
  mul_s : (a : ZMod L) * g.s = g.v * 2 ^ g.k

theorem gcdInvariant_start (a : Nat) : GcdInvariant a { u := L, v := a, r := 0, s := 1, k := 0 } where
  u_pos := L_pos
  combination := by simp
  r_le := Nat.zero_le _
  mul_r := by simp
  mul_s := by simp

/-- While u and v are positive, the two cofactors together are at most L. -/
theorem GcdInvariant.add_le {a : Nat} {g : GcdVars} (h : GcdInvariant a g) (hv : 0 < g.v) : g.r + g.s ≤ L :=
  calc g.r + g.s ≤ g.v * g.r + g.u * g.s :=
        Nat.add_le_add (Nat.le_mul_of_pos_left _ hv) (Nat.le_mul_of_pos_left _ h.u_pos)
    _ = L := by rw [Nat.add_comm, h.combination]

theorem GcdInvariant.step {a : Nat} {g g' : GcdVars} (h : GcdInvariant a g) (hv : 0 < g.v) (hs : GcdStep g g') :
    GcdInvariant a g' := by
  have hrle : g'.r ≤ 2 * L := hs.r_le.trans (Nat.mul_le_mul_left 2 (h.add_le hv))
  obtain ⟨hu, hcomb, -, hr, hs'⟩ := h
  cases hs <;> push_cast at hr hs'
  case halveU u v r s k => exact {
    u_pos := Nat.pos_of_mul_pos_left hu
    combination := by linarith
    r_le := hrle
    mul_r := by linear_combination hr
    mul_s := by push_cast; linear_combination 2 * hs' }
  case halveV u v r s k => exact {
    u_pos := hu
    combination := by linarith
    r_le := hrle
    mul_r := by push_cast; linear_combination 2 * hr
    mul_s := by linear_combination hs' }
  case reduceU d v r s k hd => exact {
    u_pos := hd
    combination := by linarith
    r_le := hrle
    mul_r := by push_cast; linear_combination hr + hs'
    mul_s := by push_cast; linear_combination 2 * hs' }
  case reduceV u d r s k => exact {
    u_pos := hu
    combination := by linarith
    r_le := hrle
    mul_r := by push_cast; linear_combination 2 * hr
    mul_s := by push_cast; linear_combination hr + hs' }

/-! The loop of Phase I. -/

/-- A product below 2^fuel is used up within `fuel` turns, one count of k each (`43_inversion.md` R224). -/
theorem gcdLoop_spec {a : Nat} : ∀ (fuel : Nat) {g : GcdVars}, GcdInvariant a g → g.u * g.v < 2 ^ fuel →
    GcdInvariant a (gcdLoop fuel g) ∧ (gcdLoop fuel g).v = 0 ∧ (gcdLoop fuel g).k ≤ g.k + fuel
  | 0, g, h, hlt => by
    have hzero : g.u * g.v = 0 := Nat.lt_one_iff.1 hlt
    exact ⟨h, (Nat.mul_eq_zero.1 hzero).resolve_left h.u_pos.ne', le_rfl⟩
  | fuel + 1, g, h, hlt => by
    rw [gcdLoop]
    split
    case isTrue hzero => exact ⟨h, hzero, Nat.le_add_right _ _⟩
    case isFalse hne =>
      have hturn := gcdTurn_step g
      have hhalf : (gcdTurn g).u * (gcdTurn g).v < 2 ^ fuel := by
        have hle := hturn.two_mul_product_le
        rw [pow_succ] at hlt
        omega
      obtain ⟨hinv, hzero, hk⟩ := gcdLoop_spec fuel (h.step (Nat.pos_of_ne_zero hne) hturn) hhalf
      exact ⟨hinv, hzero, by rw [hturn.k_eq] at hk; omega⟩

theorem phaseOne_spec {a : Nat} (ha : a < L) :
    GcdInvariant a (phaseOne a) ∧ (phaseOne a).v = 0 ∧ (phaseOne a).k ≤ 506 := by
  have hproduct : L * a < 2 ^ 506 :=
    calc L * a < L * L := Nat.mul_lt_mul_of_pos_left ha L_pos
      _ < 2 ^ 506 := by decide +kernel
  obtain ⟨hinv, hzero, hk⟩ := gcdLoop_spec 506 (gcdInvariant_start a) hproduct
  exact ⟨hinv, hzero, hk.trans_eq (Nat.zero_add 506)⟩

/-- At the end u is the greatest common divisor 1: a * s is 0 modulo L, so L divides s, and u * s is L. -/
theorem GcdInvariant.u_eq_one {a : Nat} {g : GcdVars} (h : GcdInvariant a g) (hpos : 0 < a) (ha : a < L)
    (hv : g.v = 0) : g.u = 1 := by
  have hcast : ((a * g.s : Nat) : ZMod L) = 0 := by rw [Nat.cast_mul, h.mul_s, hv, Nat.cast_zero, zero_mul]
  obtain ⟨c, hc⟩ : L ∣ g.s :=
    (coprime_of_canonical hpos ha).symm.dvd_of_dvd_mul_left ((ZMod.natCast_eq_zero_iff _ _).1 hcast)
  have hproduct : L * (g.u * c) = L * 1 := by
    rw [Nat.mul_left_comm, ← hc, Nat.mul_one, ← h.combination, hv, Nat.zero_mul, Nat.add_zero]
  exact Nat.eq_one_of_mul_eq_one_right (Nat.eq_of_mul_eq_mul_left L_pos hproduct)

/-! The correction after the loop. -/

theorem phaseOneOut_le (g : GcdVars) : phaseOneOut g ≤ L := Nat.sub_le _ _

/-- Modulo L, the correction negates r. -/
theorem cast_phaseOneOut {g : GcdVars} (h : g.r ≤ 2 * L) : (phaseOneOut g : ZMod L) = -g.r := by
  unfold phaseOneOut
  split
  case isTrue hge => rw [Nat.cast_sub (by omega), Nat.cast_sub hge, ZMod.natCast_self, sub_zero, zero_sub]
  case isFalse hlt => rw [Nat.cast_sub (by omega), ZMod.natCast_self, zero_sub]

/-- What Phase I hands on: a * r_out is 2^k modulo L (`43_inversion.md` R222). -/
theorem mul_phaseOneOut {a : Nat} (hpos : 0 < a) (ha : a < L) :
    (a : ZMod L) * phaseOneOut (phaseOne a) = 2 ^ (phaseOne a).k := by
  obtain ⟨hinv, hzero, -⟩ := phaseOne_spec ha
  rw [cast_phaseOneOut hinv.r_le, mul_neg, hinv.mul_r, hinv.u_eq_one hpos ha hzero, neg_neg, Nat.cast_one, one_mul]

/-! Phase II. -/

theorem cast_R : (R : ZMod L) = 2 ^ 260 := by rw [R_eq, Nat.cast_pow, Nat.cast_ofNat]

theorem isUnit_two : IsUnit (2 : ZMod L) := by
  have hunit : IsUnit ((R : Nat) : ZMod L) := (ZMod.isUnit_iff_coprime R L).2 coprime_R_L
  rw [cast_R] at hunit
  exact (isUnit_pow_iff (by decide)).1 hunit

/-- MRED divides by R modulo L (`42_multiplicative.md` R182). -/
theorem cast_mred_mul (T : Nat) : (mred T : ZMod L) * 2 ^ 260 = T := by
  rw [← cast_R, ← Nat.cast_mul]
  exact (ZMod.natCast_eq_natCast_iff _ _ _).2 (mred_mul_R T)

/-- The last Montgomery product of Phase II takes 2^k off a residue, for k up to 260 (`43_inversion.md` R223). -/
theorem cast_mred_mul_two_pow {k : Nat} (hk : k ≤ 260) (x : Nat) :
    (mred (x * 2 ^ (260 - k)) : ZMod L) * 2 ^ k = x := by
  have hsplit : (2 : ZMod L) ^ 260 = 2 ^ k * 2 ^ (260 - k) := by rw [← pow_add, Nat.add_sub_of_le hk]
  have h := cast_mred_mul (x * 2 ^ (260 - k))
  rw [hsplit, ← mul_assoc, Nat.cast_mul, Nat.cast_pow, Nat.cast_ofNat] at h
  exact (isUnit_two.pow _).mul_right_cancel h

theorem mred_mul_two_pow_lt {x k : Nat} (hx : x < L) : mred (x * 2 ^ (260 - k)) < L := by
  have hle : 2 ^ (260 - k) ≤ R := R_eq ▸ pow_le_pow_right₀ one_le_two (Nat.sub_le 260 k)
  exact mred_lt_L (Nat.mul_lt_mul_of_lt_of_le hx hle R_pos)

/-- Phase II takes the factor 2^k off r_out (`43_inversion.md` R223). -/
theorem cast_phaseTwo_mul {k : Nat} (hk : k ≤ 520) (x : Nat) : (phaseTwo x k : ZMod L) * 2 ^ k = x := by
  unfold phaseTwo
  split
  case isTrue hgt =>
    have hfold : (2 : ZMod L) ^ k = 2 ^ (k - 260) * 2 ^ 260 := by rw [← pow_add, Nat.sub_add_cancel hgt.le]
    rw [hfold, ← mul_assoc, cast_mred_mul_two_pow (by omega), cast_mred_mul, Nat.mul_one]
  case isFalse hle => exact cast_mred_mul_two_pow (by omega) x

/-- Phase II's result is canonical (`43_inversion.md` R223). -/
theorem phaseTwo_lt {x : Nat} (hx : x < L) (k : Nat) : phaseTwo x k < L := by
  unfold phaseTwo
  split
  · refine mred_mul_two_pow_lt (mred_lt_of_lt_R ?_)
    rw [Nat.mul_one]
    exact hx.trans L_lt_R
  · exact mred_mul_two_pow_lt hx

/-- The statements' spelling of an inverse in ZMod L. -/
theorem mul_mod_eq_one_of_cast {a b : Nat} (h : (a : ZMod L) * b = 1) : a * b % L = 1 := by
  have hmod : a * b ≡ 1 [MOD L] := (ZMod.natCast_eq_natCast_iff _ _ _).1 (by push_cast; exact h)
  rwa [Nat.ModEq, Nat.mod_eq_of_lt one_lt_L] at hmod

/-- r_out is not L, because a * r_out is a power of 2, so it is canonical. -/
theorem phaseOneOut_phaseOne_lt {a : Nat} (hpos : 0 < a) (ha : a < L) : phaseOneOut (phaseOne a) < L := by
  have := Fact.mk L_prime
  refine (phaseOneOut_le _).lt_of_ne fun hL => ?_
  have h := mul_phaseOneOut hpos ha
  rw [hL, ZMod.natCast_self, mul_zero] at h
  exact (isUnit_two.pow _).ne_zero h.symm

theorem gcdInverse_lt {a : Nat} (hpos : 0 < a) (ha : a < L) : gcdInverse a < L :=
  phaseTwo_lt (phaseOneOut_phaseOne_lt hpos ha) _

/-- The unit's result inverts its operand: Phase II takes off the 2^k that Phase I left. -/
theorem mul_gcdInverse {a : Nat} (hpos : 0 < a) (ha : a < L) : a * gcdInverse a % L = 1 := by
  obtain ⟨-, -, hk⟩ := phaseOne_spec ha
  refine mul_mod_eq_one_of_cast ((isUnit_two.pow (phaseOne a).k).mul_right_cancel ?_)
  rw [mul_assoc, gcdInverse, cast_phaseTwo_mul (by omega), mul_phaseOneOut hpos ha, one_mul]

/-- The unit computes inv_L, the only inverse below L (`43_inversion.md` R220, R223). -/
theorem gcdInverse_eq_invL {a : Nat} (hpos : 0 < a) (ha : a < L) : gcdInverse a = invL a :=
  eq_invL hpos ha (gcdInverse_lt hpos ha) (mul_gcdInverse hpos ha)

/-! The commands as their shared ending. -/

/-- The ending INV and DIV share: the checks of the inverted operand `a` in R302's order, then the write-back of `v`
(`43_inversion.md` R220, R221). -/
def writeBackIfInvertible (a : Nat) (rd : Reg) (v : Nat) (s : State) : Host.Outcome State Fault Refusal :=
  if !canonical a then raise .nonCanon s
  else if a = 0 then raise .zeroDivisor s
  else writeBack rd v s

theorem exec_inv (rd rs1 : Reg) (s : State) :
    exec (.inv rd rs1) s = writeBackIfInvertible (s.x rs1) rd (invL (s.x rs1)) s := rfl

theorem exec_div (rd rs1 rs2 : Reg) (s : State) :
    exec (.div rd rs1 rs2) s = writeBackIfInvertible (s.x rs2) rd (mulF (s.x rs1) (invL (s.x rs2))) s := rfl

theorem not_canonical_iff {a : Nat} : (!canonical a) = true ↔ L ≤ a := by
  rw [Bool.not_eq_true', ← Bool.not_eq_true, canonical_iff, Nat.not_lt]

theorem writeBackIfInvertible_of_canonical {a : Nat} (hpos : 0 < a) (ha : a < L) (rd : Reg) (v : Nat) (s : State) :
    writeBackIfInvertible a rd v s = writeBack rd v s := by
  rw [writeBackIfInvertible, if_neg (mt not_canonical_iff.1 (Nat.not_le_of_lt ha)), if_neg hpos.ne']

theorem writeBackIfInvertible_of_ge {a : Nat} (ha : L ≤ a) (rd : Reg) (v : Nat) (s : State) :
    writeBackIfInvertible a rd v s = raise .nonCanon s :=
  if_pos (not_canonical_iff.2 ha)

theorem writeBackIfInvertible_zero (rd : Reg) (v : Nat) (s : State) :
    writeBackIfInvertible 0 rd v s = raise .zeroDivisor s := by
  rw [writeBackIfInvertible, if_neg (mt not_canonical_iff.1 (Nat.not_le_of_lt L_pos)), if_pos rfl]

/-! The family's statements (`43_inversion.md`). -/

/-- Settles O44: the written value is `invL`, and `eq_invL` makes it the only inverse. -/
theorem invWritesTheInverseOrFaults : Obligations.InvWritesTheInverseOrFaults := by
  intro s rd rs1
  rw [exec_inv]
  refine ⟨encodedAs_of_wellFormed (i := .inv rd rs1) rfl, fun hpos hlt => ?inverse, fun hge => ?nonCanonical,
    fun hzero => ?zero⟩
  case inverse =>
    obtain ⟨t, ht, hwrites⟩ := writeBack_spec s rd ((invL_lt (s.x rs1)).trans L_lt_R)
    rw [writeBackIfInvertible_of_canonical hpos hlt]
    exact ⟨t, _, ht, hwrites, invL_pos hpos hlt, invL_lt _, mul_invL hpos hlt,
      fun b' _ hb' hinv => eq_invL hpos hlt hb' hinv⟩
  case nonCanonical =>
    rw [writeBackIfInvertible_of_ge hge]
    exact raise_spec s .nonCanon
  case zero =>
    rw [hzero, writeBackIfInvertible_zero]
    exact raise_spec s .zeroDivisor

/-- Settles O45: the quotient is the product with `invL` of the divisor, reduced for any dividend. -/
theorem divWritesTheQuotientOrFaults : Obligations.DivWritesTheQuotientOrFaults := by
  intro s rd rs1 rs2
  rw [exec_div]
  refine ⟨encodedAs_of_wellFormed (i := .div rd rs1 rs2) rfl, fun hpos hlt => ?quotient, fun hge => ?nonCanonical,
    fun hzero => ?zero⟩
  case quotient =>
    have hquotient : mulF (s.x rs1) (invL (s.x rs2)) = s.x rs1 * invL (s.x rs2) % L :=
      mulF_eq (s.x_lt rs1) ((invL_lt _).trans L_lt_R)
    obtain ⟨t, ht, hwrites⟩ := writeBack_spec s rd ((Nat.mod_lt (s.x rs1 * invL (s.x rs2)) L_pos).trans L_lt_R)
    rw [writeBackIfInvertible_of_canonical hpos hlt, hquotient]
    exact ⟨t, _, ht, invL_pos hpos hlt, invL_lt _, mul_invL hpos hlt, hwrites⟩
  case nonCanonical =>
    rw [writeBackIfInvertible_of_ge hge]
    exact raise_spec s .nonCanon
  case zero =>
    rw [hzero, writeBackIfInvertible_zero]
    exact raise_spec s .zeroDivisor

/-- Settles O57: Phase I by its invariant and the halved product, Phase II by what MRED does modulo L. -/
theorem binaryGcdUnitComputesTheInverse : Obligations.BinaryGcdUnitComputesTheInverse := by
  intro a hpos ha
  obtain ⟨-, hzero, hk⟩ := phaseOne_spec ha
  have hout : a * phaseOneOut (phaseOne a) ≡ 2 ^ (phaseOne a).k [MOD L] := by
    refine (ZMod.natCast_eq_natCast_iff _ _ _).1 ?_
    push_cast
    exact mul_phaseOneOut hpos ha
  have heq : gcdInverse a = invL a := gcdInverse_eq_invL hpos ha
  exact ⟨hzero, hk, hout, heq ▸ invL_pos hpos ha, gcdInverse_lt hpos ha, mul_gcdInverse hpos ha, heq⟩

end Sys2Proof.Machine
end

section
/-! The residue and root commands (`44_residue_roots.md` R250 to R255), in the order of their parts: the commands as
their shared endings, what LEG tests, the values SQRT and SQRTR write in the words of the rules, and from these the
family's statements. R255's laws follow from the statements about the single commands. -/

namespace Sys2Proof.Machine

/-! The commands as their shared endings. -/

theorem exec_leg (rs1 : Reg) (s : State) : exec (.leg rs1) s = writeChoice (legFlag (s.x rs1)) s := rfl

/-- SQRT's legal immediates are its two sign flags (`30_encoding.md` R81, `44_residue_roots.md` R251). -/
theorem sqrtSign_of_le {imm : Imm} (h : imm.toNat ≤ 1) : sqrtSign imm = some (decide (imm.toNat = 1)) := by
  unfold sqrtSign
  generalize imm.toNat = n at h
  match n, h with
  | 0, _ | 1, _ => rfl

/-- SQRTR checks both operands together (`44_residue_roots.md` R252). -/
theorem both_canonical_iff {u v : Nat} : (canonical u && canonical v) = true ↔ u < L ∧ v < L := by
  rw [Bool.and_eq_true, canonical_iff, canonical_iff]

section OperandChecks

variable {s : State} {rs1 rs2 : Reg} {imm : Imm}

theorem exec_sqrt_of_lt (hsign : imm.toNat ≤ 1) (h : s.x rs1 < L) (rd : Reg) :
    exec (.sqrt rd rs1 imm) s =
      writeBack rd ((sqrtResult (s.x rs1) (decide (imm.toNat = 1))).getD 0)
        (s.setVf (sqrtResult (s.x rs1) (decide (imm.toNat = 1))).isSome) := by
  simp only [exec, execSqrt, sqrtSign_of_le hsign]
  exact if_neg (mt not_canonical_iff.1 (Nat.not_le_of_lt h))

theorem exec_sqrt_of_ge (hsign : imm.toNat ≤ 1) (h : L ≤ s.x rs1) (rd : Reg) :
    exec (.sqrt rd rs1 imm) s = raise .nonCanon s := by
  simp only [exec, execSqrt, sqrtSign_of_le hsign]
  exact if_pos (not_canonical_iff.2 h)

theorem exec_sqrtr_of_lt (hu : s.x rs1 < L) (hv : s.x rs2 < L) (rd : Reg) :
    exec (.sqrtr rd rs1 rs2) s =
      writeBack rd (sqrtRatio (s.x rs1) (s.x rs2)).2 (s.setCf (sqrtRatio (s.x rs1) (s.x rs2)).1) :=
  if_pos (both_canonical_iff.2 ⟨hu, hv⟩)

theorem exec_sqrtr_of_ge (h : L ≤ s.x rs1 ∨ L ≤ s.x rs2) (rd : Reg) :
    exec (.sqrtr rd rs1 rs2) s = raise .nonCanon s := by
  refine if_neg fun hc => ?_
  obtain ⟨hu, hv⟩ := both_canonical_iff.1 hc
  exact h.elim hu.not_ge hv.not_ge

end OperandChecks

theorem exec_twopow_of_lt {imm : Imm} (h : imm.toNat < 253) (rd : Reg) (s : State) :
    exec (.twopow rd imm) s = writeBack rd (2 ^ imm.toNat) s := if_neg h.not_ge

/-! The residue test. -/

/-- LEG's flag in R250's words, for every register value (`44_residue_roots.md` R250). -/
theorem legFlag_eq (a : Nat) : legFlag a = decide (a ^ ((L - 1) / 2) % L = 1) := by
  rw [legFlag, powF_eq halfBound_lt_R, halfBound_eq]

/-- POW reduces its base, so LEG tests the residue of its operand (`44_residue_roots.md` R250, D18). -/
theorem legFlag_eq_isQR (a : Nat) : legFlag a = isQR (a % L) := by
  rw [legFlag, isQR, powF_eq halfBound_lt_R, powF_eq halfBound_lt_R, ← Nat.pow_mod]

/-- QR decides R7's meaning of residue on the non-zero canonical values (`00_scope.md` R7). -/
theorem isQR_iff_isFieldSquare {x : Nat} (hpos : 0 < x) (hx : x < L) : isQR x = true ↔ IsFieldSquare x :=
  isQR_iff_square hpos hx

theorem isQR_eq_false_iff {x : Nat} (hpos : 0 < x) (hx : x < L) : isQR x = false ↔ ¬ IsFieldSquare x := by
  rw [← Bool.not_eq_true, isQR_iff_isFieldSquare hpos hx]

/-! The values SQRT writes. -/

theorem sqrtResult_zero (sign : Bool) : sqrtResult 0 sign = some 0 := if_pos rfl

theorem sqrtResult_of_not_square {a : Nat} (hpos : 0 < a) (ha : a < L) (h : ¬ IsFieldSquare a) (sign : Bool) :
    sqrtResult a sign = none := by
  rw [sqrtResult, if_neg hpos.ne', (isQR_eq_false_iff hpos ha).2 h, if_neg Bool.false_ne_true]

theorem sqrtResult_of_square {a : Nat} (hpos : 0 < a) (ha : a < L) (h : IsFieldSquare a) (sign : Bool) :
    sqrtResult a sign = some (if sign then rootF a else L - rootF a) := by
  rw [sqrtResult, if_neg hpos.ne', if_pos ((isQR_iff_isFieldSquare hpos ha).2 h)]

/-! The values SQRTR writes. -/

theorem sqrtRatio_zero_left (v : Nat) : sqrtRatio 0 v = (true, 0) := if_pos rfl

theorem sqrtRatio_zero_right {u : Nat} (hu : u ≠ 0) : sqrtRatio u 0 = (false, 0) := by
  rw [sqrtRatio_eq, if_neg hu, if_pos rfl]

/-- The model's quotient in the rule's words (`44_residue_roots.md` R252). -/
theorem mulF_invL_mul_mod {u v : Nat} (hu : u < L) (hpos : 0 < v) (hv : v < L) : mulF u (invL v) * v % L = u := by
  rw [← cast_eq_iff (Nat.mod_lt _ L_pos) hu, ZMod.natCast_mod, Nat.cast_mul, ratio_mul hu hpos hv]

theorem mulF_invL_lt {u : Nat} (hu : u < L) (v : Nat) : mulF u (invL v) < L :=
  mulF_lt (hu.trans L_lt_R) ((invL_lt v).trans L_lt_R)

/-- There is only one canonical quotient: v is invertible. -/
theorem eq_mulF_invL {u v w : Nat} (hu : u < L) (hpos : 0 < v) (hv : v < L) (hw : w < L) (h : w * v % L = u) :
    w = mulF u (invL v) := by
  have hmul : w * v ≡ mulF u (invL v) * v [MOD L] := h.trans (mulF_invL_mul_mod hu hpos hv).symm
  exact (Nat.ModEq.cancel_right_of_coprime (coprime_of_canonical hpos hv).symm hmul).eq_of_lt_of_lt hw
    (mulF_invL_lt hu v)

theorem exists_quotient {u v : Nat} (hu : u < L) (hpos : 0 < v) (hv : v < L) :
    ∃ w, w < L ∧ w * v % L = u ∧ ∀ w', w' < L → w' * v % L = u → w' = w :=
  ⟨_, mulF_invL_lt hu v, mulF_invL_mul_mod hu hpos hv, fun _ hw' h => eq_mulF_invL hu hpos hv hw' h⟩

/-- R252's last two branches, by the quotient w: its non-negative root, or that of SQRT_M1 * w, which has one because
SQRT_M1 is no square either. -/
theorem sqrtRatio_spec {u v w : Nat} (hu : u < L) (hv : v < L) (hu0 : u ≠ 0) (hv0 : v ≠ 0) (hw : w < L)
    (h : w * v % L = u) :
    ∃ r, r ≤ K.halfBound ∧ ((IsFieldSquare w ∧ r * r % L = w ∧ sqrtRatio u v = (true, r)) ∨
      (¬ IsFieldSquare w ∧ r * r % L = K.sqrtM1 * w % L ∧ sqrtRatio u v = (false, r))) := by
  have hpos : 0 < w := Nat.pos_of_ne_zero fun h0 => hu0 (by rw [← h, h0, Nat.zero_mul, Nat.zero_mod])
  rw [sqrtRatio_eq, if_neg hu0, if_neg hv0, ← eq_mulF_invL hu (Nat.pos_of_ne_zero hv0) hv hw h]
  cases hq : isQR w with
  | true => exact ⟨rootF w, rootF_le hq, .inl ⟨(isQR_iff_isFieldSquare hpos hw).1 hq, rootF_sq hq hw, rfl⟩⟩
  | false =>
    have hwR : w < R := hw.trans L_lt_R
    have hM1 : K.sqrtM1 < R := sqrtM1_lt.trans L_lt_R
    have hq' : isQR (mulF K.sqrtM1 w) = true := sqrtM1_mul_isQR hpos hw hq
    have hsq := rootF_sq hq' (mulF_lt hM1 hwR)
    exact ⟨rootF (mulF K.sqrtM1 w), rootF_le hq',
      .inr ⟨(isQR_eq_false_iff hpos hw).1 hq, hsq.trans (mulF_eq hM1 hwR), rfl⟩⟩

/-! The family's statements about single commands (`44_residue_roots.md` R250 to R253). -/

/-- Settles O46: the flag is R250's formula, and by Euler's criterion it is R7's meaning of residue. -/
theorem legSetsTheChoiceFlagToResidue : Obligations.LegSetsTheChoiceFlagToResidue := by
  intro s rs1
  obtain ⟨t, ht, hwrites⟩ := writeChoice_spec s (legFlag (s.x rs1))
  have hcf : t.cf = isQR (s.x rs1 % L) := hwrites.result.trans (legFlag_eq_isQR _)
  rw [exec_leg, ← legFlag_eq]
  refine ⟨encodedAs_of_wellFormed (i := .leg rs1) rfl, t, ht, hwrites, fun hne => ?_, fun hzero => ?_⟩
  · rw [hcf, isQR_iff_isFieldSquare (Nat.pos_of_ne_zero hne) (Nat.mod_lt _ L_pos)]
  · rw [hcf, hzero, zero_not_isQR]

/-- Settles O47: `sqrtResult` in each case of the operand, and the checks before it. -/
theorem sqrtWritesTheRequestedRootOrNoValue : Obligations.SqrtWritesTheRequestedRootOrNoValue := by
  intro s rd rs1 imm
  refine ⟨fun hsign => ⟨encodedAs_of_wellFormed (i := .sqrt rd rs1 imm) (decide_eq_true hsign), fun hzero => ?zero,
    fun hpos hlt hnone => ?noRoot, fun hpos hlt hsquare => ?root, fun hge => ?nonCanonical⟩, fun hgt => ?illegal⟩
  case zero =>
    rw [exec_sqrt_of_lt hsign (hzero ▸ L_pos), hzero, sqrtResult_zero]
    exact writeBack_setVf_spec s rd _ R_pos
  case noRoot =>
    rw [exec_sqrt_of_lt hsign hlt, sqrtResult_of_not_square hpos hlt hnone]
    exact writeBack_setVf_spec s rd _ R_pos
  case root =>
    have hq := (isQR_iff_isFieldSquare hpos hlt).2 hsquare
    have hresult := sqrtResult_of_square hpos hlt hsquare (decide (imm.toNat = 1))
    have hfits := (sqrtResult_lt hlt (decide (imm.toNat = 1))).trans L_lt_R
    obtain ⟨t, ht, hwrites⟩ := writeBack_setVf_spec s rd true hfits
    rw [exec_sqrt_of_lt hsign hlt]
    simp only [hresult, Option.getD_some, Option.isSome_some, decide_eq_true_eq] at ht hwrites ⊢
    exact ⟨t, rootF (s.x rs1), ht, rootF_le hq, rootF_sq hq hlt, hwrites⟩
  case nonCanonical =>
    rw [exec_sqrt_of_ge hsign hge]
    exact raise_spec s .nonCanon
  case illegal => exact decode_illegal_of_immLegal (o := .sqrt) (decide_eq_false (Nat.not_le_of_lt hgt)) rd rs1 0

/-- Settles O48: `sqrtRatio` in each case of the operands, and the check before it. -/
theorem sqrtrWritesTheRatioRoot : Obligations.SqrtrWritesTheRatioRoot := by
  intro s rd rs1 rs2
  refine ⟨encodedAs_of_wellFormed (i := .sqrtr rd rs1 rs2) rfl, fun hu hv hu0 => ?zero, fun hu hv hu0 hv0 => ?noRatio,
    fun w hu hv hu0 hv0 hw hratio => ?ratio, fun hge => ?nonCanonical⟩
  case zero =>
    rw [exec_sqrtr_of_lt hu hv, hu0, sqrtRatio_zero_left]
    exact writeBack_setCf_spec s rd true R_pos
  case noRatio =>
    rw [exec_sqrtr_of_lt hu hv, hv0, sqrtRatio_zero_right hu0]
    exact writeBack_setCf_spec s rd false R_pos
  case ratio =>
    obtain ⟨r, hr, hcases⟩ := sqrtRatio_spec hu hv hu0 hv0 hw hratio
    have hfits : r < R := (hr.trans_lt halfBound_lt).trans L_lt_R
    rw [exec_sqrtr_of_lt hu hv]
    rcases hcases with ⟨hsquare, hroot, heq⟩ | ⟨hnone, hroot, heq⟩
    · obtain ⟨t, ht, hwrites⟩ := writeBack_setCf_spec s rd true hfits
      rw [heq]
      exact ⟨t, r, ht, hr, .inl ⟨hsquare, hroot, hwrites⟩⟩
    · obtain ⟨t, ht, hwrites⟩ := writeBack_setCf_spec s rd false hfits
      rw [heq]
      exact ⟨t, r, ht, hr, .inr ⟨hnone, hroot, hwrites⟩⟩
  case nonCanonical =>
    rw [exec_sqrtr_of_ge hge]
    exact raise_spec s .nonCanon

/-- Settles O49. -/
theorem twopowWritesThePowerOfTwoOrFaults : Obligations.TwopowWritesThePowerOfTwoOrFaults := by
  intro s rd imm
  refine ⟨encodedAs_of_wellFormed (i := .twopow rd imm) rfl, fun hlt => ?power, fun hge => ?range⟩
  case power =>
    have hcanonical : 2 ^ imm.toNat < L := twopow_lt hlt.not_ge
    rw [exec_twopow_of_lt hlt]
    exact ⟨hcanonical, writeBack_spec s rd (hcanonical.trans L_lt_R)⟩
  case range =>
    rw [exec, execTwopow_of_ge hge]
    exact raise_spec s .kRange

/-! The laws of `44_residue_roots.md` R255. -/

/-- NEG negates in ZMod L. -/
theorem cast_negF {a : Nat} (ha : a < L) : (negF a : ZMod L) = -a := by
  have hsum : ((a + negF a : Nat) : ZMod L) = 0 :=
    (ZMod.natCast_eq_zero_iff _ _).2 (Nat.dvd_of_mod_eq_zero (add_negF_mod ha))
  rw [Nat.cast_add] at hsum
  exact eq_neg_of_add_eq_zero_right hsum

/-- A root and its negation have one square. -/
theorem mulF_negF_self {a : Nat} (ha : a < L) : mulF (negF a) (negF a) = a * a % L := by
  rw [mulF_eq negF_lt negF_lt, ← cast_eq_iff (Nat.mod_lt _ L_pos) (Nat.mod_lt _ L_pos), ZMod.natCast_mod,
    ZMod.natCast_mod, Nat.cast_mul, Nat.cast_mul, cast_negF ha, neg_mul_neg]

theorem isFieldSquare_zero : IsFieldSquare 0 := ⟨0, Nat.zero_mod L⟩

/-- What a completed SQRT left in VF and FR[rd], for zero and non-zero operands alike: the non-negative root or its
negation, if there is one (`44_residue_roots.md` R251). -/
theorem sqrt_completed {s t : State} {rd rs1 : Reg} {imm : Imm} (hsign : imm.toNat ≤ 1) (hx : s.x rs1 < L)
    (ht : exec (.sqrt rd rs1 imm) s = .next t) :
    (t.vf = true ↔ IsFieldSquare (s.x rs1)) ∧
      (t.vf = true → ∃ r, r ≤ K.halfBound ∧ r * r % L = s.x rs1 ∧
        t.x rd = if imm.toNat = 1 then r else negF r) := by
  obtain ⟨⟨-, hzero, hnoRoot, hroot, -⟩, -⟩ :=
    (sqrtWritesTheRequestedRootOrNoValue s rd rs1 imm).imp_left fun h => h hsign
  by_cases h0 : s.x rs1 = 0
  · obtain ⟨t', ht', hwrites⟩ := hzero h0
    obtain rfl := Host.Outcome.next.inj (ht.symm.trans ht')
    refine ⟨iff_of_true hwrites.vf (h0 ▸ isFieldSquare_zero), fun _ => ⟨0, Nat.zero_le _, ?_, ?_⟩⟩
    · rw [h0, Nat.zero_mul, Nat.zero_mod]
    · rw [hwrites.result, negF_zero, ite_self]
  have hpos : 0 < s.x rs1 := Nat.pos_of_ne_zero h0
  by_cases hsquare : IsFieldSquare (s.x rs1)
  · obtain ⟨t', r, ht', hr, hsq, hwrites⟩ := hroot hpos hx hsquare
    obtain rfl := Host.Outcome.next.inj (ht.symm.trans ht')
    have hrpos : 0 < r := Nat.pos_of_ne_zero fun hr0 => h0 (by rw [← hsq, hr0, Nat.zero_mul, Nat.zero_mod])
    refine ⟨iff_of_true hwrites.vf hsquare, fun _ => ⟨r, hr, hsq, ?_⟩⟩
    rw [hwrites.result, negF_of_le hrpos (hr.trans halfBound_lt.le)]
  · obtain ⟨t', ht', hwrites⟩ := hnoRoot hpos hx hsquare
    obtain rfl := Host.Outcome.next.inj (ht.symm.trans ht')
    have hvf : ¬ t.vf = true := by rw [hwrites.vf]; exact Bool.false_ne_true
    exact ⟨iff_of_false hvf hsquare, fun h => absurd h hvf⟩

/-- LEG's flag on a non-zero canonical operand. -/
theorem leg_completed {s t : State} {rs1 : Reg} (hx : s.x rs1 < L) (h0 : s.x rs1 ≠ 0)
    (ht : exec (.leg rs1) s = .next t) : t.cf = true ↔ IsFieldSquare (s.x rs1) := by
  obtain ⟨-, t', ht', -, hcf, -⟩ := legSetsTheChoiceFlagToResidue s rs1
  obtain rfl := Host.Outcome.next.inj (ht.symm.trans ht')
  rw [Nat.mod_eq_of_lt hx] at hcf
  exact hcf h0

/-- R255's first laws: LEG tells whether SQRT has a value, and the values of the two signs are roots that cancel. -/
theorem leg_sqrt_laws {s l p n : State} {rd rs1 : Reg} (hx : s.x rs1 < L) (hl : exec (.leg rs1) s = .next l)
    (hp : exec (.sqrt rd rs1 1) s = .next p) (hn : exec (.sqrt rd rs1 0) s = .next n) :
    (s.x rs1 ≠ 0 → (l.cf = true ↔ p.vf = true) ∧ (l.cf = true ↔ n.vf = true)) ∧
    (p.vf = true → mulF (p.x rd) (p.x rd) = s.x rs1) ∧ (n.vf = true → mulF (n.x rd) (n.x rd) = s.x rs1) ∧
    (p.vf = true → (p.x rd + n.x rd) % L = 0 ∧ p.x rd ≤ K.halfBound) := by
  obtain ⟨hpvf, hproot⟩ := sqrt_completed (imm := 1) (by decide) hx hp
  obtain ⟨hnvf, hnroot⟩ := sqrt_completed (imm := 0) (by decide) hx hn
  refine ⟨fun h0 => ?_, fun hv => ?_, fun hv => ?_, fun hv => ?_⟩
  · rw [leg_completed hx h0 hl, hpvf, hnvf]
    exact ⟨Iff.rfl, Iff.rfl⟩
  · obtain ⟨r, hr, hsq, hres⟩ := hproot hv
    have hrR : r < R := (hr.trans_lt halfBound_lt).trans L_lt_R
    have hpx : p.x rd = r := hres.trans (if_pos rfl)
    rw [hpx, mulF_eq hrR hrR, hsq]
  · obtain ⟨r, hr, hsq, hres⟩ := hnroot hv
    have hnx : n.x rd = negF r := hres.trans (if_neg (by decide))
    rw [hnx, mulF_negF_self (hr.trans_lt halfBound_lt), hsq]
  · obtain ⟨r, hr, hsq, hres⟩ := hproot hv
    obtain ⟨r', hr', hsq', hres'⟩ := hnroot (hnvf.2 (hpvf.1 hv))
    obtain rfl := root_unique hsq hsq' hr hr'
    have hpx : p.x rd = r := hres.trans (if_pos rfl)
    have hnx : n.x rd = negF r := hres'.trans (if_neg (by decide))
    rw [hpx, hnx]
    exact ⟨add_negF_mod (hr.trans_lt halfBound_lt), hr⟩

/-- R255's laws of the ratio root, by the quotient w. -/
theorem sqrtr_laws {s t : State} {rd rs1 rs2 : Reg} (hu : s.x rs1 < L) (hpos : 0 < s.x rs2) (hv : s.x rs2 < L)
    (ht : exec (.sqrtr rd rs1 rs2) s = .next t) :
    (t.cf = true ↔ (s.x rs1 = 0 ∨ ∃ w, w < L ∧ w ≠ 0 ∧ w * s.x rs2 % L = s.x rs1 ∧ IsFieldSquare w)) ∧
    (t.cf = true → t.x rd * t.x rd * s.x rs2 % L = s.x rs1) ∧
    (t.cf = false → s.x rs1 ≠ 0 → t.x rd * t.x rd * s.x rs2 % L = K.sqrtM1 * s.x rs1 % L) := by
  obtain ⟨-, hzero, -, hratio, -⟩ := sqrtrWritesTheRatioRoot s rd rs1 rs2
  by_cases h0 : s.x rs1 = 0
  · obtain ⟨t', ht', hwrites⟩ := hzero hu hv h0
    obtain rfl := Host.Outcome.next.inj (ht.symm.trans ht')
    refine ⟨iff_of_true hwrites.cf (.inl h0), fun _ => ?_, fun _ hne => absurd h0 hne⟩
    rw [hwrites.result, h0, Nat.zero_mul, Nat.zero_mod]
  obtain ⟨w, hw, hquotient, honly⟩ := exists_quotient hu hpos hv
  have hw0 : w ≠ 0 := fun hz => h0 (by rw [← hquotient, hz, Nat.zero_mul, Nat.zero_mod])
  obtain ⟨t', r, ht', -, hcases⟩ := hratio w hu hv h0 hpos.ne' hw hquotient
  obtain rfl := Host.Outcome.next.inj (ht.symm.trans ht')
  rcases hcases with ⟨hsquare, hroot, hwrites⟩ | ⟨hnone, hroot, hwrites⟩
  · refine ⟨iff_of_true hwrites.cf (.inr ⟨w, hw, hw0, hquotient, hsquare⟩), fun _ => ?_, fun hcf => ?_⟩
    · rw [hwrites.result, Nat.mul_mod, hroot, ← Nat.mul_mod_mod, Nat.mod_mod, Nat.mul_mod_mod, hquotient]
    · exact nomatch hwrites.cf.symm.trans hcf
  · have hcf : ¬ t.cf = true := by rw [hwrites.cf]; exact Bool.false_ne_true
    refine ⟨iff_of_false hcf ?_, fun h => absurd h hcf, fun _ _ => ?_⟩
    · rintro (hz | ⟨w', hw', -, hq', hsquare⟩)
      · exact h0 hz
      · exact hnone (honly w' hw' hq' ▸ hsquare)
    · rw [hwrites.result, ← Nat.mod_mul_mod, hroot, Nat.mod_mul_mod, Nat.mul_assoc, ← Nat.mul_mod_mod, hquotient]

/-- R255's last law, TWOPOW(k) = POW(2, k). -/
theorem twopow_eq_pow {s t u : State} {rd rs1 rs2 : Reg} {imm : Imm} (hk : imm.toNat < 253) (h1 : s.x rs1 = 2)
    (h2 : s.x rs2 = imm.toNat) (ht : exec (.twopow rd imm) s = .next t) (hu : exec (.pow rd rs1 rs2) s = .next u) :
    t.x rd = u.x rd := by
  have hlt : 2 ^ imm.toNat < L := twopow_lt hk.not_ge
  rw [exec_twopow_of_lt hk] at ht
  rw [exec_pow, powF_eq (s.x_lt rs2), h1, h2, Nat.mod_eq_of_lt hlt] at hu
  rw [x_of_writeBack ht (hlt.trans L_lt_R), x_of_writeBack hu (hlt.trans L_lt_R)]

/-- Settles O50: the laws follow from what O46, O47 and O48 say each command writes. -/
theorem residueAndRootLawsHold : Obligations.ResidueAndRootLawsHold :=
  ⟨fun _ _ _ _ _ _ hx hl hp hn => leg_sqrt_laws hx hl hp hn, fun _ _ _ _ _ hu hpos hv ht => sqrtr_laws hu hpos hv ht,
    fun _ _ _ _ _ _ _ hk h1 h2 ht hu => twopow_eq_pow hk h1 h2 ht hu⟩

end Sys2Proof.Machine
end

section
/-! Faults and their clearing (`60_exceptions.md` R300 to R306), in the order of their parts: the two ways a command can
end, what a CTRL write short of a reset does, and that a command's end and every event of the outside world keep the
invariant of the reachable states. The family's statements follow from these. -/

namespace Sys2Proof.Machine

/-! The two ways a command can end. -/

/-- Every effect of a command but the fault is a completion with writes that CMDCNT, PEND and the fault fields do not
see (`60_exceptions.md` R301, `70_reset_and_hazards.md` R350). -/
theorem Effect.completed_or_faulted {i : Instr} {s : State} {o : Host.Outcome State Fault Refusal} (h : Effect i s o) :
    ∃ t, o = .next t ∧ (Completed s t ∨ ∃ c, Faulted s t c) := by
  cases h with
  | fault c =>
    obtain ⟨t, ht, hfaulted⟩ := raise_spec s c
    exact ⟨t, ht, .inr ⟨c, hfaulted⟩⟩
  | reg | regCf | regVf | choice | buffer => exact ⟨_, rfl, .inl (.of_commit _ _ rfl rfl rfl rfl rfl rfl)⟩

/-- STB stores inside the buffer, and no other command writes it (`30_encoding.md` R82). -/
theorem Effect.dbuf_wf {i : Instr} {s t : State} (h : Effect i s (.next t)) (hwf : s.dbuf.wf = true) :
    t.dbuf.wf = true := by
  cases h with
  | fault | reg | regCf | regVf | choice => exact hwf
  | buffer v => exact Memory.wf_store hwf (le_refl _)

/-! A CTRL write short of a reset. -/

/-- `60_exceptions.md` R306. -/
theorem writeCtrl_clear {v : Word} (h0 : v.getLsbD 0 = false) (h1 : v.getLsbD 1 = true) (s : State) :
    writeCtrl v s = s.clearFault := by
  rw [writeCtrl, h0, h1, if_neg Bool.false_ne_true, if_pos rfl]

/-- `10_state.md` R28. -/
theorem writeCtrl_nop {v : Word} (h0 : v.getLsbD 0 = false) (h1 : v.getLsbD 1 = false) (s : State) :
    writeCtrl v s = s := by
  rw [writeCtrl, h0, h1, if_neg Bool.false_ne_true, if_neg Bool.false_ne_true]

theorem step_write_ctrl {s : State} {v : Word} {rest : List HostEvent} (hr : s.ready = false)
    (hi : s.env.inputs = .write (Config.base + 0x018) 64 v :: rest) :
    step s = .next ((writeCtrl v (s.tick.setInputs rest)).answer .done) :=
  step_write_aligned hr (by decide) (by decide) hi

/-! The invariant at the end of a command. -/

section Completion

variable {s t : State}

/-- Of a block with no command and no latency the invariant asks only DBUF's form and that the fault fields agree. -/
theorem inv_of_idle (hwf : t.dbuf.wf = true) (hcode : t.fcode.toNat ≤ 4) (hfault : t.fault = true ↔ t.fcode ≠ 0)
    (hidle : t.busy = false) (hlat : t.env.latLeft = 0) : t.Inv :=
  ⟨hwf, hcode, hfault, fun hb => absurd hb (Bool.eq_false_iff.1 hidle), fun _ => hlat⟩

/-- A completion leaves FAULT and FCODE alone (`70_reset_and_hazards.md` R350). -/
theorem Completed.inv (h : Completed s t) (hs : s.Inv) (hwf : t.dbuf.wf = true) (hlat : s.env.latLeft = 0) :
    t.Inv := by
  obtain ⟨-, hcode, hfault, -, -⟩ := hs
  rw [← h.fcode] at hcode
  rw [← h.fault, ← h.fcode] at hfault
  exact inv_of_idle hwf hcode hfault h.busy (h.env ▸ hlat)

/-- A fault sets FAULT together with a code of 1 to 4, and ends BUSY (`60_exceptions.md` R300, R301). -/
theorem Faulted.inv {c : FaultCode} (h : Faulted s t c) (hwf : t.dbuf.wf = true) (hlat : s.env.latLeft = 0) :
    t.Inv := by
  obtain ⟨hne, hle⟩ := c.code_range
  rw [← h.fcode] at hne hle
  exact inv_of_idle hwf hle (iff_of_true h.fault hne) h.busy (h.env ▸ hlat)

theorem exec_keeps_inv {i : Instr} (hs : s.Inv) (hlat : s.env.latLeft = 0) (h : exec i s = .next t) : t.Inv := by
  have he : Effect i s (.next t) := h ▸ exec_effect i s
  have hwf : t.dbuf.wf = true := he.dbuf_wf hs.1
  obtain ⟨t', ht, hend⟩ := he.completed_or_faulted
  obtain rfl := Host.Outcome.next.inj ht
  rcases hend with hcompleted | ⟨c, hfaulted⟩
  · exact hcompleted.inv hs hwf hlat
  · exact hfaulted.inv hwf hlat

theorem completePending_keeps_inv (hs : s.Inv) (hlat : s.env.latLeft = 0) (h : completePending s = .next t) :
    t.Inv := by
  rcases completePending_cases h with ⟨i, -, hexec⟩ | ⟨-, rfl⟩
  · exact exec_keeps_inv hs hlat hexec
  · obtain ⟨t, ht, hfaulted⟩ := raise_spec s .illegal
    obtain rfl := Host.Outcome.next.inj ht
    exact hfaulted.inv hs.1 hlat

end Completion

/-! The invariant in a turn of the outside world. -/

section Turn

variable {s : State}

/-- The answer and the events to come are no part of the invariant. -/
theorem inv_answer {r : PortAnswer} : (s.answer r).Inv ↔ s.Inv := Iff.rfl

theorem inv_setInputs {rest : List HostEvent} : (s.setInputs rest).Inv ↔ s.Inv := Iff.rfl

/-- OVR is no part of the invariant. -/
theorem inv_dropWrite : s.dropWrite.Inv ↔ s.Inv := Iff.rfl

/-- A block with no command has no latency left to pass. -/
theorem inv_tick (hs : s.Inv) : s.tick.Inv := by
  obtain ⟨hwf, hcode, hfault, hbusy, hidle⟩ := hs
  have hlat : s.busy = false → s.env.latLeft - 1 = 0 := fun hb => by rw [hidle hb]
  exact ⟨hwf, hcode, hfault, hbusy, hlat⟩

/-- `60_exceptions.md` R305: a command is accepted only with FAULT = 0. -/
theorem inv_accept (hs : s.Inv) (hf : s.fault = false) (v : Word) : (s.accept v).Inv := by
  obtain ⟨hwf, hcode, hfault, -, -⟩ := hs
  exact ⟨hwf, hcode, hfault, fun _ => hf, fun hb => nomatch hb⟩

/-- `60_exceptions.md` R306: FAULT and FCODE are cleared together, whether or not a command runs. -/
theorem inv_clearFault (hs : s.Inv) : s.clearFault.Inv := by
  obtain ⟨hwf, -, -, -, hidle⟩ := hs
  exact ⟨hwf, Nat.zero_le 4, by simp, fun _ => rfl, hidle⟩

/-- A reset has the architectural fields of `State.reset`, and abandons the latency with the command. -/
theorem inv_toReset (s : State) : s.toReset.Inv := by
  obtain ⟨hwf, hcode, hfault, hbusy, -⟩ := resetMeetsTheInvariant
  exact ⟨hwf, hcode, hfault, hbusy, fun _ => rfl⟩

theorem inv_storeDbuf (hs : s.Inv) {i : Nat} (hi : i < 4) (v : Nat) :
    { s with dbuf := s.dbuf.store (8 * i) 8 v }.Inv := by
  obtain ⟨hwf, hrest⟩ := hs
  exact ⟨Memory.wf_store hwf (by omega), hrest⟩

theorem writePort_keeps_inv (hs : s.Inv) (off : Nat) (v : Word) : (writePort (portReg off) v s).Inv := by
  rcases writePort_cases (portReg off) v s with
    hsame | hdrop | ⟨-, hfault, -, haccept⟩ | hreset | hclear | ⟨-, i, hp, hstore⟩
  · rwa [hsame]
  · rwa [hdrop, inv_dropWrite]
  · rw [haccept]; exact inv_accept hs hfault v
  · rw [hreset]; exact inv_toReset s
  · rw [hclear]; exact inv_clearFault hs
  · rw [hstore]; exact inv_storeDbuf hs (portReg_dbuf_lt hp) _

theorem writeAt_keeps_inv (hs : s.Inv) (bits off : Nat) (v : Word) : (writeAt bits off v s).Inv := by
  rcases writeAt_cases bits off v s with hbad | ⟨-, hok⟩
  · rwa [hbad, inv_answer]
  · rw [hok, inv_answer]; exact writePort_keeps_inv hs off v

theorem portEvent_keeps_inv {e : HostEvent} {t : State} (hs : s.Inv) (h : portEvent e s = .next t) : t.Inv := by
  rcases portEvent_cases h with
    ⟨-, rfl⟩ | ⟨_, bits, off, -, -, rfl⟩ | ⟨_, bits, off, v, -, -, rfl⟩ | ⟨-, rfl⟩
  · exact hs
  · obtain ⟨r, hr⟩ := readAt_eq bits off s
    rwa [hr, inv_answer]
  · exact writeAt_keeps_inv hs bits off v
  · exact inv_toReset s

theorem hostTurn_keeps_inv {t : State} (hs : s.Inv) (h : hostTurn s = .next t) : t.Inv := by
  rcases hostTurn_cases h with ⟨-, rfl⟩ | ⟨e, rest, -, he⟩
  · exact inv_tick hs
  · exact portEvent_keeps_inv (inv_setInputs.2 (inv_tick hs)) he

end Turn

/-! The family's statements (`60_exceptions.md`). -/

/-- Settles O21: a step is the completion of a command with no latency left, or a turn of the outside world. -/
theorem everyStepKeepsTheInvariant : Obligations.EveryStepKeepsTheInvariant := by
  intro s s' hs hstep
  rcases step_cases hstep with ⟨hready, hcomplete⟩ | ⟨-, hturn⟩
  · obtain ⟨-, hlat⟩ := State.ready_iff.1 hready
    exact completePending_keeps_inv hs hlat hcomplete
  · exact hostTurn_keeps_inv hs hturn

/-- Settles O15: with bit 0 clear the write is FCLR or nothing, by bit 1. -/
theorem faultClearChangesOnlyFaultFields : Obligations.FaultClearChangesOnlyFaultFields := by
  intro s v rest hr hi h0
  have hstep := step_write_ctrl hr hi
  cases h1 : v.getLsbD 1 with
  | true =>
    rw [writeCtrl_clear h0 h1] at hstep
    exact ⟨_, hstep, rfl, fun _ => sameArch_answer s.clearFault rest _, fun h => absurd h.symm Bool.false_ne_true⟩
  | false =>
    rw [writeCtrl_nop h0 h1] at hstep
    exact ⟨_, hstep, rfl, fun h => absurd h Bool.false_ne_true, fun _ => sameArch_answer s rest _⟩

/-- Settles O23: the effect of every command is a completion or a fault. -/
theorem everyCommandCompletesOrFaultsPrecisely : Obligations.EveryCommandCompletesOrFaultsPrecisely :=
  fun i s => (exec_effect i s).completed_or_faulted

end Sys2Proof.Machine
end

section
/-! Reset, acceptance and completion (`70_reset_and_hazards.md` R340 to R360), in the order of their parts: which writes
the port drops and which it accepts, the two resets as steps, and the turns in which only a command's latency passes.
The family's statements follow from these. -/

namespace Sys2Proof.Machine

/-! Writes to CMD and DBUF, dropped and accepted. -/

/-- The writes that BUSY or FAULT makes the port drop, by their window offset (`70_reset_and_hazards.md` R351). -/
def DroppedAt (off : Nat) (s : State) : Prop :=
  (off = 0x008 ∧ (s.busy = true ∨ s.fault = true)) ∨ (off ∈ [0x040, 0x048, 0x050, 0x058] ∧ s.busy = true)

theorem writeCmd_of_busy_or_fault {s : State} (h : s.busy = true ∨ s.fault = true) (v : Word) :
    writeCmd v s = s.dropWrite := if_pos (by rwa [Bool.or_eq_true])

theorem writeCmd_of_free {s : State} (hb : s.busy = false) (hf : s.fault = false) (v : Word) :
    writeCmd v s = s.accept v := by
  rw [writeCmd, hb, hf, Bool.or_false, if_neg Bool.false_ne_true]

theorem writeDbuf_of_busy (i : Nat) (v : Word) {s : State} (h : s.busy = true) : writeDbuf i v s = s.dropWrite :=
  if_pos h

/-- The four offsets of the list are those of DBUF0 to DBUF3 (`20_memory.md` R51). -/
theorem dbufOffset_eq {off : Nat} (h : off ∈ [0x040, 0x048, 0x050, 0x058]) : ∃ i < 4, off = 0x040 + 8 * i := by
  simp only [List.mem_cons, List.not_mem_nil, or_false] at h
  exact ⟨(off - 0x040) / 8, by omega, by omega⟩

theorem DroppedAt.offset {off : Nat} {s : State} (h : DroppedAt off s) : off < 0x1000 ∧ off % 8 = 0 := by
  rcases h with ⟨rfl, -⟩ | ⟨hdbuf, -⟩
  · decide
  · obtain ⟨i, hi, rfl⟩ := dbufOffset_eq hdbuf
    omega

theorem DroppedAt.writePort_eq {off : Nat} {s : State} (h : DroppedAt off s) (v : Word) :
    writePort (portReg off) v s = s.dropWrite := by
  rcases h with ⟨rfl, hblocked⟩ | ⟨hdbuf, hbusy⟩
  · exact writeCmd_of_busy_or_fault hblocked v
  · obtain ⟨i, hi, rfl⟩ := dbufOffset_eq hdbuf
    rw [portReg_dbuf hi]
    exact writeDbuf_of_busy i v hbusy

/-- BUSY and FAULT are the same after the turn that the write itself is. -/
theorem droppedAt_turn {off : Nat} {s : State} {rest : List HostEvent} :
    DroppedAt off (s.tick.setInputs rest) ↔ DroppedAt off s := Iff.rfl

/-! The two resets as steps. -/

/-- `10_state.md` R28: SRST is the whole effect of the write. -/
theorem writeCtrl_reset {v : Word} (h : v.getLsbD 0 = true) (s : State) : writeCtrl v s = s.toReset := if_pos h

theorem step_powerOnReset {s : State} {rest : List HostEvent} (hr : s.ready = false)
    (hi : s.env.inputs = .powerOnReset :: rest) : step s = .next (s.tick.setInputs rest).toReset := by
  rw [step_not_ready hr, hostTurn, hi]; rfl

/-! Turns without an event. -/

section Quiet

variable {s : State}

theorem step_no_event (hr : s.ready = false) (hi : s.env.inputs = []) : step s = .next s.tick := by
  rw [step_not_ready hr, hostTurn, hi]

theorem not_ready_of_latency (h : s.env.latLeft ≠ 0) : s.ready = false := by
  rw [Bool.eq_false_iff, Ne, State.ready_iff]
  exact fun hready => h hready.2

theorem tick_of_no_latency (h : s.env.latLeft = 0) : s.tick = s := by
  have hsub : s.env.latLeft - 1 = s.env.latLeft := by rw [h]
  rw [State.tick, hsub]

theorem setLatLeft_zero (h : s.env.latLeft = 0) : { s with env := { s.env with latLeft := 0 } } = s := by
  rw [← h]

theorem run_succ {M : Host.Core} {s t : M.State} (h : M.step s = .next t) (n : Nat) : M.run (n + 1) s = M.run n t := by
  rw [Host.Core.run, h]

/-- With no event to come, as many steps as there are turns of latency change nothing but the latency left
(`70_reset_and_hazards.md` R360, log 19). -/
theorem run_latency (n : Nat) (hi : s.env.inputs = []) (hn : s.env.latLeft = n) :
    Sys2Proof.core.run n s = .next { s with env := { s.env with latLeft := 0 } } := by
  induction n generalizing s with
  | zero => rw [setLatLeft_zero hn]; rfl
  | succ n ih =>
    have hturn : step s = .next s.tick := step_no_event (not_ready_of_latency (by omega)) hi
    have hleft : s.tick.env.latLeft = n := by rw [State.tick_env_latLeft, hn, Nat.add_sub_cancel]
    calc Sys2Proof.core.run (n + 1) s
        = Sys2Proof.core.run n s.tick := run_succ hturn n
      _ = .next { s with env := { s.env with latLeft := 0 } } := ih (s := s.tick) hi hleft

end Quiet

/-! The family's statements (`70_reset_and_hazards.md`). -/

/-- Settles O9: at an offset of R351 the port drops the write, and no other field sees the turn. -/
theorem droppedWritesOnlySetOverrun : Obligations.DroppedWritesOnlySetOverrun := by
  intro s off v rest hr hdrop hi
  have hdropped : DroppedAt off s := hdrop
  obtain ⟨hlt, hal⟩ := hdropped.offset
  have hstep := step_write_aligned hr hlt hal hi
  rw [(droppedAt_turn.2 hdropped).writePort_eq] at hstep
  exact ⟨_, hstep, rfl, sameArch_answer s.dropWrite rest _, rfl⟩

/-- Settles O14: both events end in `State.toReset`, which does not look at the state but for the outside world's
fields. -/
theorem softResetGivesTheResetState : Obligations.SoftResetGivesTheResetState := by
  intro s v rest hr h
  rcases h with ⟨hwrite, hsrst⟩ | hpower
  · have hstep := step_write_ctrl hr hwrite
    rw [writeCtrl_reset hsrst] at hstep
    exact ⟨_, hstep, (isReset_toReset _).answer _, rfl, rfl⟩
  · exact ⟨_, step_powerOnReset hr hpower, isReset_toReset _, rfl, rfl⟩

/-- Settles O17, by induction on the latency left. -/
theorem runningCommandCompletesInBoundedSteps : Obligations.RunningCommandCompletesInBoundedSteps := by
  constructor
  · intro s hb hi
    exact ⟨run_latency _ hi rfl, step_due hb rfl⟩
  · intro s hidle hi hlat
    rw [step_no_event (not_ready_of_idle hidle) hi, tick_of_no_latency hlat]

/-- Settles O7. -/
theorem stepRunsTheDecodedCommand : Obligations.StepRunsTheDecodedCommand :=
  fun _ _ hb hl hd => (step_due hb hl).trans (completePending_ok hd)

/-- Settles O8: the port accepts the value, and a block without a command has no completion due before it. -/
theorem cmdWriteIsAccepted : Obligations.CmdWriteIsAccepted := by
  intro s v rest hb hf hi
  have hport : writePort (portReg 0x008) v (s.tick.setInputs rest) = (s.tick.setInputs rest).accept v :=
    writeCmd_of_free (s := s.tick.setInputs rest) hb hf v
  have hstep := step_write_aligned (not_ready_of_idle hb) (by decide) (by decide) hi
  rw [hport] at hstep
  exact ⟨_, hstep, rfl, rfl, fun _ => rfl, rfl, rfl, fun _ => rfl, rfl, rfl, rfl, rfl, rfl, rfl, rfl⟩

end Sys2Proof.Machine
end
